-- ==== Sys2Proof/Word.lean ====
section
/-! DEFINITION. The word types of the FNC block: bytes, 32-bit registers, 16-bit window offsets
(spec/00_scope.md R8, R9). -/

namespace Sys2Proof

/-- A byte: an unsigned value 0 to 255 (00_scope.md R9). -/
abbrev Byte := BitVec 8

/-- A host register or counter, 32 bits (00_scope.md R8). -/
abbrev Word := BitVec 32

/-- A byte offset into the 64 KiB host window (20_memory.md R60). -/
abbrev Offset := BitVec 16

end Sys2Proof
end

