-- ==== Sys2Proof/Config.lean ====
section
/-! DEFINITION. What an implementation fixes (the parameters of spec/00_scope.md R8) and the values
the spec leaves free. -/

namespace Sys2Proof

/-- The parameters of one block (00_scope.md R8): "A model takes each parameter as an argument". -/
structure Params where
  /-- IN_DEPTH: the entries the input FIFO holds. -/
  inDepth : Nat
  /-- OUT_CAP: the bytes the output buffer holds. -/
  outCap : Nat
  /-- URI_TABLE: the prefix strings by code, the string of code c at index c. -/
  uriTable : List (List Byte)
  /-- FNC_BASE: the platform address of offset 0 (20_memory.md R65; 92_eei_decisions.md D63). -/
  fncBase : Nat
  /-- CARD_BLOCKS: the blocks the host scans before it pushes `End` (70_reset_and_hazards.md R356;
  92_eei_decisions.md D64). The block never sees it. -/
  cardBlocks : Nat
  deriving DecidableEq, Repr

/-- The n-th free byte: what an OUT_BUF byte outside the valid range reads as, "an independent draw
per byte per read" (93_implementation_defined.md U1). No body: nothing can evaluate it. -/
opaque Config.unspecifiedByte : Nat → BitVec 8

/-- The n-th free choice of the interleaving (20_memory.md R71: "Any interleaving is admitted"):
true when the engine moves before the host. No body: nothing can evaluate it. -/
opaque Config.engineFirst : Nat → Bool

end Sys2Proof
end

