-- ==== Sys2Proof/Syntax.lean ====
section
/-! DEFINITION. The syntax of the FNC block: its commands, its instructions (one constructor per row
of spec/opcode_table.json), its registers, FIFO entries, and the events the host side presents. -/

namespace Sys2Proof

/-- The eight commands of the opcode map (30_encoding.md R91). -/
inductive Command where
  | frmEnc
  | frmDec
  | ackChk
  | ndefDec
  | ndefEnc
  | tlvParse
  | uriExp
  | uriCmp
  deriving DecidableEq, Repr

/-- One constructor per row of spec/opcode_table.json. The eight commands have no operand in the
word (30_encoding.md R90); each is the engine's step of that command (40_host_actions.md R150, R159).
A host write carries the whole 32-bit value written (30_encoding.md R93). -/
inductive Instr where
  /-- FRM_ENC, OPCODE 0x01 (41_frame.md R171). -/
  | frmEnc
  /-- FRM_DEC, OPCODE 0x02 (41_frame.md R177). -/
  | frmDec
  /-- ACK_CHK, OPCODE 0x03 (41_frame.md R188). -/
  | ackChk
  /-- NDEF_DEC, OPCODE 0x10 (42_ndef.md R230). -/
  | ndefDec
  /-- NDEF_ENC, OPCODE 0x11 (42_ndef.md R236). -/
  | ndefEnc
  /-- TLV_PARSE, OPCODE 0x12 (44_tlv.md R271). -/
  | tlvParse
  /-- URI_EXP, OPCODE 0x20 (43_uri.md R251). -/
  | uriExp
  /-- URI_CMP, OPCODE 0x21 (43_uri.md R261). -/
  | uriCmp
  /-- W_CMD (START), offset 0x010 (40_host_actions.md R142). -/
  | wCmd (v : Word)
  /-- W_CTRL (SRST), offset 0x014 (40_host_actions.md R143). -/
  | wCtrl (v : Word)
  /-- W_STICKY (W1C), offset 0x01C (40_host_actions.md R146). -/
  | wSticky (v : Word)
  /-- W_IN_DATA (PUSH Data), offset 0x020 (40_host_actions.md R144). -/
  | wInData (v : Word)
  /-- W_IN_END (PUSH End / Abort), offset 0x024 (40_host_actions.md R145). -/
  | wInEnd (v : Word)
  /-- W_REQ_CODE, offset 0x038 (40_host_actions.md R147). -/
  | wReqCode (v : Word)
  deriving DecidableEq, Repr

/-- The instruction a command is, as the engine runs it. -/
def Command.instr : Command → Instr
  | .frmEnc => .frmEnc
  | .frmDec => .frmDec
  | .ackChk => .ackChk
  | .ndefDec => .ndefDec
  | .ndefEnc => .ndefEnc
  | .tlvParse => .tlvParse
  | .uriExp => .uriExp
  | .uriCmp => .uriCmp

/-- The registers of the host window (10_state.md section 2, R21 to R39). -/
inductive Reg where
  | id
  | version
  | paramInDepth
  | paramOutCap
  | cmd
  | ctrl
  | status
  | sticky
  | inData
  | inEnd
  | err
  | errPos
  | inPos
  | outLen
  | reqCode
  | respCode
  | msgCount
  | recCount
  | result
  deriving DecidableEq, Repr

/-- One slot of the input FIFO (10_state.md R43). -/
inductive Entry where
  /-- `Data(b)`: one byte of the stream. -/
  | data (b : Byte)
  /-- `End`: the stream has ended with no error. -/
  | endMark
  /-- `Abort(c)`: the producer ended the stream with the error c, 0x01 to 0xFF. -/
  | abort (c : Byte)
  deriving DecidableEq, Repr

/-- What the outside presents to the block, one per host turn. -/
inductive HostEvent where
  /-- `BusRead(off)` (20_memory.md R60). -/
  | read (off : Offset)
  /-- `BusWrite(off, v)` (20_memory.md R60). -/
  | write (off : Offset) (v : Word)
  /-- A transfer of another width than 32 bits, which "A model ... must refuse" (20_memory.md R60). -/
  | otherWidth (bits : Nat) (off : Offset)
  /-- The platform's reset input (70_reset_and_hazards.md R340). -/
  | hardReset
  deriving DecidableEq, Repr

/-- The two agents (00_scope.md R6). -/
inductive Agent where
  | host
  | engine
  deriving DecidableEq, Repr

/-- An instruction's bits, numbered as spec/opcode_table.json numbers them. -/
inductive Packet where
  /-- A command word, as the engine holds it (30_encoding.md R90). -/
  | cmd (w : BitVec 32)
  /-- A bus write: the offset in bits 15..0, the written value in bits 47..16 (30_encoding.md R93). -/
  | bus (w : BitVec 48)
  deriving DecidableEq, Repr

end Sys2Proof
end

