-- ==== Sys2Proof/WellFormed.lean ====
section
/-! DEFINITION. Well-formed terms: canonical instructions, FIFO entries, parameters. -/

namespace Sys2Proof

/-- The bits of a written value that the host-write table lists (30_encoding.md R93); the others are
ignored by the block. -/
def Instr.usedBits : Instr → Word
  | .frmEnc => 0
  | .frmDec => 0
  | .ackChk => 0
  | .ndefDec => 0
  | .ndefEnc => 0
  | .tlvParse => 0
  | .uriExp => 0
  | .uriCmp => 0
  | .wCmd _ => 0xFF
  | .wCtrl _ => 0x1
  | .wSticky _ => 0x7
  | .wInData _ => 0xFF
  | .wInEnd _ => 0xFF
  | .wReqCode _ => 0xFF

/-- The value an instruction writes; 0 for a command. -/
def Instr.value : Instr → Word
  | .frmEnc => 0
  | .frmDec => 0
  | .ackChk => 0
  | .ndefDec => 0
  | .ndefEnc => 0
  | .tlvParse => 0
  | .uriExp => 0
  | .uriCmp => 0
  | .wCmd v => v
  | .wCtrl v => v
  | .wSticky v => v
  | .wInData v => v
  | .wInEnd v => v
  | .wReqCode v => v

/-- The instruction with every ignored bit of its value cleared, as the host assembly writes it
(30_encoding.md R93: "Bits the table does not list are ignored"). -/
def Instr.canonical : Instr → Instr
  | .frmEnc => .frmEnc
  | .frmDec => .frmDec
  | .ackChk => .ackChk
  | .ndefDec => .ndefDec
  | .ndefEnc => .ndefEnc
  | .tlvParse => .tlvParse
  | .uriExp => .uriExp
  | .uriCmp => .uriCmp
  | .wCmd v => .wCmd (v &&& 0xFF)
  | .wCtrl v => .wCtrl (v &&& 0x1)
  | .wSticky v => .wSticky (v &&& 0x7)
  | .wInData v => .wInData (v &&& 0xFF)
  | .wInEnd v => .wInEnd (v &&& 0xFF)
  | .wReqCode v => .wReqCode (v &&& 0xFF)

/-- An instruction in the form the host assembly writes: no ignored bit is set. An instruction that
is not so is legal and runs alike (log 20). -/
def Instr.wellFormed (i : Instr) : Bool :=
  i.value &&& ~~~ i.usedBits == 0

/-- `Abort(c)` has c in 0x01..0xFF (10_state.md R43). -/
def Entry.wellFormed : Entry → Bool
  | .data _ => true
  | .endMark => true
  | .abort c => c != 0

/-- A transfer of another width is not 32 bits wide (20_memory.md R60). -/
def HostEvent.wellFormed : HostEvent → Bool
  | .read _ => true
  | .write _ _ => true
  | .otherWidth bits _ => bits != 32
  | .hardReset => true

/-- The prefix string the source fixes for code 0x01, "http://www." (00_scope.md R8). -/
def httpWww : List Byte :=
  [0x68, 0x74, 0x74, 0x70, 0x3A, 0x2F, 0x2F, 0x77, 0x77, 0x77, 0x2E]

/-- IN_DEPTH is 1 to 255 (00_scope.md R8). -/
def Params.inDepthLegal (p : Params) : Bool :=
  decide (1 ≤ p.inDepth ∧ p.inDepth ≤ 255)

/-- OUT_CAP is a multiple of 4, 264 to 61440 (00_scope.md R8). -/
def Params.outCapLegal (p : Params) : Bool :=
  decide (p.outCap % 4 = 0 ∧ 264 ≤ p.outCap ∧ p.outCap ≤ 61440)

/-- URI_TABLE maps the codes 0x00 to 0x23 to strings, with "" at 0x00 and "http://www." at 0x01
(00_scope.md R8). -/
def Params.uriTableLegal (p : Params) : Bool :=
  decide (p.uriTable.length = 36) && (p.uriTable[0]? == some []) && (p.uriTable[1]? == some httpWww)

/-- The legal values of the parameters (00_scope.md R8). -/
def Params.legal (p : Params) : Bool :=
  p.inDepthLegal && p.outCapLegal && p.uriTableLegal

end Sys2Proof
end

