-- ==== Sys2Proof/Decode.lean ====
section
/-! DEFINITION. The decoder, total on any bits and rejecting by name, and the encoder, both written
from the encoding tables of spec/30_encoding.md (R90 to R93) and the register map of
spec/10_state.md section 2. -/

namespace Sys2Proof

/-- Why bits are no instruction. -/
inductive DecodeError where
  /-- No assigned OPCODE (30_encoding.md R92). -/
  | unassignedOpcode (op : Byte)
  /-- The offset is not a multiple of 4 (20_memory.md R62). -/
  | misaligned (off : Offset)
  /-- The register takes no write (20_memory.md R64). -/
  | readOnly (r : Reg)
  /-- No register is there: an OUT_BUF word or an unmapped offset (20_memory.md R63, R64). -/
  | noRegister (off : Offset)
  deriving DecidableEq, Repr

/-- Every command, in the opcode map's order (30_encoding.md R91). -/
def Command.all : List Command :=
  [.frmEnc, .frmDec, .ackChk, .ndefDec, .ndefEnc, .tlvParse, .uriExp, .uriCmp]

/-- The opcode map (30_encoding.md R91). -/
def Command.opcode : Command → Byte
  | .frmEnc => 0x01
  | .frmDec => 0x02
  | .ackChk => 0x03
  | .ndefDec => 0x10
  | .ndefEnc => 0x11
  | .tlvParse => 0x12
  | .uriExp => 0x20
  | .uriCmp => 0x21

/-- The command of an opcode; none for an unassigned one (30_encoding.md R92). -/
def Command.ofOpcode (op : Byte) : Option Command :=
  Command.all.find? fun c => c.opcode == op

/-- Every register, in the order of the map (10_state.md section 2). -/
def Reg.all : List Reg :=
  [.id, .version, .paramInDepth, .paramOutCap, .cmd, .ctrl, .status, .sticky, .inData, .inEnd,
   .err, .errPos, .inPos, .outLen, .reqCode, .respCode, .msgCount, .recCount, .result]

/-- The register map (10_state.md section 2). -/
def Reg.offset : Reg → Offset
  | .id => 0x000
  | .version => 0x004
  | .paramInDepth => 0x008
  | .paramOutCap => 0x00C
  | .cmd => 0x010
  | .ctrl => 0x014
  | .status => 0x018
  | .sticky => 0x01C
  | .inData => 0x020
  | .inEnd => 0x024
  | .err => 0x028
  | .errPos => 0x02C
  | .inPos => 0x030
  | .outLen => 0x034
  | .reqCode => 0x038
  | .respCode => 0x03C
  | .msgCount => 0x040
  | .recCount => 0x044
  | .result => 0x048

/-- The register at an offset, none for OUT_BUF and unmapped offsets. -/
def Reg.ofOffset (off : Offset) : Option Reg :=
  Reg.all.find? fun r => r.offset == off

/-- Whether an offset is a multiple of 4 (20_memory.md R61). -/
def aligned (off : Offset) : Bool :=
  off &&& 3 == 0

/-- OPCODE is bits [7:0] of a command word; bits [31:8] are ignored (30_encoding.md R90). -/
def opcodeOf (w : Word) : Byte :=
  w.extractLsb' 0 8

/-- A write of v to the register r (30_encoding.md R93; 20_memory.md R64). -/
def decodeRegWrite (r : Reg) (v : Word) : Except DecodeError Instr :=
  match r with
  | .cmd => .ok (.wCmd v)
  | .ctrl => .ok (.wCtrl v)
  | .sticky => .ok (.wSticky v)
  | .inData => .ok (.wInData v)
  | .inEnd => .ok (.wInEnd v)
  | .reqCode => .ok (.wReqCode v)
  | .id => .error (.readOnly .id)
  | .version => .error (.readOnly .version)
  | .paramInDepth => .error (.readOnly .paramInDepth)
  | .paramOutCap => .error (.readOnly .paramOutCap)
  | .status => .error (.readOnly .status)
  | .err => .error (.readOnly .err)
  | .errPos => .error (.readOnly .errPos)
  | .inPos => .error (.readOnly .inPos)
  | .outLen => .error (.readOnly .outLen)
  | .respCode => .error (.readOnly .respCode)
  | .msgCount => .error (.readOnly .msgCount)
  | .recCount => .error (.readOnly .recCount)
  | .result => .error (.readOnly .result)

/-- The dispatch of `BusWrite(off, v)` to a host write (40_host_actions.md R140). -/
def decodeBusWrite (off : Offset) (v : Word) : Except DecodeError Instr :=
  if aligned off then
    match Reg.ofOffset off with
    | some r => decodeRegWrite r v
    | none => .error (.noRegister off)
  else .error (.misaligned off)

/-- The command a command word starts (30_encoding.md R90, R92). -/
def decodeCommand (w : Word) : Except DecodeError Instr :=
  match Command.ofOpcode (opcodeOf w) with
  | some c => .ok c.instr
  | none => .error (.unassignedOpcode (opcodeOf w))

/-- The decoder. -/
def decode : Packet → Except DecodeError Instr
  | .cmd w => decodeCommand w
  | .bus w => decodeBusWrite (w.extractLsb' 0 16) (w.extractLsb' 16 32)

/-- A bus write's bits: the value above the offset. -/
def busWriteBits (off : Offset) (v : Word) : BitVec 48 :=
  v ++ off

/-- A command's word, its ignored bits 0 (30_encoding.md R90). -/
def Command.word (c : Command) : Word :=
  c.opcode.setWidth 32

/-- The encoder (30_encoding.md R90, R91, R93). -/
def encode : Instr → Packet
  | .frmEnc => .cmd (Command.word .frmEnc)
  | .frmDec => .cmd (Command.word .frmDec)
  | .ackChk => .cmd (Command.word .ackChk)
  | .ndefDec => .cmd (Command.word .ndefDec)
  | .ndefEnc => .cmd (Command.word .ndefEnc)
  | .tlvParse => .cmd (Command.word .tlvParse)
  | .uriExp => .cmd (Command.word .uriExp)
  | .uriCmp => .cmd (Command.word .uriCmp)
  | .wCmd v => .bus (busWriteBits 0x010 v)
  | .wCtrl v => .bus (busWriteBits 0x014 v)
  | .wSticky v => .bus (busWriteBits 0x01C v)
  | .wInData v => .bus (busWriteBits 0x020 v)
  | .wInEnd v => .bus (busWriteBits 0x024 v)
  | .wReqCode v => .bus (busWriteBits 0x038 v)

/-- An instruction's bits from a table row's width and number. The table gives a command row its
32-bit word and a host-write row its 16-bit offset; the value's bits, numbered on from the offset,
are those above (log 9). -/
def tablePacket (nbits w : Nat) : Packet :=
  if nbits = 16 ∨ 32 < nbits then .bus (BitVec.ofNat 48 w) else .cmd (BitVec.ofNat 32 w)

/-- The instruction the decoder reads from a table row's bits; none where it refuses. -/
def decodeTableWord (nbits w : Nat) : Option Instr :=
  match decode (tablePacket nbits w) with
  | .ok i => some i
  | .error _ => none

end Sys2Proof
end

