-- ==== Sys2Proof/Machine/Tables.lean ====
section
/-! DEFINITION. The fixed tables of the block: the default parameters (spec/00_scope.md R8), the
default URI_TABLE (spec/30_encoding.md R116), the ACK literal (R99) and the error codes
(spec/60_exceptions.md R300). -/

namespace Sys2Proof.Machine

/-- The ASCII bytes of a quoted string (00_scope.md R10). -/
def ascii (s : String) : List Byte :=
  s.toList.map fun c => BitVec.ofNat 8 c.toNat

/-- The default URI_TABLE, by code (30_encoding.md R116). -/
def defaultUriTable : List (List Byte) :=
  [ ascii "",                            -- 0x00
    ascii "http://www.",                 -- 0x01
    ascii "https://www.",                -- 0x02
    ascii "http://",                     -- 0x03
    ascii "https://",                    -- 0x04
    ascii "tel:",                        -- 0x05
    ascii "mailto:",                     -- 0x06
    ascii "ftp://anonymous:anonymous@",  -- 0x07
    ascii "ftp://ftp.",                  -- 0x08
    ascii "ftps://",                     -- 0x09
    ascii "sftp://",                     -- 0x0A
    ascii "smb://",                      -- 0x0B
    ascii "nfs://",                      -- 0x0C
    ascii "ftp://",                      -- 0x0D
    ascii "dav://",                      -- 0x0E
    ascii "news:",                       -- 0x0F
    ascii "telnet://",                   -- 0x10
    ascii "imap:",                       -- 0x11
    ascii "rtsp://",                     -- 0x12
    ascii "urn:",                        -- 0x13
    ascii "pop:",                        -- 0x14
    ascii "sip:",                        -- 0x15
    ascii "sips:",                       -- 0x16
    ascii "tftp:",                       -- 0x17
    ascii "btspp://",                    -- 0x18
    ascii "btl2cap://",                  -- 0x19
    ascii "btgoep://",                   -- 0x1A
    ascii "tcpobex://",                  -- 0x1B
    ascii "irdaobex://",                 -- 0x1C
    ascii "file://",                     -- 0x1D
    ascii "urn:epc:id:",                 -- 0x1E
    ascii "urn:epc:tag:",                -- 0x1F
    ascii "urn:epc:pat:",                -- 0x20
    ascii "urn:epc:raw:",                -- 0x21
    ascii "urn:epc:",                    -- 0x22
    ascii "urn:nfc:" ]                   -- 0x23

/-- The parameters at this spec's values (00_scope.md R8). FNC_BASE and CARD_BLOCKS are left OPEN
(92_eei_decisions.md D63, D64): their values here are the model's (log 21). -/
def defaultParams : Params :=
  { inDepth := 16, outCap := 4096, uriTable := defaultUriTable, fncBase := 0, cardBlocks := 0 }

/-- The ACK frame literal `00 00 FF 00 FF 00` (30_encoding.md R99). -/
def ackPattern : List Byte :=
  [0x00, 0x00, 0xFF, 0x00, 0xFF, 0x00]

end Sys2Proof.Machine
end

