-- ==== Sys2Proof/Machine/State.lean ====
section
/-! DEFINITION. The state of one FNC block (spec/10_state.md R20), plain data, with the state after
reset (spec/70_reset_and_hazards.md R340, R341), the memory that holds OUT, and the reasons a step
can stop. -/

namespace Sys2Proof.Machine

/-- OUT, the output array (10_state.md R44), as (window offset, byte) pairs. -/
abbrev Memory := List Host.Cell

/-- The canonical form: addresses strictly rising. An unlisted address reads as no value, so no
listed pair equals what an unlisted address reads as. -/
abbrev Memory.wf (m : Memory) : Prop :=
  (m.map Prod.fst).Pairwise (· < ·)

/-- The error codes by name (60_exceptions.md R300). -/
inductive ErrCode where
  | illegalOp
  | inOverflow
  | outOverflow
  | hostAbort
  | frmBadPreamble
  | frmBadStart
  | frmBadLcs
  | frmBadLen
  | frmBadTfi
  | frmBadEcho
  | frmBadDcs
  | frmBadPostamble
  | frmTruncated
  | encEmpty
  | encTooLong
  | ackMismatch
  | ackTruncated
  | tlvBadTag
  | tlvTruncated
  | tlvUnterminated
  | ndefTruncated
  | ndefEncTruncated
  deriving DecidableEq, Repr

/-- FRM_ENC's working fields (41_frame.md R170). -/
structure FrmEncW where
  n : Nat
  sum : Byte
  buf : List Byte
  deriving DecidableEq, Repr

/-- FRM_DEC's phases (41_frame.md R178). -/
inductive FrmDecPhase where
  | hdr
  | pay
  | dcs
  | post
  deriving DecidableEq, Repr

/-- FRM_DEC's working fields (41_frame.md R178). -/
structure FrmDecW where
  ph : FrmDecPhase
  i : Nat
  len : Byte
  sum : Byte
  exp : Byte
  rem : Nat
  deriving DecidableEq, Repr

/-- The record sub-machine's phases: the wire field the next byte belongs to (42_ndef.md R210). -/
inductive RecPhase where
  | hdr
  | tlen
  | plen
  | idlen
  | type
  | id
  | pay
  deriving DecidableEq, Repr

/-- The record sub-machine's state `W.r` (42_ndef.md R210). -/
structure RecW where
  ph : RecPhase
  flags : Byte
  tlen : Byte
  plen : Word
  idlen : Byte
  k : Nat
  cnt : Word
  deriving DecidableEq, Repr

/-- NDEF_ENC's phases: the RD field the next byte belongs to (42_ndef.md R235). -/
inductive EncPhase where
  | flg
  | tl
  | idl
  | pl
  | type
  | id
  | pay
  deriving DecidableEq, Repr

/-- NDEF_ENC's working state `W.e` (42_ndef.md R235). -/
structure EncW where
  ph : EncPhase
  flags : Byte
  tlen : Byte
  idlen : Byte
  plen : Word
  k : Nat
  cnt : Word
  deriving DecidableEq, Repr

/-- TLV_PARSE's phases (44_tlv.md R270). -/
inductive TlvPhase where
  | tag
  | nlen
  | l0
  | lx1
  | lx2
  | pval
  | nval
  | nskip
  deriving DecidableEq, Repr

/-- TLV_PARSE's own working state `W.t` (44_tlv.md R270). -/
structure TlvW where
  ph : TlvPhase
  tag : Byte
  hi : Byte
  rem : BitVec 16
  deriving DecidableEq, Repr

/-- URI_EXP's phases (43_uri.md R250). -/
inductive UriPhase where
  | code
  | suf
  deriving DecidableEq, Repr

/-- URI_CMP's working state `W.c` (43_uri.md R260). -/
structure CmpW where
  buf : List Byte
  long : Bool
  deriving DecidableEq, Repr

/-- The fields of the active command (10_state.md R46): which command it is, with its own fields. -/
inductive CmdWork where
  | frmEnc (x : FrmEncW)
  | frmDec (x : FrmDecW)
  | ackChk (i : Nat)
  | ndefDec (r : RecW)
  | ndefEnc (e : EncW)
  | tlvParse (t : TlvW) (r : RecW)
  | uriExp (ph : UriPhase)
  | uriCmp (c : CmpW)
  deriving DecidableEq, Repr

/-- The working state W (10_state.md R46): the common fields and the active command's own. -/
structure Work where
  out : List Byte
  msgs : Word
  recs : Word
  res : BitVec 9
  echo : Byte
  cmd : CmdWork
  deriving DecidableEq, Repr

/-- The command status `opst` (10_state.md R41). W is "defined only while `opst = ACTIVE`"
(R46), so ACTIVE carries it. -/
inductive OpSt where
  | idle
  | active (w : Work)
  | doneOk
  | doneErr
  deriving DecidableEq, Repr

/-- The state of the block (10_state.md R20), its parameters, and the model's own fields (`host`,
`sched`, `readLog`, `draws`). -/
structure State where
  /-- The configuration (00_scope.md R8); no step writes it. -/
  params : Params
  opst : OpSt
  fifo : List Entry
  /-- OUT (10_state.md R44): what is listed was copied there at a completion. -/
  out : Memory
  lastOp : Byte
  /-- STICKY[2:0]: CMD_REJ, IN_DROP, BAD_ACC from bit 0 up (10_state.md R28). -/
  sticky : BitVec 3
  errCode : Byte
  errHost : Byte
  errPos : Word
  inPos : Word
  outLen : Word
  reqCode : Byte
  respCode : Byte
  msgCount : Word
  recCount : Word
  /-- RESULT[8:0]: CODE in bits 7..0, FLAG in bit 8 (10_state.md R39). -/
  result : BitVec 9
  /-- The model's own: the host's accesses still to come, oldest first. -/
  host : List HostEvent
  /-- The model's own: the agents that move next; empty where the interleaving is free. -/
  sched : List Agent
  /-- The model's own: the values BusRead returned to the host, oldest first. -/
  readLog : List Word
  /-- The model's own: how many free values have been drawn. -/
  draws : Nat
  deriving DecidableEq, Repr

/-- Why the machine stops. The spec has no stopping fault: an error is a completion (60_exceptions.md
R325), a next state. -/
inductive Fault where
  /-- Raised by the engine's turn if the active command's opcode were unassigned. No state holds such
  a command (log 12): safe. -/
  | unassignedActiveOpcode (op : Byte)
  deriving DecidableEq, Repr

/-- Why the model gives an event no meaning. -/
inductive Refusal where
  /-- Raised by `exec` for an instruction without a meaning: none is left. Safe. -/
  | notModelled (mnemonic : String)
  /-- Raised by the host's turn on a transfer that is not 32 bits wide: "A model that meets a narrower
  or wider access has no meaning for it and must refuse it" (20_memory.md R60). Safe. -/
  | accessWidth (bits : Nat)
  deriving DecidableEq, Repr

/-- The state after hardware reset with the parameters p (70_reset_and_hazards.md R340, R341). -/
def State.resetWith (p : Params) : State :=
  { params := p
    opst := .idle
    fifo := []
    out := []
    lastOp := 0x00
    sticky := 0
    errCode := 0x00
    errHost := 0x00
    errPos := 0
    inPos := 0
    outLen := 0
    reqCode := 0x00
    respCode := 0x00
    msgCount := 0
    recCount := 0
    result := 0
    host := []
    sched := []
    readLog := []
    draws := 0 }

/-- The machine right after reset, with this spec's parameter values (00_scope.md R8). -/
def State.reset : State :=
  State.resetWith defaultParams

end Sys2Proof.Machine
end

