-- ==== Sys2Proof/Machine/Flags.lean ====
section
/-! DEFINITION. The flags and checksums of the block: STICKY bits and STATUS fields
(spec/10_state.md R27, R28, R41), the NDEF header flags (spec/30_encoding.md R106), and the frame
checksums (spec/30_encoding.md R95, R97). -/

namespace Sys2Proof.Machine

/-- STICKY.CMD_REJ, bit 0 (10_state.md R28). -/
def cmdRej : BitVec 3 := 0b001

/-- STICKY.IN_DROP, bit 1 (10_state.md R28). -/
def inDrop : BitVec 3 := 0b010

/-- STICKY.BAD_ACC, bit 2 (10_state.md R28). -/
def badAcc : BitVec 3 := 0b100

/-- STATUS.BUSY, bit 0: 1 while ACTIVE (10_state.md R41). -/
def OpSt.busy : OpSt → BitVec 1
  | .idle => 0
  | .active _ => 1
  | .doneOk => 0
  | .doneErr => 0

/-- STATUS.DONE, bit 1: 1 while DONE_OK or DONE_ERR (10_state.md R41). -/
def OpSt.done : OpSt → BitVec 1
  | .idle => 0
  | .active _ => 0
  | .doneOk => 1
  | .doneErr => 1

/-- STATUS.ERR, bit 2: 1 while DONE_ERR (10_state.md R41). -/
def OpSt.err : OpSt → BitVec 1
  | .idle => 0
  | .active _ => 0
  | .doneOk => 0
  | .doneErr => 1

/-- STATUS.IN_LEVEL, the number of entries of every kind (10_state.md R27). -/
def State.inLevel (s : State) : Byte :=
  BitVec.ofNat 8 s.fifo.length

/-- STATUS.IN_FREE = IN_DEPTH - |fifo| (10_state.md R27). -/
def State.inFree (s : State) : Byte :=
  BitVec.ofNat 8 (s.params.inDepth - s.fifo.length)

/-- STATUS (10_state.md R27): reserved, IN_FREE, IN_LEVEL, reserved, ERR, DONE, BUSY from bit 31 down. -/
def State.status (s : State) : Word :=
  (0 : BitVec 8) ++ s.inFree ++ s.inLevel ++ (0 : BitVec 5) ++ s.opst.err ++ s.opst.done ++ s.opst.busy

/-- ME, message-end: bit 6 of the header byte (30_encoding.md R106). -/
def flagME (flags : Byte) : Bool :=
  flags.getLsbD 6

/-- SR, short-record: bit 4 of the header byte (30_encoding.md R106). -/
def flagSR (flags : Byte) : Bool :=
  flags.getLsbD 4

/-- IL, id-length-present: bit 3 of the header byte (30_encoding.md R106). -/
def flagIL (flags : Byte) : Bool :=
  flags.getLsbD 3

/-- `(256 - x) mod 256`, the byte that brings x to 0 mod 256 (00_scope.md R11). -/
def checksumOf (x : Byte) : Byte :=
  BitVec.ofNat 8 ((256 - x.toNat) % 256)

/-- The running byte sum `(sum + b) mod 256` (41_frame.md R172, R182). -/
def sumStep (sum b : Byte) : Byte :=
  BitVec.ofNat 8 ((sum.toNat + b.toNat) % 256)

/-- Whether two bytes sum to 0 mod 256, the frame's checksum test (30_encoding.md R97). -/
def sumsToZero (a b : Byte) : Bool :=
  (a.toNat + b.toNat) % 256 == 0

end Sys2Proof.Machine
end

