-- ==== Sys2Proof/Machine/Operands.lean ====
section
/-! DEFINITION. The operand forms: big-endian fields (spec/00_scope.md R10, spec/20_memory.md R67), the
fields of a written value (spec/30_encoding.md R93), RD and wire headers (spec/30_encoding.md R112,
spec/42_ndef.md R237), the host-to-device frame (spec/30_encoding.md R94), the URI table's two lookups
(spec/43_uri.md R251, R261). -/

namespace Sys2Proof.Machine

/-- `BE32(v)`, most significant byte first (00_scope.md R10). -/
def be32 (v : Word) : List Byte :=
  [v.extractLsb' 24 8, v.extractLsb' 16 8, v.extractLsb' 8 8, v.extractLsb' 0 8]

/-- `((acc << 8) | b) mod 2^32`: one more byte of a big-endian field (42_ndef.md R212, R236). -/
def be32Step (acc : Word) (b : Byte) : Word :=
  (acc <<< 8) ||| b.setWidth 32

/-- The big-endian 16-bit value `hi * 256 + lo` (44_tlv.md R274). -/
def be16 (hi lo : Byte) : BitVec 16 :=
  BitVec.ofNat 16 (hi.toNat * 256 + lo.toNat)

/-- The byte `v[7:0]` of a written value (30_encoding.md R93). -/
def byteOf (v : Word) : Byte :=
  v.extractLsb' 0 8

/-- The bits `v[2:0]` of a written value (10_state.md R28). -/
def stickyBitsOf (v : Word) : BitVec 3 :=
  v.extractLsb' 0 3

/-- The entry an IN_END write pushes: `End` for 0, else `Abort(v[7:0])` (40_host_actions.md R145). -/
def endEntry (v : Word) : Entry :=
  if byteOf v = 0 then .endMark else .abort (byteOf v)

/-- The 7-byte RD header FLAGS, TYPE_LEN, ID_LEN, BE32 PAYLOAD_LEN (30_encoding.md R112). -/
def rdHeader (flags tlen idlen : Byte) (plen : Word) : List Byte :=
  [flags, tlen, idlen] ++ be32 plen

/-- `SR'`: short exactly when the payload length is below 255 (30_encoding.md R110). -/
def srOf (plen : Word) : Bool :=
  decide (plen.toNat < 255)

/-- `IL'`: present exactly when the id is not empty (30_encoding.md R111). -/
def ilOf (idlen : Byte) : Bool :=
  idlen != 0

/-- A flag at bit position n of a byte. -/
def bitAt (f : Bool) (n : Nat) : Byte :=
  if f then (1 : Byte) <<< n else 0

/-- The wire header byte: `(FLAGS & 0xE7) | (SR' << 4) | (IL' << 3)` (42_ndef.md R237). -/
def wireFlags (flags idlen : Byte) (plen : Word) : Byte :=
  (flags &&& 0xE7) ||| bitAt (srOf plen) 4 ||| bitAt (ilOf idlen) 3

/-- The wire header of a record as the encoder emits it (42_ndef.md R237). -/
def wireHeader (flags tlen idlen : Byte) (plen : Word) : List Byte :=
  [wireFlags flags idlen plen, tlen]
    ++ (if srOf plen then [plen.extractLsb' 0 8] else be32 plen)
    ++ (if ilOf idlen then [idlen] else [])

/-- LEN of a host-to-device frame with m payload bytes (30_encoding.md R95). -/
def frameLen (m : Nat) : Byte :=
  BitVec.ofNat 8 (m + 1)

/-- The host-to-device frame around a payload of n bytes whose byte sum is `sum` (41_frame.md R173). -/
def hostFrame (n : Nat) (sum : Byte) (payload : List Byte) : List Byte :=
  [0x00, 0x00, 0xFF, frameLen n, checksumOf (frameLen n), 0xD4]
    ++ payload ++ [checksumOf (sumStep 0xD4 sum), 0x00]

/-- `known(c)`: c is in the domain of URI_TABLE (43_uri.md R251). -/
def uriKnown (p : Params) (c : Byte) : Bool :=
  decide (c.toNat < p.uriTable.length)

/-- `prefix_of(c)`: the table's string, or empty (43_uri.md R251). -/
def prefixOf (p : Params) (c : Byte) : List Byte :=
  p.uriTable[c.toNat]?.getD []

/-- `URI_MAXP`: the length of the longest string of URI_TABLE (00_scope.md R8). -/
def uriMaxP (p : Params) : Nat :=
  p.uriTable.foldr (fun str n => max str.length n) 0

/-- The least code whose string is str, if any (43_uri.md R261). -/
def codeOf (p : Params) (str : List Byte) : Option Nat :=
  p.uriTable.findIdx? fun t => t == str

/-- A 9-bit RESULT: FLAG above CODE (10_state.md R39). -/
def resultOf (flag : Bool) (code : Byte) : BitVec 9 :=
  BitVec.ofBool flag ++ code

end Sys2Proof.Machine
end

