-- ==== Sys2Proof/Machine/Ops.lean ====
section
/-! DEFINITION. The shared operations: OUT's memory, `Append`, `Succeed`, `Fail`, `Push`, START,
`Reset` and the engine step (spec/40_host_actions.md, spec/60_exceptions.md R310,
spec/70_reset_and_hazards.md R340). -/

namespace Sys2Proof.Machine

/-! OUT's memory -/

/-- Read one byte; none where nothing is listed: the contents are then unspecified (10_state.md R40). -/
def Memory.read : Memory → Nat → Option Byte
  | [], _ => none
  | (x, c) :: m, a => if x = a then some c else Memory.read m a

/-- Write one byte, keeping addresses strictly rising. -/
def Memory.write : Memory → Nat → Byte → Memory
  | [], a, b => [(a, b)]
  | (x, c) :: m, a, b =>
    if a < x then (a, b) :: (x, c) :: m
    else if a = x then (a, b) :: m
    else (x, c) :: Memory.write m a b

/-- Write a run of bytes from an address up. -/
def Memory.writeBytes : Memory → Nat → List Byte → Memory
  | m, _, [] => m
  | m, a, b :: bs => Memory.writeBytes (Memory.write m a b) (a + 1) bs

/-- The window offset of OUT[0] (10_state.md R40). -/
def outBase : Nat := 0x1000

/-! Errors and completion -/

/-- ERR.CODE of an error (60_exceptions.md R300). -/
def ErrCode.code : ErrCode → Byte
  | .illegalOp => 0x01
  | .inOverflow => 0x02
  | .outOverflow => 0x03
  | .hostAbort => 0x04
  | .frmBadPreamble => 0x10
  | .frmBadStart => 0x11
  | .frmBadLcs => 0x12
  | .frmBadLen => 0x13
  | .frmBadTfi => 0x14
  | .frmBadEcho => 0x15
  | .frmBadDcs => 0x16
  | .frmBadPostamble => 0x17
  | .frmTruncated => 0x18
  | .encEmpty => 0x20
  | .encTooLong => 0x21
  | .ackMismatch => 0x30
  | .ackTruncated => 0x31
  | .tlvBadTag => 0x40
  | .tlvTruncated => 0x41
  | .tlvUnterminated => 0x42
  | .ndefTruncated => 0x50
  | .ndefEncTruncated => 0x51

/-- ERR.HOST_CODE of an error: the abort code for HOST_ABORT, else 0 (10_state.md R31). -/
def hostCodeOf (e : ErrCode) (c : Byte) : Byte :=
  if e = .hostAbort then c else 0

/-- `Fail(code, c)`: the block's form of taking an exception (60_exceptions.md R310). -/
def State.fail (s : State) (e : ErrCode) (c : Byte) : State :=
  { s with
    errCode := e.code
    errHost := hostCodeOf e c
    errPos := s.inPos
    outLen := 0
    msgCount := 0
    recCount := 0
    result := 0
    respCode := 0
    opst := .doneErr
    fifo := [] }

/-- `Succeed()` (40_host_actions.md R153). -/
def State.succeed (s : State) (w : Work) : State :=
  { s with
    out := Memory.writeBytes s.out outBase w.out
    outLen := BitVec.ofNat 32 w.out.length
    msgCount := w.msgs
    recCount := w.recs
    result := w.res
    respCode := w.echo
    errCode := 0
    errHost := 0
    errPos := 0
    opst := .doneOk
    fifo := [] }

/-- `Reset()` (70_reset_and_hazards.md R340). The parameters, OUT and the model's own fields stay. -/
def State.softReset (s : State) : State :=
  { s with
    opst := .idle
    fifo := []
    lastOp := 0x00
    sticky := 0
    errCode := 0
    errHost := 0
    errPos := 0
    inPos := 0
    outLen := 0
    respCode := 0
    msgCount := 0
    recCount := 0
    result := 0
    reqCode := 0x00 }

/-- Set STICKY bits (10_state.md R28). -/
def State.setSticky (s : State) (bits : BitVec 3) : State :=
  { s with sticky := s.sticky ||| bits }

/-! START -/

/-- `RecInit()` (42_ndef.md R211). -/
def recInit : RecW :=
  { ph := .hdr, flags := 0, tlen := 0, plen := 0, idlen := 0, k := 0, cnt := 0 }

/-- `EncInit()` (42_ndef.md R235). -/
def encInit : EncW :=
  { ph := .flg, flags := 0, tlen := 0, idlen := 0, plen := 0, k := 0, cnt := 0 }

/-- `(REQ_CODE + 1) mod 256`, the echo FRM_DEC expects (41_frame.md R179). -/
def expectedEcho (req : Byte) : Byte :=
  BitVec.ofNat 8 ((req.toNat + 1) % 256)

/-- A command's own initialisation (40_host_actions.md R158). -/
def initCmd (req : Byte) : Command → CmdWork
  | .frmEnc => .frmEnc { n := 0, sum := 0, buf := [] }
  | .frmDec => .frmDec { ph := .hdr, i := 0, len := 0, sum := 0, exp := expectedEcho req, rem := 0 }
  | .ackChk => .ackChk 0
  | .ndefDec => .ndefDec recInit
  | .ndefEnc => .ndefEnc encInit
  | .tlvParse => .tlvParse { ph := .tag, tag := 0, hi := 0, rem := 0 } recInit
  | .uriExp => .uriExp .code
  | .uriCmp => .uriCmp { buf := [], long := false }

/-- `InitW(op)` (40_host_actions.md R158). -/
def initWork (req : Byte) (c : Command) : Work :=
  { out := [], msgs := 0, recs := 0, res := 0, echo := 0, cmd := initCmd req c }

/-- What an accepted START clears, with LAST_OP latched (40_host_actions.md R142). -/
def State.clearResults (s : State) (op : Byte) : State :=
  { s with
    lastOp := op
    outLen := 0
    msgCount := 0
    recCount := 0
    result := 0
    respCode := 0
    errCode := 0
    errHost := 0
    errPos := 0
    inPos := 0 }

/-- An accepted START of a command (40_host_actions.md R142). -/
def State.accept (s : State) (c : Command) : State :=
  { s.clearResults c.opcode with opst := .active (initWork s.reqCode c) }

/-- START with any opcode (40_host_actions.md R142). -/
def State.start (s : State) (op : Byte) : State :=
  match s.opst with
  | .active _ => s.setSticky cmdRej
  | _ =>
    match Command.ofOpcode op with
    | some c => s.accept c
    | none => (s.clearResults op).fail .illegalOp 0

/-! FIFO -/

/-- `Push(e)` (40_host_actions.md R144). -/
def State.push (s : State) (e : Entry) : State :=
  match s.opst with
  | .active _ =>
    if s.fifo.length = s.params.inDepth then s.fail .inOverflow 0
    else { s with fifo := s.fifo ++ [e] }
  | _ => s.setSticky inDrop

/-! The engine step -/

/-- Which command the working state belongs to. -/
def Work.command (w : Work) : Command :=
  match w.cmd with
  | .frmEnc _ => .frmEnc
  | .frmDec _ => .frmDec
  | .ackChk _ => .ackChk
  | .ndefDec _ => .ndefDec
  | .ndefEnc _ => .ndefEnc
  | .tlvParse _ _ => .tlvParse
  | .uriExp _ => .uriExp
  | .uriCmp _ => .uriCmp

/-- `W.op` (10_state.md R46). -/
def Work.op (w : Work) : Byte :=
  w.command.opcode

/-- How a command rule ends a step: it goes on, succeeds (FRM_ENC with a new REQ_CODE, 41_frame.md
R174), or fails. -/
inductive Verdict where
  | go (w : Work)
  | done (w : Work) (req : Option Byte)
  | bad (e : ErrCode)
  deriving DecidableEq, Repr

/-- `Append(s)`, then the rest of the rule; on capacity the rule stops with OUT_OVERFLOW
(40_host_actions.md R155). -/
def Work.emit (cap : Nat) (w : Work) (bytes : List Byte) (k : Work → Verdict) : Verdict :=
  if w.out.length + bytes.length > cap then .bad .outOverflow
  else k { w with out := w.out ++ bytes }

/-- Carry out a rule's verdict in the state. -/
def State.settle (s : State) : Verdict → State
  | .go w => { s with opst := .active w }
  | .done w none => s.succeed w
  | .done w (some q) => { s with reqCode := q }.succeed w
  | .bad e => s.fail e 0

/-- IN_POS counts a consumed Data entry before its byte is processed (40_host_actions.md R151). -/
def State.countByte (s : State) : State :=
  { s with inPos := s.inPos + 1 }

/-- `EngineStep()` of a command given by its OpByte and OpEnd (40_host_actions.md R150). With an empty
FIFO the step is not enabled and the command waits (R357). -/
def State.engineStep (s : State) (onByte : Byte → Verdict) (onEnd : Verdict) : State :=
  match s.fifo with
  | [] => s
  | .data b :: rest => ({ s with fifo := rest }.countByte).settle (onByte b)
  | .endMark :: rest => { s with fifo := rest }.settle onEnd
  | .abort c :: rest => { s with fifo := rest }.fail .hostAbort c

end Sys2Proof.Machine
end

