-- ==== Sys2Proof/Machine/Frame.lean ====
section
/-! DEFINITION. The frame unit: FRM_ENC, FRM_DEC, ACK_CHK (spec/41_frame.md). -/

namespace Sys2Proof.Machine

/-- `OpByte[FRM_ENC](b)` (41_frame.md R172). -/
def frmEncByte (w : Work) (x : FrmEncW) (b : Byte) : Verdict :=
  if x.n = 254 then .bad .encTooLong
  else .go { w with cmd := .frmEnc { n := x.n + 1, sum := sumStep x.sum b, buf := x.buf ++ [b] } }

/-- `OpEnd[FRM_ENC]()` (41_frame.md R173), with the REQ_CODE update of R174. -/
def frmEncEnd (cap : Nat) (w : Work) (x : FrmEncW) : Verdict :=
  if x.n = 0 then .bad .encEmpty
  else w.emit cap (hostFrame x.n x.sum x.buf) fun w => .done w x.buf.head?

/-- FRM_ENC: the engine's step of the active command. -/
def execFrmEnc (s : State) : Host.Outcome State Fault Refusal :=
  match s.opst with
  | .active w =>
    match w.cmd with
    | .frmEnc x => .next (s.engineStep (frmEncByte w x) (frmEncEnd s.params.outCap w x))
    | _ => .next s
  | _ => .next s

/-- FRM_DEC's working fields with the header index moved on. -/
def frmDecNext (w : Work) (x : FrmDecW) : Verdict :=
  .go { w with cmd := .frmDec { x with i := x.i + 1 } }

/-- FRM_DEC's phase after the header: PAY when data bytes remain, else DCS (41_frame.md R180). -/
def phaseAfterHeader (rem : Nat) : FrmDecPhase :=
  if rem > 0 then .pay else .dcs

/-- `OpByte[FRM_DEC](b)` in phase HDR (41_frame.md R180, R181). The index is 0 to 6; past it no check
is left. -/
def frmDecHdr (w : Work) (x : FrmDecW) (b : Byte) : Verdict :=
  match x.i with
  | 0 => if b ≠ 0x00 then .bad .frmBadPreamble else frmDecNext w x
  | 1 => if b ≠ 0x00 then .bad .frmBadStart else frmDecNext w x
  | 2 => if b ≠ 0xFF then .bad .frmBadStart else frmDecNext w x
  | 3 => frmDecNext w { x with len := b }
  | 4 =>
    if !sumsToZero x.len b then .bad .frmBadLcs
    else if x.len.toNat < 2 then .bad .frmBadLen
    else frmDecNext w x
  | 5 => if b ≠ 0xD5 then .bad .frmBadTfi else frmDecNext w { x with sum := 0xD5 }
  | 6 =>
    if b ≠ x.exp then .bad .frmBadEcho
    else .go { w with
      echo := b
      cmd := .frmDec { x with
        sum := sumStep x.sum b
        rem := x.len.toNat - 2
        ph := phaseAfterHeader (x.len.toNat - 2) } }
  | _ => .go w

/-- `OpByte[FRM_DEC](b)` in phase PAY (41_frame.md R182). -/
def frmDecPay (cap : Nat) (w : Work) (x : FrmDecW) (b : Byte) : Verdict :=
  w.emit cap [b] fun w =>
    .go { w with cmd := .frmDec { x with
      sum := sumStep x.sum b
      rem := x.rem - 1
      ph := if x.rem - 1 = 0 then .dcs else x.ph } }

/-- `OpByte[FRM_DEC](b)` (41_frame.md R180, R182, R183, R184). -/
def frmDecByte (cap : Nat) (w : Work) (x : FrmDecW) (b : Byte) : Verdict :=
  match x.ph with
  | .hdr => frmDecHdr w x b
  | .pay => frmDecPay cap w x b
  | .dcs =>
    if !sumsToZero x.sum b then .bad .frmBadDcs
    else .go { w with cmd := .frmDec { x with ph := .post } }
  | .post => if b ≠ 0x00 then .bad .frmBadPostamble else .done w none

/-- FRM_DEC: the engine's step of the active command. `End` fails in every phase (41_frame.md R185). -/
def execFrmDec (s : State) : Host.Outcome State Fault Refusal :=
  match s.opst with
  | .active w =>
    match w.cmd with
    | .frmDec x => .next (s.engineStep (frmDecByte s.params.outCap w x) (.bad .frmTruncated))
    | _ => .next s
  | _ => .next s

/-- `OpByte[ACK_CHK](b)` (41_frame.md R190). -/
def ackByte (w : Work) (i : Nat) (b : Byte) : Verdict :=
  if ackPattern[i]? ≠ some b then .bad .ackMismatch
  else if i + 1 = 6 then .done { w with cmd := .ackChk (i + 1) } none
  else .go { w with cmd := .ackChk (i + 1) }

/-- ACK_CHK: the engine's step of the active command. `End` fails (41_frame.md R191). -/
def execAckChk (s : State) : Host.Outcome State Fault Refusal :=
  match s.opst with
  | .active w =>
    match w.cmd with
    | .ackChk i => .next (s.engineStep (ackByte w i) (.bad .ackTruncated))
    | _ => .next s
  | _ => .next s

end Sys2Proof.Machine
end

