-- ==== Sys2Proof/Machine/HostWrite.lean ====
section
/-! DEFINITION. The six host writes with a side effect (spec/40_host_actions.md R142 to R147). -/

namespace Sys2Proof.Machine

/-- W_CMD: START with `v[7:0]` (40_host_actions.md R142). -/
def execWCmd (v : Word) (s : State) : Host.Outcome State Fault Refusal :=
  .next (s.start (opcodeOf v))

/-- W_CTRL: soft reset when `v[0] = 1` (40_host_actions.md R143). -/
def execWCtrl (v : Word) (s : State) : Host.Outcome State Fault Refusal :=
  .next (if v.getLsbD 0 then s.softReset else s)

/-- W_STICKY: write 1 to clear (40_host_actions.md R146). -/
def execWSticky (v : Word) (s : State) : Host.Outcome State Fault Refusal :=
  .next { s with sticky := s.sticky &&& ~~~ stickyBitsOf v }

/-- W_IN_DATA: push `Data(v[7:0])` (40_host_actions.md R144). -/
def execWInData (v : Word) (s : State) : Host.Outcome State Fault Refusal :=
  .next (s.push (.data (byteOf v)))

/-- W_IN_END: push `End` or `Abort(v[7:0])` (40_host_actions.md R145). -/
def execWInEnd (v : Word) (s : State) : Host.Outcome State Fault Refusal :=
  .next (s.push (endEntry v))

/-- W_REQ_CODE: store `v[7:0]`, or CMD_REJ while ACTIVE (40_host_actions.md R147). -/
def execWReqCode (v : Word) (s : State) : Host.Outcome State Fault Refusal :=
  match s.opst with
  | .active _ => .next (s.setSticky cmdRej)
  | _ => .next { s with reqCode := byteOf v }

end Sys2Proof.Machine
end

