-- ==== Sys2Proof/Machine/Ndef.lean ====
section
/-! DEFINITION. The record unit: the record sub-machine, NDEF_DEC and NDEF_ENC (spec/42_ndef.md). -/

namespace Sys2Proof.Machine

/-- What `RecByte` answers (42_ndef.md R212): MORE or MSG_DONE with the new working state, or an
`Append` that did not fit. -/
inductive RecOut where
  | more (w : Work) (r : RecW)
  | msgDone (w : Work) (r : RecW)
  | over
  deriving DecidableEq, Repr

/-- `Append` inside the sub-machine (42_ndef.md R212; 40_host_actions.md R155). -/
def recEmit (cap : Nat) (w : Work) (bytes : List Byte) (k : Work → RecOut) : RecOut :=
  if w.out.length + bytes.length > cap then .over
  else k { w with out := w.out ++ bytes }

/-- `RecordDone()` (42_ndef.md R215). -/
def recordDone (w : Work) (r : RecW) : RecOut :=
  if flagME r.flags then .msgDone { w with recs := w.recs + 1, msgs := w.msgs + 1 } recInit
  else .more { w with recs := w.recs + 1 } recInit

/-- `NextField(after)` (42_ndef.md R214). -/
def nextField (w : Work) (r : RecW) (after : RecPhase) : RecOut :=
  if after = .hdr ∧ r.tlen ≠ 0 then
    .more w { r with ph := .type, cnt := r.tlen.setWidth 32 }
  else if (after = .hdr ∨ after = .type) ∧ r.idlen ≠ 0 then
    .more w { r with ph := .id, cnt := r.idlen.setWidth 32 }
  else if (after = .hdr ∨ after = .type ∨ after = .id) ∧ r.plen ≠ 0 then
    .more w { r with ph := .pay, cnt := r.plen }
  else recordDone w r

/-- `HeaderDone()` (42_ndef.md R214). -/
def headerDone (cap : Nat) (w : Work) (r : RecW) : RecOut :=
  recEmit cap w (rdHeader r.flags r.tlen r.idlen r.plen) fun w => nextField w r .hdr

/-- `FieldByte(b)` (42_ndef.md R216). -/
def fieldByte (cap : Nat) (w : Work) (r : RecW) (b : Byte) : RecOut :=
  recEmit cap w [b] fun w =>
    if r.cnt - 1 = 0 then nextField w { r with cnt := r.cnt - 1 } r.ph
    else .more w { r with cnt := r.cnt - 1 }

/-- How many bytes the PL field has: SR selects 1 or 4 (42_ndef.md R212). -/
def plenBytes (flags : Byte) : Nat :=
  if flagSR flags then 1 else 4

/-- `RecByte(b)` in phase PLEN (42_ndef.md R212, R213). -/
def recPlen (cap : Nat) (w : Work) (r : RecW) (b : Byte) : RecOut :=
  let r' := { r with plen := be32Step r.plen b, k := r.k + 1 }
  if r'.k = plenBytes r.flags then
    if flagIL r.flags then .more w { r' with ph := .idlen }
    else headerDone cap w { r' with idlen := 0 }
  else .more w r'

/-- `RecByte(b)` (42_ndef.md R212). -/
def recByte (cap : Nat) (w : Work) (r : RecW) (b : Byte) : RecOut :=
  match r.ph with
  | .hdr => .more w { r with flags := b, ph := .tlen }
  | .tlen => .more w { r with tlen := b, plen := 0, k := 0, ph := .plen }
  | .plen => recPlen cap w r b
  | .idlen => headerDone cap w { r with idlen := b }
  | .type => fieldByte cap w r b
  | .id => fieldByte cap w r b
  | .pay => fieldByte cap w r b

/-- `OpByte[NDEF_DEC](b)` (42_ndef.md R230). -/
def ndefDecByte (cap : Nat) (w : Work) (r : RecW) (b : Byte) : Verdict :=
  match recByte cap w r b with
  | .more w r => .go { w with cmd := .ndefDec r }
  | .msgDone w r => .done { w with cmd := .ndefDec r } none
  | .over => .bad .outOverflow

/-- NDEF_DEC: the engine's step of the active command. `End` fails in every phase (42_ndef.md R231). -/
def execNdefDec (s : State) : Host.Outcome State Fault Refusal :=
  match s.opst with
  | .active w =>
    match w.cmd with
    | .ndefDec r => .next (s.engineStep (ndefDecByte s.params.outCap w r) (.bad .ndefTruncated))
    | _ => .next s
  | _ => .next s

/-- `EncRecordDone()` (42_ndef.md R240). -/
def encRecordDone (w : Work) (e : EncW) : Verdict :=
  if flagME e.flags then
    .done { w with recs := w.recs + 1, msgs := 1, cmd := .ndefEnc e } none
  else .go { w with recs := w.recs + 1, cmd := .ndefEnc encInit }

/-- `EncNext(after)` (42_ndef.md R236). -/
def encNext (w : Work) (e : EncW) (after : EncPhase) : Verdict :=
  if after = .flg ∧ e.tlen ≠ 0 then
    .go { w with cmd := .ndefEnc { e with ph := .type, cnt := e.tlen.setWidth 32 } }
  else if (after = .flg ∨ after = .type) ∧ e.idlen ≠ 0 then
    .go { w with cmd := .ndefEnc { e with ph := .id, cnt := e.idlen.setWidth 32 } }
  else if (after = .flg ∨ after = .type ∨ after = .id) ∧ e.plen ≠ 0 then
    .go { w with cmd := .ndefEnc { e with ph := .pay, cnt := e.plen } }
  else encRecordDone w e

/-- The PL phase of NDEF_ENC: at the fourth byte `EmitHeader()`, then the first non-empty field
(42_ndef.md R236, R237). -/
def encPlen (cap : Nat) (w : Work) (e : EncW) (b : Byte) : Verdict :=
  let e' := { e with plen := be32Step e.plen b, k := e.k + 1 }
  if e'.k = 4 then
    w.emit cap (wireHeader e'.flags e'.tlen e'.idlen e'.plen) fun w => encNext w e' .flg
  else .go { w with cmd := .ndefEnc e' }

/-- The TYPE, ID and PAY phases of NDEF_ENC (42_ndef.md R236). -/
def encField (cap : Nat) (w : Work) (e : EncW) (b : Byte) : Verdict :=
  w.emit cap [b] fun w =>
    if e.cnt - 1 = 0 then encNext w { e with cnt := e.cnt - 1 } e.ph
    else .go { w with cmd := .ndefEnc { e with cnt := e.cnt - 1 } }

/-- `OpByte[NDEF_ENC](b)` (42_ndef.md R236). -/
def ndefEncByte (cap : Nat) (w : Work) (e : EncW) (b : Byte) : Verdict :=
  match e.ph with
  | .flg => .go { w with cmd := .ndefEnc { e with flags := b, ph := .tl } }
  | .tl => .go { w with cmd := .ndefEnc { e with tlen := b, ph := .idl } }
  | .idl => .go { w with cmd := .ndefEnc { e with idlen := b, plen := 0, k := 0, ph := .pl } }
  | .pl => encPlen cap w e b
  | .type => encField cap w e b
  | .id => encField cap w e b
  | .pay => encField cap w e b

/-- NDEF_ENC: the engine's step of the active command. `End` fails in every phase (42_ndef.md R238). -/
def execNdefEnc (s : State) : Host.Outcome State Fault Refusal :=
  match s.opst with
  | .active w =>
    match w.cmd with
    | .ndefEnc e => .next (s.engineStep (ndefEncByte s.params.outCap w e) (.bad .ndefEncTruncated))
    | _ => .next s
  | _ => .next s

end Sys2Proof.Machine
end

