-- ==== Sys2Proof/Machine/Tlv.lean ====
section
/-! DEFINITION. The TLV unit: TLV_PARSE (spec/44_tlv.md). -/

namespace Sys2Proof.Machine

/-- Go on with new TLV and record states. -/
def tlvGo (w : Work) (t : TlvW) (r : RecW) : Verdict :=
  .go { w with cmd := .tlvParse t r }

/-- `StartValue(L)` (44_tlv.md R271, R275, R278). -/
def startValue (w : Work) (t : TlvW) (r : RecW) (len : BitVec 16) : Verdict :=
  if t.tag = 0xFD then
    tlvGo w { t with rem := len, ph := if len ≠ 0 then .pval else .tag } r
  else if len = 0 then .bad .ndefTruncated
  else tlvGo w { t with rem := len, ph := .nval } recInit

/-- The TAG phase (44_tlv.md R271, R272). -/
def tlvTag (w : Work) (t : TlvW) (r : RecW) (b : Byte) : Verdict :=
  if b = 0x00 then tlvGo w { t with ph := .nlen } r
  else if b = 0xFE then .done w none
  else if b = 0x03 ∨ b = 0xFD then tlvGo w { t with tag := b, ph := .l0 } r
  else .bad .tlvBadTag

/-- The PVAL and NSKIP phases: one value byte is discarded (44_tlv.md R275, R277). -/
def tlvSkip (w : Work) (t : TlvW) (r : RecW) : Verdict :=
  tlvGo w { t with rem := t.rem - 1, ph := if t.rem - 1 = 0 then .tag else t.ph } r

/-- The NVAL phase: one value byte goes to the record sub-machine (44_tlv.md R271, R276). -/
def tlvValue (cap : Nat) (w : Work) (t : TlvW) (r : RecW) (b : Byte) : Verdict :=
  match recByte cap w r b with
  | .over => .bad .outOverflow
  | .msgDone w r =>
    tlvGo w { t with rem := t.rem - 1, ph := if t.rem - 1 ≠ 0 then .nskip else .tag } r
  | .more w r =>
    if t.rem - 1 = 0 then .bad .ndefTruncated
    else tlvGo w { t with rem := t.rem - 1 } r

/-- `OpByte[TLV_PARSE](b)` (44_tlv.md R271). -/
def tlvByte (cap : Nat) (w : Work) (t : TlvW) (r : RecW) (b : Byte) : Verdict :=
  match t.ph with
  | .tag => tlvTag w t r b
  | .nlen => tlvGo w { t with ph := .tag } r
  | .l0 =>
    if b = 0xFF then tlvGo w { t with ph := .lx1 } r
    else startValue w t r (b.setWidth 16)
  | .lx1 => tlvGo w { t with hi := b, ph := .lx2 } r
  | .lx2 => startValue w t r (be16 t.hi b)
  | .pval => tlvSkip w t r
  | .nval => tlvValue cap w t r b
  | .nskip => tlvSkip w t r

/-- `OpEnd[TLV_PARSE]()` (44_tlv.md R280). -/
def tlvEnd (t : TlvW) : Verdict :=
  if t.ph = .tag then .bad .tlvUnterminated else .bad .tlvTruncated

/-- TLV_PARSE: the engine's step of the active command. -/
def execTlvParse (s : State) : Host.Outcome State Fault Refusal :=
  match s.opst with
  | .active w =>
    match w.cmd with
    | .tlvParse t r => .next (s.engineStep (tlvByte s.params.outCap w t r) (tlvEnd t))
    | _ => .next s
  | _ => .next s

end Sys2Proof.Machine
end

