-- ==== Sys2Proof/Machine/Uri.lean ====
section
/-! DEFINITION. The URI unit: URI_EXP and URI_CMP (spec/43_uri.md). -/

namespace Sys2Proof.Machine

/-- `OpByte[URI_EXP](b)` (43_uri.md R251). -/
def uriExpByte (p : Params) (w : Work) (ph : UriPhase) (b : Byte) : Verdict :=
  match ph with
  | .code =>
    { w with res := resultOf (uriKnown p b) b }.emit p.outCap (prefixOf p b) fun w =>
      .go { w with cmd := .uriExp .suf }
  | .suf => w.emit p.outCap [b] fun w => .go w

/-- URI_EXP: the engine's step of the active command. `End` succeeds in either phase (43_uri.md R253). -/
def execUriExp (s : State) : Host.Outcome State Fault Refusal :=
  match s.opst with
  | .active w =>
    match w.cmd with
    | .uriExp ph => .next (s.engineStep (uriExpByte s.params w ph) (.done w none))
    | _ => .next s
  | _ => .next s

/-- `OpByte[URI_CMP](b)` (43_uri.md R261). -/
def uriCmpByte (p : Params) (w : Work) (c : CmpW) (b : Byte) : Verdict :=
  if c.buf.length < uriMaxP p then .go { w with cmd := .uriCmp { c with buf := c.buf ++ [b] } }
  else .go { w with cmd := .uriCmp { c with long := true } }

/-- RESULT of URI_CMP: the least matching code with FLAG, else 0 (43_uri.md R261, R262). -/
def uriCmpResult (p : Params) (c : CmpW) : BitVec 9 :=
  if c.long then 0
  else match codeOf p c.buf with
    | some c0 => resultOf true (BitVec.ofNat 8 c0)
    | none => 0

/-- URI_CMP: the engine's step of the active command (43_uri.md R261). -/
def execUriCmp (s : State) : Host.Outcome State Fault Refusal :=
  match s.opst with
  | .active w =>
    match w.cmd with
    | .uriCmp c =>
      .next (s.engineStep (uriCmpByte s.params w c) (.done { w with res := uriCmpResult s.params c } none))
    | _ => .next s
  | _ => .next s

end Sys2Proof.Machine
end

