-- ==== Sys2Proof/Machine/Dispatch.lean ====
section
/-! DEFINITION. The dispatch: one arm per instruction. -/

namespace Sys2Proof.Machine

def exec (i : Instr) (s : State) : Host.Outcome State Fault Refusal :=
  match i with
  | .frmEnc => Sys2Proof.Machine.execFrmEnc s
  | .frmDec => Sys2Proof.Machine.execFrmDec s
  | .ackChk => Sys2Proof.Machine.execAckChk s
  | .ndefDec => Sys2Proof.Machine.execNdefDec s
  | .ndefEnc => Sys2Proof.Machine.execNdefEnc s
  | .tlvParse => Sys2Proof.Machine.execTlvParse s
  | .uriExp => Sys2Proof.Machine.execUriExp s
  | .uriCmp => Sys2Proof.Machine.execUriCmp s
  | .wCmd v => Sys2Proof.Machine.execWCmd v s
  | .wCtrl v => Sys2Proof.Machine.execWCtrl v s
  | .wSticky v => Sys2Proof.Machine.execWSticky v s
  | .wInData v => Sys2Proof.Machine.execWInData v s
  | .wInEnd v => Sys2Proof.Machine.execWInEnd v s
  | .wReqCode v => Sys2Proof.Machine.execWReqCode v s

end Sys2Proof.Machine
end

