-- ==== Sys2Proof/Machine/Bus.lean ====
section
/-! DEFINITION. What a step is: the host's turn (one bus access, spec/40_host_actions.md R140, R141,
R148, R149), the engine's turn (R150), the interleaving (spec/20_memory.md R71), and where an
instruction is placed for the next step to run. -/

namespace Sys2Proof.Machine

/-! Reads -/

/-- The value a register reads as (10_state.md R21 to R39; 40_host_actions.md R149). -/
def State.readReg (s : State) : Reg → Word
  | .id => 0x464E4342
  | .version => 0x00010000
  | .paramInDepth => (BitVec.ofNat 8 s.params.inDepth).setWidth 32
  | .paramOutCap => (BitVec.ofNat 16 s.params.outCap).setWidth 32
  | .cmd => s.lastOp.setWidth 32
  | .ctrl => 0
  | .status => s.status
  | .sticky => s.sticky.setWidth 32
  | .inData => 0
  | .inEnd => 0
  | .err => (s.errHost ++ s.errCode).setWidth 32
  | .errPos => s.errPos
  | .inPos => s.inPos
  | .outLen => s.outLen
  | .reqCode => s.reqCode.setWidth 32
  | .respCode => s.respCode.setWidth 32
  | .msgCount => s.msgCount
  | .recCount => s.recCount
  | .result => s.result.setWidth 32

/-- The byte OUT[i] where it has a defined value: DONE_OK and i < OUT_LEN (10_state.md R40). -/
def State.outByte (s : State) (i : Nat) : Option Byte :=
  if s.opst = .doneOk ∧ i < s.outLen.toNat then Memory.read s.out (outBase + i) else none

/-- The byte a read returns for OUT[i]: its value, or the free byte numbered n (40_host_actions.md R148). -/
def State.readOutByte (s : State) (i n : Nat) : Byte :=
  (s.outByte i).getD (Config.unspecifiedByte n)

/-- `ReadOUT` of the word at OUT[i .. i+3], packed little-endian (40_host_actions.md R148; 20_memory.md
R66). -/
def State.readOutWord (s : State) (i : Nat) : Word :=
  s.readOutByte (i + 3) (s.draws + 3) ++ s.readOutByte (i + 2) (s.draws + 2)
    ++ s.readOutByte (i + 1) (s.draws + 1) ++ s.readOutByte i s.draws

/-- Give the host a value. -/
def State.returnValue (s : State) (v : Word) : State :=
  { s with readLog := s.readLog ++ [v] }

/-- Whether an offset lies in the OUT_BUF window (10_state.md R40). -/
def State.inOutBuf (s : State) (off : Offset) : Bool :=
  decide (outBase ≤ off.toNat ∧ off.toNat < outBase + s.params.outCap)

/-- `BusRead(off)` (40_host_actions.md R141). An OUT_BUF read uses up the free bytes of its word. -/
def State.busRead (s : State) (off : Offset) : State :=
  if aligned off then
    match Reg.ofOffset off with
    | some r => s.returnValue (s.readReg r)
    | none =>
      if s.inOutBuf off then
        { s.returnValue (s.readOutWord (off.toNat - outBase)) with draws := s.draws + 4 }
      else (s.setSticky badAcc).returnValue 0
  else (s.setSticky badAcc).returnValue 0

/-! The window in the platform's address space -/

/-- The platform address of an offset: FNC_BASE is "the platform address of offset 0"
(92_eei_decisions.md D63; 20_memory.md R65). -/
def windowAddress (p : Params) (off : Offset) : Nat :=
  p.fncBase + off.toNat

/-- The offset of a platform address, none outside the 64 KiB window (20_memory.md R60, R65). -/
def windowOffset (p : Params) (addr : Nat) : Option Offset :=
  if p.fncBase ≤ addr ∧ addr < p.fncBase + 0x10000 then some (BitVec.ofNat 16 (addr - p.fncBase)) else none

/-- A platform read of an address, as the block meets it: `BusRead` of its offset, nothing outside the
window. -/
def platformRead (p : Params) (addr : Nat) : Option HostEvent :=
  (windowOffset p addr).map .read

/-- A platform write of an address, as the block meets it: `BusWrite` of its offset, nothing outside the
window. -/
def platformWrite (p : Params) (addr : Nat) (v : Word) : Option HostEvent :=
  (windowOffset p addr).map fun off => .write off v

/-! Turns -/

/-- One event of the host side. A write that decodes to no host write only sets BAD_ACC
(40_host_actions.md R140). -/
def hostEvent (s : State) : HostEvent → Host.Outcome State Fault Refusal
  | .read off => .next (s.busRead off)
  | .write off v =>
    match decode (.bus (busWriteBits off v)) with
    | .ok i => exec i s
    | .error _ => .next (s.setSticky badAcc)
  | .otherWidth bits _ => .refused (.accessWidth bits)
  | .hardReset => .next s.softReset

/-- The host's turn: its oldest access; nothing when it has none. -/
def hostTurn (s : State) : Host.Outcome State Fault Refusal :=
  match s.host with
  | [] => .next s
  | ev :: rest => hostEvent { s with host := rest } ev

/-- The engine's turn: the active command, decoded from its opcode, runs one step
(40_host_actions.md R150, R159). While no command is active it has nothing to do. -/
def engineTurn (s : State) : Host.Outcome State Fault Refusal :=
  match s.opst with
  | .active w =>
    match decode (.cmd (w.op.setWidth 32)) with
    | .ok i => exec i s
    | .error _ => .fault (.unassignedActiveOpcode w.op)
  | _ => .next s

/-- The engine step is enabled exactly when ACTIVE with a non-empty FIFO (40_host_actions.md R150). -/
def State.engineEnabled (s : State) : Bool :=
  match s.opst with
  | .active _ => !s.fifo.isEmpty
  | _ => false

/-- Who moves next, and the state with that choice used up. A forced schedule decides first; else the
only enabled agent moves, and where both are enabled the choice is free (20_memory.md R71). -/
def State.pickAgent (s : State) : Option Agent × State :=
  match s.sched with
  | a :: rest => (some a, { s with sched := rest })
  | [] =>
    match s.host, s.engineEnabled with
    | [], false => (none, s)
    | [], true => (some .engine, s)
    | _ :: _, false => (some .host, s)
    | _ :: _, true =>
      (some (if Config.engineFirst s.draws then .engine else .host), { s with draws := s.draws + 1 })

/-- One atomic step. Where neither agent can move the block waits, which is no fault
(60_exceptions.md R325). -/
def advance (s : State) : Host.Outcome State Fault Refusal :=
  match s.pickAgent with
  | (none, s') => .next s'
  | (some .host, s') => hostTurn s'
  | (some .engine, s') => engineTurn s'

/-! Placing an instruction -/

/-- Place a bus write as the host's next access, with the host to move. -/
def State.placeWrite (s : State) (off : Offset) (v : Word) : State :=
  { s with host := .write off v :: s.host, sched := .host :: s.sched }

/-- Make a command the active one, as its accepted START leaves it, with a first byte 0x00 in the FIFO
and the engine to move: what it takes for the engine's next step to be that command's (log 9). -/
def State.placeCommand (s : State) (c : Command) : State :=
  { s.accept c with fifo := [.data 0x00], sched := .engine :: s.sched }

/-- Place a table row's instruction where the next step runs it (log 9). -/
def State.place (s : State) : Packet → State
  | .bus w => s.placeWrite (w.extractLsb' 0 16) (w.extractLsb' 16 32)
  | .cmd w =>
    match Command.ofOpcode (opcodeOf w) with
    | some c => s.placeCommand c
    | none => s.placeWrite 0x010 w

end Sys2Proof.Machine
end

