-- ==== Sys2Proof/Machine/Step.lean ====
section
/-! DEFINITION. The step function, and placing an instruction for the next step. -/

namespace Sys2Proof.Machine

/-- One step of the machine: one atomic step of one agent (00_scope.md R6; 20_memory.md R71). -/
def step (s : State) : Host.Outcome State Fault Refusal :=
  advance s

/-- s with the instruction of a table row's bits placed so that the next step runs it (log 9). -/
def State.withFetchWord (s : State) (nbits w : Nat) : State :=
  s.place (tablePacket nbits w)

end Sys2Proof.Machine
end

