-- ==== Sys2Proof/Safety.lean ====
section
/-! DEFINITION. What a safe state is (the invariant of spec/10_state.md R51, with the ranges the other
rules give), and the spec-side terms the claims use: frames (spec/30_encoding.md R94, R96), NDEF records
and their RD form (R104, R112), TLV streams (R100), and streams fed to a command. -/

namespace Sys2Proof.Machine

/-! Byte sums -/

/-- `sum(s)`: "the arithmetic sum of the bytes of s as an unbounded integer" (00_scope.md R10). -/
def sumBytes (bs : List Byte) : Nat :=
  (bs.map BitVec.toNat).sum

/-! The invariant -/

/-- W.r: the PL counter, the tag's field counters, "0..4" and the current field not exhausted
(42_ndef.md R210, R212, R216). -/
def RecW.ok (r : RecW) : Prop :=
  (r.ph = .plen → r.k < plenBytes r.flags) ∧
  r.k ≤ 4 ∧
  ((r.ph = .type ∨ r.ph = .id ∨ r.ph = .pay) → r.cnt ≠ 0)

/-- W.e, alike (42_ndef.md R235, R236). -/
def EncW.ok (e : EncW) : Prop :=
  (e.ph = .pl → e.k < 4) ∧
  e.k ≤ 4 ∧
  ((e.ph = .type ∨ e.ph = .id ∨ e.ph = .pay) → e.cnt ≠ 0)

/-- W.t: value phases have value bytes to come and the tag of their TLV (44_tlv.md R270, R271). -/
def TlvW.ok (t : TlvW) : Prop :=
  ((t.ph = .pval ∨ t.ph = .nval ∨ t.ph = .nskip) → t.rem ≠ 0) ∧
  ((t.ph = .l0 ∨ t.ph = .lx1 ∨ t.ph = .lx2) → t.tag = 0x03 ∨ t.tag = 0xFD) ∧
  ((t.ph = .nval ∨ t.ph = .nskip) → t.tag = 0x03) ∧
  (t.ph = .pval → t.tag = 0xFD)

/-- FRM_DEC's fields: the header index in its range, the data bytes still to come and those in
`W.out` together LEN - 2 (41_frame.md R178, R180, R182). -/
def FrmDecW.ok (x : FrmDecW) (out : List Byte) : Prop :=
  x.i ≤ 6 ∧ x.rem ≤ 253 ∧
  (x.ph = .hdr → out = [] ∧ (5 ≤ x.i → 2 ≤ x.len.toNat)) ∧
  (x.ph = .pay → 0 < x.rem ∧ out.length + x.rem + 2 = x.len.toNat) ∧
  ((x.ph = .dcs ∨ x.ph = .post) → out.length + 2 = x.len.toNat)

/-- The ranges of the active command's own fields. -/
def CmdWork.ok (p : Params) (out : List Byte) : CmdWork → Prop
  | .frmEnc x => x.n = x.buf.length ∧ x.n ≤ 254 ∧ x.sum.toNat = sumBytes x.buf % 256 ∧ out = []
  | .frmDec x => x.ok out
  | .ackChk i => i ≤ 5 ∧ out = []
  | .ndefDec r => r.ok
  | .ndefEnc e => e.ok
  | .tlvParse t r => t.ok ∧ r.ok
  | .uriExp ph => ph = .code → out = []
  | .uriCmp c => c.buf.length ≤ uriMaxP p ∧ out = []

/-- A pending result belongs to a command that reports it: RESP_CODE to FRM_DEC (10_state.md R36),
RESULT to URI_EXP once the code is read (R39; 43_uri.md R251, R253), records to the record unit (R38),
messages before the completion step to TLV_PARSE (R37; 42_ndef.md R230, R240). -/
def Work.quiet (w : Work) : Prop :=
  (w.command ≠ .frmDec → w.echo = 0) ∧
  ((w.command ≠ .uriExp ∨ w.cmd = .uriExp .code) → w.res = 0) ∧
  ((w.command ≠ .ndefDec ∧ w.command ≠ .ndefEnc ∧ w.command ≠ .tlvParse) → w.recs = 0) ∧
  (w.command ≠ .tlvParse → w.msgs = 0)

/-- The working state of an active command: `|W.out| <= OUT_CAP`, LAST_OP is its opcode (10_state.md
R46), the own fields in range, the pending results its own. -/
def Work.ok (p : Params) (lastOp : Byte) (w : Work) : Prop :=
  w.op = lastOp ∧ w.out.length ≤ p.outCap ∧ w.cmd.ok p w.out ∧ w.quiet

/-- The invariant: 10_state.md R51 and what the rules it is derived from add. -/
structure Inv (s : State) : Prop where
  /-- The parameters are legal (00_scope.md R8). -/
  paramsLegal : s.params.legal = true
  /-- `|fifo| <= IN_DEPTH` (10_state.md R42). -/
  fifoDepth : s.fifo.length ≤ s.params.inDepth
  /-- Every Abort code is 0x01 to 0xFF (10_state.md R43). -/
  entriesWf : ∀ e ∈ s.fifo, e.wellFormed = true
  /-- `opst ≠ ACTIVE` implies `fifo = []` (10_state.md R51). -/
  drained : (∀ w, s.opst ≠ .active w) → s.fifo = []
  /-- `opst ≠ DONE_OK` implies the result registers are 0 (10_state.md R51). -/
  resultsZero : s.opst ≠ .doneOk →
    s.outLen = 0 ∧ s.msgCount = 0 ∧ s.recCount = 0 ∧ s.result = 0 ∧ s.respCode = 0
  /-- `opst ≠ DONE_ERR` implies `ERR = 0` and `ERR_POS = 0` (10_state.md R51). -/
  errorsZero : s.opst ≠ .doneErr → s.errCode = 0 ∧ s.errHost = 0 ∧ s.errPos = 0
  /-- In DONE_ERR, ERR.CODE is a listed code (60_exceptions.md R300), HOST_CODE is 0 but for
  HOST_ABORT (10_state.md R31), and ERR_POS is IN_POS (60_exceptions.md R311). -/
  errorListed : s.opst = .doneErr →
    (∃ e : ErrCode, s.errCode = e.code ∧ (e ≠ .hostAbort → s.errHost = 0)) ∧ s.errPos = s.inPos
  /-- `OUT_LEN <= OUT_CAP` (10_state.md R51). -/
  outLenCap : s.outLen.toNat ≤ s.params.outCap
  /-- In DONE_OK every valid output byte is in OUT (40_host_actions.md R153). -/
  outListed : s.opst = .doneOk → ∀ i < s.outLen.toNat, (Memory.read s.out (outBase + i)).isSome = true
  /-- OUT's memory has the canonical form. -/
  outWf : Memory.wf s.out
  /-- OUT lies in the OUT_BUF window (10_state.md R40). -/
  outWindow : ∀ a ∈ s.out.map Prod.fst, outBase ≤ a ∧ a < outBase + s.params.outCap
  /-- The active command's working state is in range (10_state.md R46). -/
  workOk : ∀ w, s.opst = .active w → w.ok s.params s.lastOp
  /-- IDLE is the state a reset left: LAST_OP = 0 and IN_POS = 0 (70_reset_and_hazards.md R341). -/
  idleClean : s.opst = .idle → s.lastOp = 0 ∧ s.inPos = 0

/-! Running a command on a stream -/

/-- An outcome's next state goes on to f; a stop stays. -/
def andThen (o : Host.Outcome State Fault Refusal) (f : State → Host.Outcome State Fault Refusal) :
    Host.Outcome State Fault Refusal :=
  match o with
  | .next s => f s
  | .fault r => .fault r
  | .refused r => .refused r

/-- The host write that pushes an entry (30_encoding.md R93). -/
def pushInstr : Entry → Instr
  | .data b => .wInData (b.setWidth 32)
  | .endMark => .wInEnd 0
  | .abort c => .wInEnd (c.setWidth 32)

/-- A stream fed to the command c: each entry is pushed by the host's write, and the engine's step of c
follows. -/
def feed (c : Command) : List Entry → State → Host.Outcome State Fault Refusal
  | [], s => .next s
  | e :: es, s => andThen (andThen (exec (pushInstr e) s) (exec c.instr)) (feed c es)

/-- One turn of either agent: a host event, or whatever the engine does. -/
inductive Move where
  | host (ev : HostEvent)
  | engine
  deriving DecidableEq, Repr

/-- What a move does. -/
def Move.run (s : State) : Move → Host.Outcome State Fault Refusal
  | .host ev => hostEvent s ev
  | .engine => engineTurn s

/-- A list of moves, one after the other: one total order of atomic steps (20_memory.md R71). -/
def runMoves : List Move → State → Host.Outcome State Fault Refusal
  | [], s => .next s
  | m :: ms, s => andThen (m.run s) (runMoves ms)

/-- The entry a host write pushes, if it is a push (40_host_actions.md R144, R145). -/
def pushedEntry : Instr → Option Entry
  | .frmEnc => none
  | .frmDec => none
  | .ackChk => none
  | .ndefDec => none
  | .ndefEnc => none
  | .tlvParse => none
  | .uriExp => none
  | .uriCmp => none
  | .wCmd _ => none
  | .wCtrl _ => none
  | .wSticky _ => none
  | .wInData v => some (.data (byteOf v))
  | .wInEnd v => some (endEntry v)
  | .wReqCode _ => none

/-- The entry a move pushes, if it is a push: a write of IN_DATA or IN_END (20_memory.md R73). -/
def Move.pushes : Move → Option Entry
  | .host (.write off v) =>
    if off = 0x020 then some (.data (byteOf v)) else if off = 0x024 then some (endEntry v) else none
  | .host (.read _) => none
  | .host (.otherWidth _ _) => none
  | .host .hardReset => none
  | .engine => none

/-- The state once the engine has taken a Data entry off the FIFO and counted it
(40_host_actions.md R150, R151). -/
def State.afterByte (s : State) (rest : List Entry) : State :=
  { s with fifo := rest, inPos := s.inPos + 1 }

/-- A command has just been started: ACTIVE with W as InitW leaves it, IN_POS 0, nothing queued
(40_host_actions.md R142, R158). -/
def State.started (s : State) (c : Command) : Prop :=
  s.opst = .active (initWork s.reqCode c) ∧ s.fifo = [] ∧ s.inPos = 0

/-- The valid output bytes, as OUT_BUF shows them (10_state.md R40). -/
def State.output (s : State) : List (Option Byte) :=
  (List.range s.outLen.toNat).map s.outByte

/-! Frames -/

/-- The host-to-device frame around a payload (30_encoding.md R94, R95). -/
def specHostFrame (payload : List Byte) : List Byte :=
  [0x00, 0x00, 0xFF, BitVec.ofNat 8 (payload.length + 1),
   BitVec.ofNat 8 ((256 - (payload.length + 1)) % 256), 0xD4]
    ++ payload
    ++ [BitVec.ofNat 8 ((256 - (0xD4 + sumBytes payload) % 256) % 256), 0x00]

/-- The device-to-host frame that answers the request code req with `data` (30_encoding.md R96, R97). -/
def specDeviceFrame (req : Byte) (data : List Byte) : List Byte :=
  [0x00, 0x00, 0xFF, BitVec.ofNat 8 (data.length + 2),
   BitVec.ofNat 8 ((256 - (data.length + 2)) % 256), 0xD5, BitVec.ofNat 8 ((req.toNat + 1) % 256)]
    ++ data
    ++ [BitVec.ofNat 8 ((256 - (0xD5 + (req.toNat + 1) % 256 + sumBytes data) % 256) % 256), 0x00]

/-! NDEF records -/

/-- A record: its header byte and its variable fields (30_encoding.md R104, R108). -/
structure NdefRecord where
  flags : Byte
  type : List Byte
  ident : List Byte
  payload : List Byte
  deriving DecidableEq, Repr

/-- The lengths a record's wire form can carry (30_encoding.md R104): TL and IDL one byte, PL one byte
with SR and four without, no id without IL. -/
def NdefRecord.fits (r : NdefRecord) : Prop :=
  r.type.length < 256 ∧ r.ident.length < 256 ∧ r.payload.length < 2 ^ 32 ∧
  (flagSR r.flags = true → r.payload.length < 256) ∧ (flagIL r.flags = false → r.ident = [])

/-- The wire form of a record (30_encoding.md R104). -/
def NdefRecord.wire (r : NdefRecord) : List Byte :=
  [r.flags, BitVec.ofNat 8 r.type.length]
    ++ (if flagSR r.flags then [BitVec.ofNat 8 r.payload.length]
        else be32 (BitVec.ofNat 32 r.payload.length))
    ++ (if flagIL r.flags then [BitVec.ofNat 8 r.ident.length] else [])
    ++ r.type ++ r.ident ++ r.payload

/-- The Record Descriptor of a record (30_encoding.md R112). -/
def NdefRecord.rd (r : NdefRecord) : List Byte :=
  [r.flags, BitVec.ofNat 8 r.type.length, BitVec.ofNat 8 r.ident.length]
    ++ be32 (BitVec.ofNat 32 r.payload.length)
    ++ r.type ++ r.ident ++ r.payload

/-- The lengths a Record Descriptor can carry (30_encoding.md R112). -/
def NdefRecord.describes (r : NdefRecord) : Prop :=
  r.type.length < 256 ∧ r.ident.length < 256 ∧ r.payload.length < 2 ^ 32

/-- `FLAGS.SR = (PAYLOAD_LEN < 255)` and `FLAGS.IL = (ID_LEN ≠ 0)` (30_encoding.md R114). -/
def NdefRecord.canonical (r : NdefRecord) : Prop :=
  flagSR r.flags = decide (r.payload.length < 255) ∧ flagIL r.flags = !r.ident.isEmpty

/-- The record with its SR and IL bits as the encoder sets them, its other flags kept (42_ndef.md R237). -/
def NdefRecord.canonize (r : NdefRecord) : NdefRecord :=
  { r with flags := (r.flags &&& 0xE7)
      ||| (if r.payload.length < 255 then 0x10 else 0x00)
      ||| (if r.ident.isEmpty then 0x00 else 0x08) }

/-- One message: records of which exactly the last has ME = 1 (30_encoding.md R109, R113). -/
def isMessage : List NdefRecord → Prop
  | [] => False
  | [r] => flagME r.flags = true
  | r :: rs => flagME r.flags = false ∧ isMessage rs

/-- The wire bytes of records back to back. -/
def wireBytes (rs : List NdefRecord) : List Byte :=
  rs.flatMap NdefRecord.wire

/-- The RDs of records back to back, "with no padding" (30_encoding.md R112). -/
def rdBytes (rs : List NdefRecord) : List Byte :=
  rs.flatMap NdefRecord.rd

/-! TLV streams -/

/-- One TLV before the terminator (30_encoding.md R101): NULL with its length byte, Proprietary with
its value, NDEF Message with its records and the value bytes after the ME record. `long` asks for the
three-byte length form. -/
inductive Tlv where
  | null (l : Byte)
  | proprietary (long : Bool) (value : List Byte)
  | ndef (long : Bool) (records : List NdefRecord) (rest : List Byte)
  deriving DecidableEq, Repr

/-- A length field: one byte, or `FF h l` (30_encoding.md R102). -/
def tlvLength (long : Bool) (n : Nat) : List Byte :=
  if long then [0xFF, BitVec.ofNat 8 (n / 256), BitVec.ofNat 8 (n % 256)] else [BitVec.ofNat 8 n]

/-- The value bytes of a TLV. -/
def Tlv.value : Tlv → List Byte
  | .null _ => []
  | .proprietary _ value => value
  | .ndef _ records rest => wireBytes records ++ rest

/-- The bytes of a TLV on the card (30_encoding.md R100 to R103). -/
def Tlv.wire : Tlv → List Byte
  | .null l => [0x00, l]
  | .proprietary long value => 0xFD :: tlvLength long value.length ++ value
  | .ndef long records rest =>
    0x03 :: tlvLength long (wireBytes records ++ rest).length ++ (wireBytes records ++ rest)

/-- The records a TLV adds to the output list (44_tlv.md R276). -/
def Tlv.records : Tlv → List NdefRecord
  | .null _ => []
  | .proprietary _ _ => []
  | .ndef _ records _ => records

/-- How many messages a TLV adds (44_tlv.md R281). -/
def Tlv.messages : Tlv → Nat
  | .null _ => 0
  | .proprietary _ _ => 0
  | .ndef _ _ _ => 1

/-- A valid TLV: its length fits its form (30_encoding.md R102), an NDEF value begins with one message
of records that fit. -/
def Tlv.valid : Tlv → Prop
  | .null _ => True
  | .proprietary long value => value.length < (if long then 65536 else 255)
  | .ndef long records rest =>
    (wireBytes records ++ rest).length < (if long then 65536 else 255) ∧
    isMessage records ∧ ∀ r ∈ records, r.fits

end Sys2Proof.Machine
end

