-- ==== Sys2Proof/Certificates/Slice0/Obligations.lean ====
section
/-! DEFINITION. The statements about the FNC block, for the provers. -/

open Sys2Proof Sys2Proof.Machine

/-! Encoding -/

/-- 30_encoding.md R90, R91, R93: no bit of an encoding is dropped, in both directions. -/
def Obligations.DecodeInvertsEncode : Prop :=
  (∀ i : Instr, decode (encode i) = .ok i) ∧
  (∀ (v : BitVec 32) (i : Instr), decode (.cmd v) = .ok i → encode i = .cmd (v &&& 0xFF)) ∧
  (∀ (v : BitVec 48) (i : Instr), decode (.bus v) = .ok i → encode i = .bus v)

/-- 30_encoding.md R92. -/
def Obligations.UnassignedOpcodesFail : Prop :=
  (∀ (v : Word) (s : State), (∀ w, s.opst ≠ .active w) →
    ((opcodeOf v).toNat = 0x00 ∨ (0x04 ≤ (opcodeOf v).toNat ∧ (opcodeOf v).toNat ≤ 0x0F) ∨
      (0x13 ≤ (opcodeOf v).toNat ∧ (opcodeOf v).toNat ≤ 0x1F) ∨ 0x22 ≤ (opcodeOf v).toNat) →
    decode (.cmd v) = .error (.unassignedOpcode (opcodeOf v)) ∧
    exec (.wCmd v) s = .next { s with
      opst := .doneErr
      fifo := []
      lastOp := opcodeOf v
      errCode := 0x01
      errHost := 0x00
      errPos := 0
      inPos := 0
      outLen := 0
      respCode := 0x00
      msgCount := 0
      recCount := 0
      result := 0 }) ∧
  (∀ v : Word,
    ¬ ((opcodeOf v).toNat = 0x00 ∨ (0x04 ≤ (opcodeOf v).toNat ∧ (opcodeOf v).toNat ≤ 0x0F) ∨
      (0x13 ≤ (opcodeOf v).toNat ∧ (opcodeOf v).toNat ≤ 0x1F) ∨ 0x22 ≤ (opcodeOf v).toNat) →
    ∃ c : Command, c.opcode = opcodeOf v ∧ decode (.cmd v) = .ok c.instr)

/-- 30_encoding.md R93, 20_memory.md R70, 40_host_actions.md R140: these six writes and no others. -/
def Obligations.SideEffectWritesDecode : Prop :=
  ∀ (off : Offset) (v : Word) (i : Instr),
    decode (.bus (busWriteBits off v)) = .ok i ↔
      (off = 0x010 ∧ i = .wCmd v) ∨ (off = 0x014 ∧ i = .wCtrl v) ∨ (off = 0x01C ∧ i = .wSticky v) ∨
      (off = 0x020 ∧ i = .wInData v) ∨ (off = 0x024 ∧ i = .wInEnd v) ∨ (off = 0x038 ∧ i = .wReqCode v)

/-- Words written out from 30_encoding.md R91, R93 decode to their instructions. -/
def Obligations.SpecWordsDecode : Prop :=
  decode (.cmd 0x00000001) = .ok .frmEnc ∧
  decode (.cmd 0x00000002) = .ok .frmDec ∧
  decode (.cmd 0x00000003) = .ok .ackChk ∧
  decode (.cmd 0x00000010) = .ok .ndefDec ∧
  decode (.cmd 0x00000011) = .ok .ndefEnc ∧
  decode (.cmd 0x00000012) = .ok .tlvParse ∧
  decode (.cmd 0x00000020) = .ok .uriExp ∧
  decode (.cmd 0xABCDEF21) = .ok .uriCmp ∧
  decode (.bus 0x000000120010) = .ok (.wCmd 0x12) ∧
  decode (.bus 0x000000010014) = .ok (.wCtrl 0x1) ∧
  decode (.bus 0x00000004001C) = .ok (.wSticky 0x4) ∧
  decode (.bus 0x000000AB0020) = .ok (.wInData 0xAB) ∧
  decode (.bus 0x000000410024) = .ok (.wInEnd 0x41) ∧
  decode (.bus 0x000000020038) = .ok (.wReqCode 0x02)

/-- 30_encoding.md R90, R93: "Bits the table does not list are ignored". -/
def Obligations.IgnoredBitsHaveNoEffect : Prop :=
  ∀ (i : Instr) (s : State), exec i.canonical s = exec i s

/-! The step -/

/-- A step runs the decoded instruction. The forced part of the interleaving is the model's (log 1);
where it is used up, the only enabled agent moves, and where both can, the free choice decides. -/
def Obligations.StepRunsDecodedInstruction : Prop :=
  ∀ (s : State),
    (∀ rest off v evs i, s.sched = .host :: rest → s.host = .write off v :: evs →
      decode (.bus (busWriteBits off v)) = .ok i → step s = exec i { s with sched := rest, host := evs }) ∧
    (∀ rest w i, s.sched = .engine :: rest → s.opst = .active w →
      decode (.cmd (w.op.setWidth 32)) = .ok i → step s = exec i { s with sched := rest }) ∧
    (∀ off v evs i, s.sched = [] → s.host = .write off v :: evs →
      ((∀ w, s.opst ≠ .active w) ∨ s.fifo = []) →
      decode (.bus (busWriteBits off v)) = .ok i → step s = exec i { s with host := evs }) ∧
    (∀ w i, s.sched = [] → s.host = [] → s.opst = .active w → s.fifo ≠ [] →
      decode (.cmd (w.op.setWidth 32)) = .ok i → step s = exec i s) ∧
    (∀ off v evs w i j, s.sched = [] → s.host = .write off v :: evs → s.opst = .active w → s.fifo ≠ [] →
      decode (.bus (busWriteBits off v)) = .ok i → decode (.cmd (w.op.setWidth 32)) = .ok j →
      step s = if Config.engineFirst s.draws then exec j { s with draws := s.draws + 1 }
        else exec i { s with draws := s.draws + 1, host := evs }) ∧
    (∀ w, s.opst = .active w → decode (.cmd (w.op.setWidth 32)) = .ok w.command.instr)

/-- The model's placement of an instruction (log 9): the next step runs exactly it. -/
def Obligations.PlacedInstructionRunsNext : Prop :=
  (∀ (s : State) (off : Offset) (v : Word) (i : Instr), decode (.bus (busWriteBits off v)) = .ok i →
    step (s.placeWrite off v) = exec i s) ∧
  (∀ (s : State) (c : Command),
    step (s.placeCommand c) = exec c.instr { s.accept c with fifo := [.data 0x00] }) ∧
  (∀ (s : State) (off : Nat), off < 65536 →
    s.withFetchWord 16 off = s.placeWrite (BitVec.ofNat 16 off) 0) ∧
  (∀ (s : State) (c : Command), s.withFetchWord 32 c.opcode.toNat = s.placeCommand c)

/-! Host writes -/

/-- 40_host_actions.md R142: START, with each of its three ends. -/
def Obligations.StartRule : Prop :=
  ∀ (v : Word) (s : State),
    (∀ w, s.opst = .active w → exec (.wCmd v) s = .next { s with sticky := s.sticky ||| 0b001 }) ∧
    ((∀ w, s.opst ≠ .active w) →
      (∀ c : Command, c.opcode = opcodeOf v → exec (.wCmd v) s = .next { s with
        lastOp := opcodeOf v
        outLen := 0
        msgCount := 0
        recCount := 0
        result := 0
        respCode := 0x00
        errCode := 0x00
        errHost := 0x00
        errPos := 0
        inPos := 0
        opst := .active (initWork s.reqCode c) }) ∧
      ((∀ c : Command, c.opcode ≠ opcodeOf v) → exec (.wCmd v) s = .next { s with
        lastOp := opcodeOf v
        outLen := 0
        msgCount := 0
        recCount := 0
        result := 0
        respCode := 0x00
        errCode := 0x01
        errHost := 0x00
        errPos := 0
        inPos := 0
        opst := .doneErr
        fifo := [] }))

/-- 40_host_actions.md R158, with R170, R179, R189, R211, R235, R270, R250, R260. -/
def Obligations.InitialWorkingState : Prop :=
  (∀ (req : Byte) (c : Command),
    (initWork req c).op = c.opcode ∧ (initWork req c).out = [] ∧ (initWork req c).msgs = 0 ∧
    (initWork req c).recs = 0 ∧ (initWork req c).res = 0 ∧ (initWork req c).echo = 0) ∧
  (∀ req : Byte,
    (initWork req .frmEnc).cmd = .frmEnc { n := 0, sum := 0, buf := [] } ∧
    (initWork req .frmDec).cmd =
      .frmDec { ph := .hdr, i := 0, len := 0, sum := 0, exp := BitVec.ofNat 8 ((req.toNat + 1) % 256), rem := 0 } ∧
    (initWork req .ackChk).cmd = .ackChk 0 ∧
    (initWork req .ndefDec).cmd =
      .ndefDec { ph := .hdr, flags := 0, tlen := 0, plen := 0, idlen := 0, k := 0, cnt := 0 } ∧
    (initWork req .ndefEnc).cmd =
      .ndefEnc { ph := .flg, flags := 0, tlen := 0, idlen := 0, plen := 0, k := 0, cnt := 0 } ∧
    (initWork req .tlvParse).cmd =
      .tlvParse { ph := .tag, tag := 0, hi := 0, rem := 0 }
        { ph := .hdr, flags := 0, tlen := 0, plen := 0, idlen := 0, k := 0, cnt := 0 } ∧
    (initWork req .uriExp).cmd = .uriExp .code ∧
    (initWork req .uriCmp).cmd = .uriCmp { buf := [], long := false })

/-- 40_host_actions.md R143, with the values of 70_reset_and_hazards.md R340. -/
def Obligations.SoftResetRule : Prop :=
  ∀ (v : Word) (s : State),
    (v.getLsbD 0 = true → exec (.wCtrl v) s = .next { s with
      opst := .idle
      fifo := []
      lastOp := 0x00
      sticky := 0
      errCode := 0x00
      errHost := 0x00
      errPos := 0
      inPos := 0
      outLen := 0
      respCode := 0x00
      msgCount := 0
      recCount := 0
      result := 0
      reqCode := 0x00 }) ∧
    (v.getLsbD 0 = false → exec (.wCtrl v) s = .next s)

/-- 40_host_actions.md R146. -/
def Obligations.StickyClearRule : Prop :=
  ∀ (v : Word) (s : State), ∃ t, exec (.wSticky v) s = .next { s with sticky := t } ∧
    ∀ i, i < 3 → t.getLsbD i = (s.sticky.getLsbD i && !v.getLsbD i)

/-- 40_host_actions.md R144, R145: one primitive for IN_DATA and IN_END. -/
def Obligations.PushRule : Prop :=
  (∀ (i : Instr) (e : Entry) (s : State), pushedEntry i = some e →
    ((∀ w, s.opst ≠ .active w) → exec i s = .next { s with sticky := s.sticky ||| 0b010 }) ∧
    (∀ w, s.opst = .active w → s.fifo.length = s.params.inDepth → exec i s = .next { s with
      opst := .doneErr
      fifo := []
      errCode := 0x02
      errHost := 0x00
      errPos := s.inPos
      outLen := 0
      respCode := 0x00
      msgCount := 0
      recCount := 0
      result := 0 }) ∧
    (∀ w, s.opst = .active w → s.fifo.length ≠ s.params.inDepth →
      exec i s = .next { s with fifo := s.fifo ++ [e] })) ∧
  (∀ v : Word, pushedEntry (.wInData v) = some (.data (v.extractLsb' 0 8))) ∧
  (∀ v : Word, v.extractLsb' 0 8 = 0x00 → pushedEntry (.wInEnd v) = some .endMark) ∧
  (∀ v : Word, v.extractLsb' 0 8 ≠ 0x00 → pushedEntry (.wInEnd v) = some (.abort (v.extractLsb' 0 8)))

/-- 40_host_actions.md R147. -/
def Obligations.ReqCodeRule : Prop :=
  ∀ (v : Word) (s : State),
    (∀ w, s.opst = .active w → exec (.wReqCode v) s = .next { s with sticky := s.sticky ||| 0b001 }) ∧
    ((∀ w, s.opst ≠ .active w) → exec (.wReqCode v) s = .next { s with reqCode := v.extractLsb' 0 8 })

/-! Host reads and refused accesses -/

/-- 10_state.md R21 to R39: what a read of each register returns. The returned values are kept in the
model's `readLog` (log 3). -/
def Obligations.RegisterReads : Prop :=
  ∀ s : State,
    let reads (off : Offset) (v : Word) : Prop :=
      hostEvent s (.read off) = .next { s with readLog := s.readLog ++ [v] }
    reads 0x000 0x464E4342 ∧ reads 0x004 0x00010000 ∧
    reads 0x008 ((BitVec.ofNat 8 s.params.inDepth).setWidth 32) ∧
    reads 0x00C ((BitVec.ofNat 16 s.params.outCap).setWidth 32) ∧
    reads 0x010 (s.lastOp.setWidth 32) ∧ reads 0x014 0 ∧ reads 0x018 s.status ∧
    reads 0x01C (s.sticky.setWidth 32) ∧ reads 0x020 0 ∧ reads 0x024 0 ∧
    reads 0x028 (s.errCode.setWidth 32 ||| (s.errHost.setWidth 32) <<< 8) ∧
    reads 0x02C s.errPos ∧ reads 0x030 s.inPos ∧ reads 0x034 s.outLen ∧
    reads 0x038 (s.reqCode.setWidth 32) ∧ reads 0x03C (s.respCode.setWidth 32) ∧
    reads 0x040 s.msgCount ∧ reads 0x044 s.recCount ∧ reads 0x048 (s.result.setWidth 32)

/-- 10_state.md R27, R41. -/
def Obligations.StatusFields : Prop :=
  ∀ s : State, s.params.inDepth ≤ 255 → s.fifo.length ≤ s.params.inDepth →
    (s.status.getLsbD 0 = true ↔ ∃ w, s.opst = .active w) ∧
    (s.status.getLsbD 1 = true ↔ s.opst = .doneOk ∨ s.opst = .doneErr) ∧
    (s.status.getLsbD 2 = true ↔ s.opst = .doneErr) ∧
    s.status.extractLsb' 3 5 = 0 ∧
    (s.status.extractLsb' 8 8).toNat = s.fifo.length ∧
    (s.status.extractLsb' 16 8).toNat = s.params.inDepth - s.fifo.length ∧
    s.status.extractLsb' 24 8 = 0

/-- 40_host_actions.md R148, 20_memory.md R66: each byte of an OUT_BUF word, defined or free, by itself.
The free bytes and the counter they are drawn with are the model's (log 8). -/
def Obligations.OutBufRead : Prop :=
  ∀ (s : State) (k : Nat), s.params.legal = true → 4 * k < s.params.outCap →
    ∃ v : Word, hostEvent s (.read (BitVec.ofNat 16 (0x1000 + 4 * k))) =
        .next { s with readLog := s.readLog ++ [v], draws := s.draws + 4 } ∧
      ∀ j, j < 4 →
        (∀ b, s.opst = .doneOk → 4 * k + j < s.outLen.toNat →
          Memory.read s.out (0x1000 + 4 * k + j) = some b → v.extractLsb' (8 * j) 8 = b) ∧
        ((s.opst ≠ .doneOk ∨ s.outLen.toNat ≤ 4 * k + j) →
          v.extractLsb' (8 * j) 8 = Config.unspecifiedByte (s.draws + j))

/-- 20_memory.md R62. What a read returns is the last value of the model's `readLog` (log 3). -/
def Obligations.MisalignedAccess : Prop :=
  ∀ (s : State) (off : Offset) (v : Word), off.extractLsb' 0 2 ≠ 0 →
    hostEvent s (.read off) =
      .next { s with sticky := s.sticky ||| 0b100, readLog := s.readLog ++ [0] } ∧
    hostEvent s (.write off v) = .next { s with sticky := s.sticky ||| 0b100 }

/-- 20_memory.md R63. What a read returns is the last value of the model's `readLog` (log 3). -/
def Obligations.UnmappedAccess : Prop :=
  ∀ (s : State) (off : Offset) (v : Word), s.params.legal = true → off.extractLsb' 0 2 = 0 →
    ((0x04C ≤ off.toNat ∧ off.toNat ≤ 0xFFC) ∨ 0x1000 + s.params.outCap ≤ off.toNat) →
    hostEvent s (.read off) =
      .next { s with sticky := s.sticky ||| 0b100, readLog := s.readLog ++ [0] } ∧
    hostEvent s (.write off v) = .next { s with sticky := s.sticky ||| 0b100 }

/-- 20_memory.md R64. What a read returns is the last value of the model's `readLog` (log 3). -/
def Obligations.ReadOnlyAndWriteOnly : Prop :=
  ∀ (s : State) (off : Offset) (v : Word),
    ((off ∈ ([0x000, 0x004, 0x008, 0x00C, 0x018, 0x028, 0x02C, 0x030, 0x034, 0x03C, 0x040, 0x044, 0x048] :
        List Offset) ∨
      (off.extractLsb' 0 2 = 0 ∧ 0x1000 ≤ off.toNat ∧ off.toNat < 0x1000 + s.params.outCap)) →
      hostEvent s (.write off v) = .next { s with sticky := s.sticky ||| 0b100 }) ∧
    (off ∈ ([0x014, 0x020, 0x024] : List Offset) →
      hostEvent s (.read off) = .next { s with readLog := s.readLog ++ [0] })

/-- The two host events that are no bus access of the block, and the window's place. 20_memory.md R60:
"A model that meets a narrower or wider access has no meaning for it and must refuse it" (log 10).
70_reset_and_hazards.md R340: hardware reset has the effect of soft reset; that the host's queued
accesses outlive it is the model's choice (log 11). 20_memory.md R65: FNC_BASE is the platform address
of offset 0; that another address reaches no event of the block is the model's reading (log 21). -/
def Obligations.OtherHostEvents : Prop :=
  (∀ (s : State) (evs : List HostEvent) (rest : List Agent), s.sched = .host :: rest →
    (∀ bits off, s.host = .otherWidth bits off :: evs → step s = .refused (.accessWidth bits)) ∧
    (s.host = .hardReset :: evs → step s = exec (.wCtrl 1) { s with sched := rest, host := evs })) ∧
  (∀ (p : Params) (off : Offset) (v : Word),
    platformRead p (p.fncBase + off.toNat) = some (.read off) ∧
    platformWrite p (p.fncBase + off.toNat) v = some (.write off v)) ∧
  (∀ (p : Params) (addr : Nat) (v : Word), addr < p.fncBase ∨ p.fncBase + 0x10000 ≤ addr →
    platformRead p addr = none ∧ platformWrite p addr v = none)

/-- 20_memory.md R70, 40_host_actions.md R141: a read changes nothing of the block but BAD_ACC, on a
misaligned or unmapped offset, where it returns 0. The returned value is kept in the model's `readLog`
(log 3), and only a read of OUT_BUF draws free bytes, counted by the model's `draws` (log 8). -/
def Obligations.ReadsKeepBlockState : Prop :=
  ∀ (s : State) (off : Offset),
    let bad : Prop := off.extractLsb' 0 2 ≠ 0 ∨ (0x04C ≤ off.toNat ∧ off.toNat < 0x1000) ∨
      0x1000 + s.params.outCap ≤ off.toNat
    (bad → hostEvent s (.read off) =
      .next { s with sticky := s.sticky ||| 0b100, readLog := s.readLog ++ [0] }) ∧
    (¬ bad → ∃ (v : Word) (draws : Nat),
      hostEvent s (.read off) = .next { s with readLog := s.readLog ++ [v], draws := draws } ∧
      (off.toNat < 0x1000 → draws = s.draws))

/-! Completions and the engine step -/

/-- 40_host_actions.md R153. -/
def Obligations.SucceedRule : Prop :=
  ∀ (s : State) (w : Work), ∃ out : Memory,
    s.succeed w = { s with
      out := out
      outLen := BitVec.ofNat 32 w.out.length
      msgCount := w.msgs
      recCount := w.recs
      result := w.res
      respCode := w.echo
      errCode := 0x00
      errHost := 0x00
      errPos := 0
      opst := .doneOk
      fifo := [] } ∧
    (∀ i b, w.out[i]? = some b → Memory.read out (0x1000 + i) = some b) ∧
    (∀ a, a < 0x1000 ∨ 0x1000 + w.out.length ≤ a → Memory.read out a = Memory.read s.out a)

/-- 60_exceptions.md R310, with the number each error puts in ERR.CODE (the code column of R300). -/
def Obligations.FailRule : Prop :=
  (∀ (s : State) (e : ErrCode) (c : Byte),
    s.fail e c = { s with
      errCode := e.code
      errHost := if e = .hostAbort then c else 0x00
      errPos := s.inPos
      outLen := 0
      msgCount := 0
      recCount := 0
      result := 0
      respCode := 0x00
      opst := .doneErr
      fifo := [] }) ∧
  ErrCode.illegalOp.code = 0x01 ∧ ErrCode.inOverflow.code = 0x02 ∧ ErrCode.outOverflow.code = 0x03 ∧
  ErrCode.hostAbort.code = 0x04 ∧ ErrCode.frmBadPreamble.code = 0x10 ∧ ErrCode.frmBadStart.code = 0x11 ∧
  ErrCode.frmBadLcs.code = 0x12 ∧ ErrCode.frmBadLen.code = 0x13 ∧ ErrCode.frmBadTfi.code = 0x14 ∧
  ErrCode.frmBadEcho.code = 0x15 ∧ ErrCode.frmBadDcs.code = 0x16 ∧ ErrCode.frmBadPostamble.code = 0x17 ∧
  ErrCode.frmTruncated.code = 0x18 ∧ ErrCode.encEmpty.code = 0x20 ∧ ErrCode.encTooLong.code = 0x21 ∧
  ErrCode.ackMismatch.code = 0x30 ∧ ErrCode.ackTruncated.code = 0x31 ∧ ErrCode.tlvBadTag.code = 0x40 ∧
  ErrCode.tlvTruncated.code = 0x41 ∧ ErrCode.tlvUnterminated.code = 0x42 ∧ ErrCode.ndefTruncated.code = 0x50 ∧
  ErrCode.ndefEncTruncated.code = 0x51

/-- 40_host_actions.md R152. -/
def Obligations.AbortEndsEveryCommand : Prop :=
  ∀ (s : State) (w : Work) (c : Byte) (rest : List Entry),
    s.opst = .active w → s.fifo = .abort c :: rest →
    exec w.command.instr s = .next { s with
      errCode := 0x04
      errHost := c
      errPos := s.inPos
      outLen := 0
      msgCount := 0
      recCount := 0
      result := 0
      respCode := 0x00
      opst := .doneErr
      fifo := [] }

/-- 40_host_actions.md R150, 60_exceptions.md R325: a command that needs more input waits. That a command
row's instruction does nothing for a block that runs no such command is the model's reading (log 2). -/
def Obligations.WaitingCommandStays : Prop :=
  (∀ (s : State) (w : Work), s.opst = .active w → s.fifo = [] → exec w.command.instr s = .next s) ∧
  (∀ (s : State) (c : Command), (∀ w, s.opst = .active w → w.command ≠ c) → exec c.instr s = .next s) ∧
  (∀ s : State, s.sched = [] → s.host = [] → s.fifo = [] → step s = .next s)

/-- 41_frame.md R185, R191, 42_ndef.md R231, R238, 44_tlv.md R280: `End` before completion, in every
phase. -/
def Obligations.EndBeforeCompletionFails : Prop :=
  ∀ (s : State) (w : Work) (rest : List Entry), s.opst = .active w → s.fifo = .endMark :: rest →
    (∀ x, w.cmd = .frmDec x → exec .frmDec s = .next (s.fail .frmTruncated 0)) ∧
    (∀ i, w.cmd = .ackChk i → exec .ackChk s = .next (s.fail .ackTruncated 0)) ∧
    (∀ r, w.cmd = .ndefDec r → exec .ndefDec s = .next (s.fail .ndefTruncated 0)) ∧
    (∀ e, w.cmd = .ndefEnc e → exec .ndefEnc s = .next (s.fail .ndefEncTruncated 0)) ∧
    (∀ t r, w.cmd = .tlvParse t r → t.ph = .tag →
      exec .tlvParse s = .next (s.fail .tlvUnterminated 0)) ∧
    (∀ t r, w.cmd = .tlvParse t r → t.ph ≠ .tag →
      exec .tlvParse s = .next (s.fail .tlvTruncated 0))

/-- 40_host_actions.md R150, R151, R156, 60_exceptions.md R311: one entry is consumed, a Data entry is
counted first, the others stay queued unless the command completes, and a failure records the count. -/
def Obligations.EngineStepConsumesOneEntry : Prop :=
  ∀ (s : State) (w : Work) (e : Entry) (rest : List Entry),
    s.opst = .active w → s.fifo = e :: rest →
    ∃ t, exec w.command.instr s = .next t ∧
      t.inPos = (match e with
        | .data _ => s.inPos + 1
        | .endMark => s.inPos
        | .abort _ => s.inPos) ∧
      ((∃ w', t.opst = .active w' ∧ w'.command = w.command ∧ t.fifo = rest) ∨
        (t.opst = .doneOk ∧ t.fifo = [] ∧ t.errCode = 0 ∧ t.errPos = 0) ∨
        (t.opst = .doneErr ∧ t.fifo = [] ∧ t.errPos = t.inPos ∧ ∃ e : ErrCode, t.errCode = e.code))

/-- The frame of the eight commands: what an engine step leaves alone (60_exceptions.md R310,
40_host_actions.md R153, R156; 10_state.md R44). The stored bytes are the copied output. -/
def Obligations.EngineFrame : Prop :=
  ∀ (c : Command) (s t : State), Inv s → exec c.instr s = .next t →
    t.params = s.params ∧ t.lastOp = s.lastOp ∧ t.sticky = s.sticky ∧ t.host = s.host ∧
    t.sched = s.sched ∧ t.readLog = s.readLog ∧ t.draws = s.draws ∧
    (t.reqCode ≠ s.reqCode → c = .frmEnc ∧ t.opst = .doneOk) ∧
    ((∃ w, t.opst = .active w) →
      t.outLen = s.outLen ∧ t.msgCount = s.msgCount ∧ t.recCount = s.recCount ∧ t.result = s.result ∧
      t.respCode = s.respCode ∧ t.errCode = s.errCode ∧ t.errHost = s.errHost ∧ t.errPos = s.errPos) ∧
    (∀ a, ¬ ((∃ w, s.opst = .active w) ∧ t.opst = .doneOk ∧ outBase ≤ a ∧ a < outBase + t.outLen.toNat) →
      Memory.read t.out a = Memory.read s.out a)

/-- The frame of the six host writes: none stores to OUT, and each changes only what its rule names
(40_host_actions.md R142 to R147). -/
def Obligations.HostWriteFrame : Prop :=
  ∀ (i : Instr) (s t : State), (∀ c : Command, i ≠ c.instr) → exec i s = .next t →
    t.params = s.params ∧ t.host = s.host ∧ t.sched = s.sched ∧ t.readLog = s.readLog ∧
    t.draws = s.draws ∧ (∀ a, Memory.read t.out a = Memory.read s.out a) ∧
    (∀ v, i = .wCmd v → t.reqCode = s.reqCode ∧
      (t.sticky ≠ s.sticky → t = { s with sticky := t.sticky })) ∧
    (∀ v, i = .wCtrl v → v.getLsbD 0 = false → t = s) ∧
    (∀ v, i = .wSticky v → t = { s with sticky := t.sticky }) ∧
    (∀ v, i = .wReqCode v → t = { s with reqCode := t.reqCode, sticky := t.sticky }) ∧
    (∀ e, pushedEntry i = some e → t.lastOp = s.lastOp ∧ t.reqCode = s.reqCode ∧ t.inPos = s.inPos ∧
      (t.opst = s.opst → t = { s with fifo := t.fifo, sticky := t.sticky }) ∧
      (t.opst ≠ s.opst → t.sticky = s.sticky ∧ t.errCode = 0x02))

/-- 10_state.md R36 to R39, 42_ndef.md R230, R240: which command reports what at its success. -/
def Obligations.ResultsOfEachCommand : Prop :=
  ∀ (s t : State) (w : Work), Inv s → s.opst = .active w → exec w.command.instr s = .next t →
    t.opst = .doneOk →
    (w.command ≠ .frmDec → t.respCode = 0) ∧
    (w.command ≠ .uriExp → w.command ≠ .uriCmp → t.result = 0) ∧
    (w.command ≠ .ndefDec → w.command ≠ .ndefEnc → w.command ≠ .tlvParse →
      t.msgCount = 0 ∧ t.recCount = 0) ∧
    (w.command = .ndefDec ∨ w.command = .ndefEnc → t.msgCount = 1)

/-! Frames -/

/-- 41_frame.md R172. -/
def Obligations.FrmEncByteRule : Prop :=
  ∀ (s : State) (w : Work) (x : FrmEncW) (b : Byte) (rest : List Entry),
    s.opst = .active w → w.cmd = .frmEnc x → s.fifo = .data b :: rest →
    (x.n = 254 → exec .frmEnc s = .next ((s.afterByte rest).fail .encTooLong 0)) ∧
    (x.n ≠ 254 → exec .frmEnc s = .next { s.afterByte rest with
      opst := .active { w with cmd := .frmEnc {
        n := x.n + 1
        sum := BitVec.ofNat 8 ((x.sum.toNat + b.toNat) % 256)
        buf := x.buf ++ [b] } } })

/-- 41_frame.md R173, R174, over states the machine can be in. -/
def Obligations.FrmEncEndRule : Prop :=
  ∀ (s : State) (w : Work) (x : FrmEncW) (rest : List Entry),
    Inv s → s.opst = .active w → w.cmd = .frmEnc x → s.fifo = .endMark :: rest →
    (x.n = 0 → exec .frmEnc s = .next (s.fail .encEmpty 0)) ∧
    (∀ b bs, x.buf = b :: bs → ∃ t, exec .frmEnc s = .next t ∧ t.opst = .doneOk ∧ t.reqCode = b ∧
      t.outLen = BitVec.ofNat 32 (x.buf.length + 8) ∧ t.output = (specHostFrame x.buf).map some ∧
      t.inPos = s.inPos ∧ t.lastOp = s.lastOp)

/-- 41_frame.md R175: every frame FRM_ENC outputs. -/
def Obligations.FrameChecksumInvariant : Prop :=
  ∀ (s t : State) (w : Work), Inv s → s.opst = .active w → w.command = .frmEnc →
    exec .frmEnc s = .next t → t.opst = .doneOk →
    ∃ (len lcs dcs : Byte) (payload : List Byte),
      t.output = (([0x00, 0x00, 0xFF, len, lcs, 0xD4] ++ payload ++ [dcs, 0x00] : List Byte)).map some ∧
      (len.toNat + lcs.toNat) % 256 = 0 ∧ (0xD4 + sumBytes payload + dcs.toNat) % 256 = 0

/-- 41_frame.md R171 to R174 together: a whole FRM_ENC. -/
def Obligations.FrmEncBuildsFrame : Prop :=
  ∀ (s : State) (b : Byte) (bs : List Byte), s.params.legal = true → s.started .frmEnc →
    bs.length < 254 →
    ∃ t, feed .frmEnc ((b :: bs).map .data ++ [.endMark]) s = .next t ∧ t.opst = .doneOk ∧
      t.output = (specHostFrame (b :: bs)).map some ∧ t.outLen = BitVec.ofNat 32 (bs.length + 9) ∧
      t.reqCode = b ∧ t.inPos = BitVec.ofNat 32 (bs.length + 1) ∧ t.msgCount = 0 ∧ t.recCount = 0 ∧
      t.result = 0 ∧ t.respCode = 0

/-- 41_frame.md R180, with R181: the header checks, byte by byte. -/
def Obligations.FrmDecHeaderRule : Prop :=
  ∀ (s : State) (w : Work) (x : FrmDecW) (b : Byte) (rest : List Entry),
    s.opst = .active w → w.cmd = .frmDec x → x.ph = .hdr → s.fifo = .data b :: rest →
    let bad (e : ErrCode) : Prop := exec .frmDec s = .next ((s.afterByte rest).fail e 0)
    let go (x' : FrmDecW) : Prop :=
      exec .frmDec s = .next { s.afterByte rest with opst := .active { w with cmd := .frmDec x' } }
    (x.i = 0 → (b ≠ 0x00 → bad .frmBadPreamble) ∧ (b = 0x00 → go { x with i := 1 })) ∧
    (x.i = 1 → (b ≠ 0x00 → bad .frmBadStart) ∧ (b = 0x00 → go { x with i := 2 })) ∧
    (x.i = 2 → (b ≠ 0xFF → bad .frmBadStart) ∧ (b = 0xFF → go { x with i := 3 })) ∧
    (x.i = 3 → go { x with len := b, i := 4 }) ∧
    (x.i = 4 →
      ((x.len.toNat + b.toNat) % 256 ≠ 0 → bad .frmBadLcs) ∧
      ((x.len.toNat + b.toNat) % 256 = 0 → x.len.toNat < 2 → bad .frmBadLen) ∧
      ((x.len.toNat + b.toNat) % 256 = 0 → 2 ≤ x.len.toNat → go { x with i := 5 })) ∧
    (x.i = 5 → (b ≠ 0xD5 → bad .frmBadTfi) ∧ (b = 0xD5 → go { x with sum := 0xD5, i := 6 })) ∧
    (x.i = 6 →
      (b ≠ x.exp → bad .frmBadEcho) ∧
      (b = x.exp → exec .frmDec s = .next { s.afterByte rest with
        opst := .active { w with
          echo := b
          cmd := .frmDec { x with
            sum := BitVec.ofNat 8 ((x.sum.toNat + b.toNat) % 256)
            rem := x.len.toNat - 2
            ph := if x.len.toNat - 2 > 0 then .pay else .dcs } } }))

/-- 41_frame.md R182, R183, R184: the data bytes and the two trailer bytes. -/
def Obligations.FrmDecTrailerRule : Prop :=
  ∀ (s : State) (w : Work) (x : FrmDecW) (b : Byte) (rest : List Entry),
    s.opst = .active w → w.cmd = .frmDec x → s.fifo = .data b :: rest →
    (x.ph = .pay → w.out.length < s.params.outCap → exec .frmDec s = .next { s.afterByte rest with
      opst := .active { w with
        out := w.out ++ [b]
        cmd := .frmDec { x with
          sum := BitVec.ofNat 8 ((x.sum.toNat + b.toNat) % 256)
          rem := x.rem - 1
          ph := if x.rem - 1 = 0 then .dcs else .pay } } }) ∧
    (x.ph = .pay → s.params.outCap ≤ w.out.length →
      exec .frmDec s = .next ((s.afterByte rest).fail .outOverflow 0)) ∧
    (x.ph = .dcs → (x.sum.toNat + b.toNat) % 256 ≠ 0 →
      exec .frmDec s = .next ((s.afterByte rest).fail .frmBadDcs 0)) ∧
    (x.ph = .dcs → (x.sum.toNat + b.toNat) % 256 = 0 → exec .frmDec s = .next { s.afterByte rest with
      opst := .active { w with cmd := .frmDec { x with ph := .post } } }) ∧
    (x.ph = .post → b ≠ 0x00 →
      exec .frmDec s = .next ((s.afterByte rest).fail .frmBadPostamble 0)) ∧
    (x.ph = .post → b = 0x00 → exec .frmDec s = .next ((s.afterByte rest).succeed w))

/-- 41_frame.md R177 to R184 together: the frame that answers the latched request is unwrapped. -/
def Obligations.FrmDecAcceptsFrame : Prop :=
  ∀ (s : State) (data : List Byte), s.params.legal = true → s.started .frmDec → data.length ≤ 253 →
    ∃ t, feed .frmDec ((specDeviceFrame s.reqCode data).map .data) s = .next t ∧ t.opst = .doneOk ∧
      t.output = data.map some ∧ t.outLen = BitVec.ofNat 32 data.length ∧
      t.respCode = BitVec.ofNat 8 ((s.reqCode.toNat + 1) % 256) ∧
      t.inPos = BitVec.ofNat 32 (data.length + 9) ∧ t.reqCode = s.reqCode ∧ t.msgCount = 0 ∧
      t.recCount = 0 ∧ t.result = 0

/-- 41_frame.md R177, R186, R187; 30_encoding.md R97: nothing else is accepted. -/
def Obligations.FrmDecAcceptsOnlyFrames : Prop :=
  ∀ (s t : State) (bs : List Byte), s.params.legal = true → s.started .frmDec →
    feed .frmDec (bs.map .data) s = .next t → t.opst = .doneOk →
    ∃ (data rest : List Byte), bs = specDeviceFrame s.reqCode data ++ rest ∧ data.length ≤ 253 ∧
      t.output = data.map some

/-- 41_frame.md R190. -/
def Obligations.AckByteRule : Prop :=
  ∀ (s : State) (w : Work) (i : Nat) (b : Byte) (rest : List Entry),
    s.opst = .active w → w.cmd = .ackChk i → i ≤ 5 → s.fifo = .data b :: rest →
    (([0x00, 0x00, 0xFF, 0x00, 0xFF, 0x00] : List Byte)[i]? ≠ some b →
      exec .ackChk s = .next ((s.afterByte rest).fail .ackMismatch 0)) ∧
    (([0x00, 0x00, 0xFF, 0x00, 0xFF, 0x00] : List Byte)[i]? = some b → i < 5 →
      exec .ackChk s = .next { s.afterByte rest with opst := .active { w with cmd := .ackChk (i + 1) } }) ∧
    (([0x00, 0x00, 0xFF, 0x00, 0xFF, 0x00] : List Byte)[i]? = some b → i = 5 →
      exec .ackChk s = .next ((s.afterByte rest).succeed w))

/-- 41_frame.md R188 to R192; 30_encoding.md R99: exactly the literal passes. -/
def Obligations.AckAcceptsExactlyTheLiteral : Prop :=
  ∀ (s : State) (bs : List Byte), s.params.legal = true → s.started .ackChk → bs.length = 6 →
    ∃ t, feed .ackChk (bs.map .data) s = .next t ∧
      (t.opst = .doneOk ↔ bs = [0x00, 0x00, 0xFF, 0x00, 0xFF, 0x00]) ∧
      (t.opst ≠ .doneOk → t.opst = .doneErr ∧ t.errCode = 0x30)

/-! NDEF -/

/-- 42_ndef.md R212 to R216, R230: NDEF_DEC's byte, phase by phase. `done`, `fromPay`, `fromId` and
`fromType` say where the record goes on once a field is finished: to the first of the fields left that is
not empty, or to its end. -/
def Obligations.NdefDecByteRule : Prop :=
  ∀ (s : State) (w : Work) (r : RecW) (b : Byte) (rest : List Entry),
    s.opst = .active w → w.cmd = .ndefDec r → s.fifo = .data b :: rest →
    let go (w' : Work) (r' : RecW) : Prop :=
      exec .ndefDec s = .next { s.afterByte rest with opst := .active { w' with cmd := .ndefDec r' } }
    let overflow : Prop := exec .ndefDec s = .next ((s.afterByte rest).fail .outOverflow 0)
    let done (w' : Work) : Prop :=
      (r.flags.getLsbD 6 = false → go { w' with recs := w.recs + 1 }
        { ph := .hdr, flags := 0, tlen := 0, plen := 0, idlen := 0, k := 0, cnt := 0 }) ∧
      (r.flags.getLsbD 6 = true → exec .ndefDec s = .next ((s.afterByte rest).succeed
        { w' with recs := w.recs + 1, msgs := w.msgs + 1 }))
    let fromPay (w' : Work) (r' : RecW) : Prop :=
      (r'.plen ≠ 0 → go w' { r' with ph := .pay, cnt := r'.plen }) ∧ (r'.plen = 0 → done w')
    let fromId (w' : Work) (r' : RecW) : Prop :=
      (r'.idlen ≠ 0 → go w' { r' with ph := .id, cnt := r'.idlen.setWidth 32 }) ∧
      (r'.idlen = 0 → fromPay w' r')
    let fromType (w' : Work) (r' : RecW) : Prop :=
      (r'.tlen ≠ 0 → go w' { r' with ph := .type, cnt := r'.tlen.setWidth 32 }) ∧
      (r'.tlen = 0 → fromId w' r')
    let rdHead (r' : RecW) : List Byte :=
      [r'.flags, r'.tlen, r'.idlen, r'.plen.extractLsb' 24 8, r'.plen.extractLsb' 16 8,
        r'.plen.extractLsb' 8 8, r'.plen.extractLsb' 0 8]
    let header (r' : RecW) : Prop :=
      (s.params.outCap < w.out.length + 7 → overflow) ∧
      (w.out.length + 7 ≤ s.params.outCap → fromType { w with out := w.out ++ rdHead r' } r')
    (r.ph = .hdr → go w { r with flags := b, ph := .tlen }) ∧
    (r.ph = .tlen → go w { r with tlen := b, plen := 0, k := 0, ph := .plen }) ∧
    (r.ph = .plen → r.k + 1 ≠ (if r.flags.getLsbD 4 then 1 else 4) →
      go w { r with plen := (r.plen <<< 8) ||| b.setWidth 32, k := r.k + 1 }) ∧
    (r.ph = .plen → r.k + 1 = (if r.flags.getLsbD 4 then 1 else 4) → r.flags.getLsbD 3 = true →
      go w { r with plen := (r.plen <<< 8) ||| b.setWidth 32, k := r.k + 1, ph := .idlen }) ∧
    (r.ph = .plen → r.k + 1 = (if r.flags.getLsbD 4 then 1 else 4) → r.flags.getLsbD 3 = false →
      header { r with plen := (r.plen <<< 8) ||| b.setWidth 32, k := r.k + 1, idlen := 0 }) ∧
    (r.ph = .idlen → header { r with idlen := b }) ∧
    ((r.ph = .type ∨ r.ph = .id ∨ r.ph = .pay) → s.params.outCap ≤ w.out.length → overflow) ∧
    ((r.ph = .type ∨ r.ph = .id ∨ r.ph = .pay) → w.out.length < s.params.outCap → r.cnt ≠ 1 →
      go { w with out := w.out ++ [b] } { r with cnt := r.cnt - 1 }) ∧
    (r.ph = .type → w.out.length < s.params.outCap → r.cnt = 1 →
      fromId { w with out := w.out ++ [b] } { r with cnt := 0 }) ∧
    (r.ph = .id → w.out.length < s.params.outCap → r.cnt = 1 →
      fromPay { w with out := w.out ++ [b] } { r with cnt := 0 }) ∧
    (r.ph = .pay → w.out.length < s.params.outCap → r.cnt = 1 → done { w with out := w.out ++ [b] })

/-- 42_ndef.md R230, R215: a whole message gives one RD per record. -/
def Obligations.NdefDecMessage : Prop :=
  ∀ (s : State) (rs : List NdefRecord), s.params.legal = true → s.started .ndefDec → isMessage rs →
    (∀ r ∈ rs, r.fits) → (rdBytes rs).length ≤ s.params.outCap →
    ∃ t, feed .ndefDec ((wireBytes rs).map .data) s = .next t ∧ t.opst = .doneOk ∧
      t.output = (rdBytes rs).map some ∧ t.outLen = BitVec.ofNat 32 (rdBytes rs).length ∧
      t.msgCount = 1 ∧ t.recCount = BitVec.ofNat 32 rs.length ∧
      t.inPos = BitVec.ofNat 32 (wireBytes rs).length ∧ t.result = 0 ∧ t.respCode = 0

/-- 42_ndef.md R236, R240: NDEF_ENC's byte, phase by phase (the header it emits: EncoderHeader). `done`,
`fromPay` and `fromId` say where the RD goes on once a field is finished. -/
def Obligations.NdefEncByteRule : Prop :=
  ∀ (s : State) (w : Work) (e : EncW) (b : Byte) (rest : List Entry),
    s.opst = .active w → w.cmd = .ndefEnc e → s.fifo = .data b :: rest →
    let go (w' : Work) (e' : EncW) : Prop :=
      exec .ndefEnc s = .next { s.afterByte rest with opst := .active { w' with cmd := .ndefEnc e' } }
    let done (w' : Work) : Prop :=
      (e.flags.getLsbD 6 = false → go { w' with recs := w.recs + 1 }
        { ph := .flg, flags := 0, tlen := 0, idlen := 0, plen := 0, k := 0, cnt := 0 }) ∧
      (e.flags.getLsbD 6 = true → exec .ndefEnc s = .next ((s.afterByte rest).succeed
        { w' with recs := w.recs + 1, msgs := 1 }))
    let fromPay (w' : Work) (e' : EncW) : Prop :=
      (e'.plen ≠ 0 → go w' { e' with ph := .pay, cnt := e'.plen }) ∧ (e'.plen = 0 → done w')
    let fromId (w' : Work) (e' : EncW) : Prop :=
      (e'.idlen ≠ 0 → go w' { e' with ph := .id, cnt := e'.idlen.setWidth 32 }) ∧
      (e'.idlen = 0 → fromPay w' e')
    (e.ph = .flg → go w { e with flags := b, ph := .tl }) ∧
    (e.ph = .tl → go w { e with tlen := b, ph := .idl }) ∧
    (e.ph = .idl → go w { e with idlen := b, plen := 0, k := 0, ph := .pl }) ∧
    (e.ph = .pl → e.k + 1 ≠ 4 → go w { e with plen := (e.plen <<< 8) ||| b.setWidth 32, k := e.k + 1 }) ∧
    ((e.ph = .type ∨ e.ph = .id ∨ e.ph = .pay) → s.params.outCap ≤ w.out.length →
      exec .ndefEnc s = .next ((s.afterByte rest).fail .outOverflow 0)) ∧
    ((e.ph = .type ∨ e.ph = .id ∨ e.ph = .pay) → w.out.length < s.params.outCap → e.cnt ≠ 1 →
      go { w with out := w.out ++ [b] } { e with cnt := e.cnt - 1 }) ∧
    (e.ph = .type → w.out.length < s.params.outCap → e.cnt = 1 →
      fromId { w with out := w.out ++ [b] } { e with cnt := 0 }) ∧
    (e.ph = .id → w.out.length < s.params.outCap → e.cnt = 1 →
      fromPay { w with out := w.out ++ [b] } { e with cnt := 0 }) ∧
    (e.ph = .pay → w.out.length < s.params.outCap → e.cnt = 1 → done { w with out := w.out ++ [b] })

/-- 42_ndef.md R237, R240, 30_encoding.md R110, R111: at the fourth PAYLOAD_LEN byte the wire header, with
SR and IL computed and the other flags copied, is one Append (40_host_actions.md R155), and the RD goes on
at its first non-empty field or is done. -/
def Obligations.EncoderHeader : Prop :=
  ∀ (s : State) (w : Work) (e : EncW) (b : Byte) (rest : List Entry) (plen : Word),
    s.opst = .active w → w.cmd = .ndefEnc e → e.ph = .pl → e.k = 3 → s.fifo = .data b :: rest →
    plen = (e.plen <<< 8) ||| b.setWidth 32 →
    let go (w' : Work) (e' : EncW) : Prop :=
      exec .ndefEnc s = .next { s.afterByte rest with opst := .active { w' with cmd := .ndefEnc e' } }
    let done (w' : Work) : Prop :=
      (e.flags.getLsbD 6 = false → go { w' with recs := w.recs + 1 }
        { ph := .flg, flags := 0, tlen := 0, idlen := 0, plen := 0, k := 0, cnt := 0 }) ∧
      (e.flags.getLsbD 6 = true → exec .ndefEnc s = .next ((s.afterByte rest).succeed
        { w' with recs := w.recs + 1, msgs := 1 }))
    let fromPay (w' : Work) (e' : EncW) : Prop :=
      (e'.plen ≠ 0 → go w' { e' with ph := .pay, cnt := e'.plen }) ∧ (e'.plen = 0 → done w')
    let fromId (w' : Work) (e' : EncW) : Prop :=
      (e'.idlen ≠ 0 → go w' { e' with ph := .id, cnt := e'.idlen.setWidth 32 }) ∧
      (e'.idlen = 0 → fromPay w' e')
    let fromType (w' : Work) (e' : EncW) : Prop :=
      (e'.tlen ≠ 0 → go w' { e' with ph := .type, cnt := e'.tlen.setWidth 32 }) ∧
      (e'.tlen = 0 → fromId w' e')
    ∃ hdr : Byte,
      (hdr.getLsbD 4 = true ↔ plen.toNat < 255) ∧
      (hdr.getLsbD 3 = true ↔ e.idlen ≠ 0) ∧
      (∀ i, i < 8 → i ≠ 3 → i ≠ 4 → hdr.getLsbD i = e.flags.getLsbD i) ∧
      let head : List Byte := [hdr, e.tlen]
        ++ (if plen.toNat < 255 then [plen.extractLsb' 0 8]
            else [plen.extractLsb' 24 8, plen.extractLsb' 16 8, plen.extractLsb' 8 8, plen.extractLsb' 0 8])
        ++ (if e.idlen ≠ 0 then [e.idlen] else [])
      (s.params.outCap < w.out.length + head.length →
        exec .ndefEnc s = .next ((s.afterByte rest).fail .outOverflow 0)) ∧
      (w.out.length + head.length ≤ s.params.outCap →
        fromType { w with out := w.out ++ head } { e with plen := plen, k := 4 })

/-- 42_ndef.md R236, R237, R240: a whole message of RDs gives its wire form. -/
def Obligations.NdefEncMessage : Prop :=
  ∀ (s : State) (rs : List NdefRecord), s.params.legal = true → s.started .ndefEnc → isMessage rs →
    (∀ r ∈ rs, r.describes) → (wireBytes (rs.map NdefRecord.canonize)).length ≤ s.params.outCap →
    ∃ t, feed .ndefEnc ((rdBytes rs).map .data) s = .next t ∧ t.opst = .doneOk ∧
      t.output = (wireBytes (rs.map NdefRecord.canonize)).map some ∧
      t.msgCount = 1 ∧ t.recCount = BitVec.ofNat 32 rs.length ∧
      t.inPos = BitVec.ofNat 32 (rdBytes rs).length ∧ t.result = 0 ∧ t.respCode = 0

/-- 42_ndef.md R241: encode then decode gives the same RDs; decode, encode, decode gives the records
back but for SR and IL. -/
def Obligations.NdefRoundTrip : Prop :=
  (∀ (s₁ s₂ : State) (rs : List NdefRecord), s₁.params.legal = true → s₂.params.legal = true →
    s₁.started .ndefEnc → s₂.started .ndefDec → isMessage rs →
    (∀ r ∈ rs, r.describes ∧ r.canonical) →
    (wireBytes rs).length ≤ s₁.params.outCap → (rdBytes rs).length ≤ s₂.params.outCap →
    ∃ (t₁ t₂ : State) (wire : List Byte),
      feed .ndefEnc ((rdBytes rs).map .data) s₁ = .next t₁ ∧ t₁.opst = .doneOk ∧
      t₁.output = wire.map some ∧
      feed .ndefDec (wire.map .data) s₂ = .next t₂ ∧ t₂.opst = .doneOk ∧
      t₂.output = (rdBytes rs).map some ∧ t₂.recCount = t₁.recCount ∧ t₂.msgCount = 1) ∧
  (∀ (s₁ s₂ s₃ : State) (rs : List NdefRecord), s₁.params.legal = true → s₂.params.legal = true →
    s₃.params.legal = true → s₁.started .ndefDec → s₂.started .ndefEnc → s₃.started .ndefDec →
    isMessage rs → (∀ r ∈ rs, r.fits) → (rdBytes rs).length ≤ s₁.params.outCap →
    (wireBytes (rs.map NdefRecord.canonize)).length ≤ s₂.params.outCap →
    (rdBytes rs).length ≤ s₃.params.outCap →
    ∃ (t₁ t₂ t₃ : State) (rd wire : List Byte),
      feed .ndefDec ((wireBytes rs).map .data) s₁ = .next t₁ ∧ t₁.opst = .doneOk ∧
      t₁.output = rd.map some ∧
      feed .ndefEnc (rd.map .data) s₂ = .next t₂ ∧ t₂.opst = .doneOk ∧ t₂.output = wire.map some ∧
      feed .ndefDec (wire.map .data) s₃ = .next t₃ ∧ t₃.opst = .doneOk ∧
      t₃.output = (rdBytes (rs.map NdefRecord.canonize)).map some ∧ t₃.recCount = t₁.recCount)

/-! TLV -/

/-- 44_tlv.md R272. -/
def Obligations.TlvTagRule : Prop :=
  ∀ (s : State) (w : Work) (t : TlvW) (r : RecW) (b : Byte) (rest : List Entry),
    s.opst = .active w → w.cmd = .tlvParse t r → t.ph = .tag → s.fifo = .data b :: rest →
    (b = 0xFE → exec .tlvParse s = .next ((s.afterByte rest).succeed w)) ∧
    (b = 0x00 → exec .tlvParse s = .next { s.afterByte rest with
      opst := .active { w with cmd := .tlvParse { t with ph := .nlen } r } }) ∧
    (b = 0x03 ∨ b = 0xFD → exec .tlvParse s = .next { s.afterByte rest with
      opst := .active { w with cmd := .tlvParse { t with tag := b, ph := .l0 } r } }) ∧
    (b ≠ 0x00 → b ≠ 0x03 → b ≠ 0xFD → b ≠ 0xFE →
      exec .tlvParse s = .next ((s.afterByte rest).fail .tlvBadTag 0))

/-- 44_tlv.md R273 to R278: lengths, discarded bytes and the ends of a value. `recByte` is the record
sub-machine (its own rules: NdefDecByteRule). -/
def Obligations.TlvLengthAndValueRules : Prop :=
  ∀ (s : State) (w : Work) (t : TlvW) (r : RecW) (b : Byte) (rest : List Entry),
    s.opst = .active w → w.cmd = .tlvParse t r → s.fifo = .data b :: rest →
    let go (t' : TlvW) (r' : RecW) : Prop :=
      exec .tlvParse s = .next { s.afterByte rest with opst := .active { w with cmd := .tlvParse t' r' } }
    let init : RecW := { ph := .hdr, flags := 0, tlen := 0, plen := 0, idlen := 0, k := 0, cnt := 0 }
    (t.ph = .nlen → go { t with ph := .tag } r) ∧
    (t.ph = .l0 → b = 0xFF → go { t with ph := .lx1 } r) ∧
    (t.ph = .lx1 → go { t with hi := b, ph := .lx2 } r) ∧
    (t.ph = .l0 → t.tag = 0xFD → b ≠ 0xFF → b ≠ 0x00 → go { t with rem := b.setWidth 16, ph := .pval } r) ∧
    (t.ph = .l0 → t.tag = 0xFD → b = 0x00 → go { t with rem := 0, ph := .tag } r) ∧
    (t.ph = .l0 → t.tag = 0x03 → b ≠ 0xFF → b ≠ 0x00 →
      go { t with rem := b.setWidth 16, ph := .nval } init) ∧
    (t.ph = .l0 → t.tag = 0x03 → b = 0x00 →
      exec .tlvParse s = .next ((s.afterByte rest).fail .ndefTruncated 0)) ∧
    (t.ph = .lx2 → t.tag = 0x03 → t.hi.toNat * 256 + b.toNat ≠ 0 →
      go { t with rem := BitVec.ofNat 16 (t.hi.toNat * 256 + b.toNat), ph := .nval } init) ∧
    (t.ph = .lx2 → t.tag = 0x03 → t.hi = 0x00 → b = 0x00 →
      exec .tlvParse s = .next ((s.afterByte rest).fail .ndefTruncated 0)) ∧
    (t.ph = .lx2 → t.tag = 0xFD → t.hi.toNat * 256 + b.toNat ≠ 0 →
      go { t with rem := BitVec.ofNat 16 (t.hi.toNat * 256 + b.toNat), ph := .pval } r) ∧
    (t.ph = .lx2 → t.tag = 0xFD → t.hi = 0x00 → b = 0x00 → go { t with rem := 0, ph := .tag } r) ∧
    (t.ph = .pval ∨ t.ph = .nskip → t.rem = 1 → go { t with rem := 0, ph := .tag } r) ∧
    (t.ph = .pval ∨ t.ph = .nskip → t.rem ≠ 1 → go { t with rem := t.rem - 1 } r) ∧
    (∀ w' r', t.ph = .nval → t.rem = 1 → recByte s.params.outCap w r b = .more w' r' →
      exec .tlvParse s = .next ((s.afterByte rest).fail .ndefTruncated 0)) ∧
    (∀ w' r', t.ph = .nval → t.rem ≠ 1 → recByte s.params.outCap w r b = .more w' r' →
      exec .tlvParse s = .next { s.afterByte rest with
        opst := .active { w' with cmd := .tlvParse { t with rem := t.rem - 1 } r' } }) ∧
    (∀ w' r', t.ph = .nval → recByte s.params.outCap w r b = .msgDone w' r' →
      exec .tlvParse s = .next { s.afterByte rest with
        opst := .active { w' with
          cmd := .tlvParse { t with rem := t.rem - 1, ph := if t.rem = 1 then .tag else .nskip } r' } }) ∧
    (t.ph = .nval → recByte s.params.outCap w r b = .over →
      exec .tlvParse s = .next ((s.afterByte rest).fail .outOverflow 0))

/-- 44_tlv.md R284: "TLV terminator" and "TLV corruption". -/
def Obligations.TlvStreams : Prop :=
  ∀ (s : State) (xs : List Tlv), s.params.legal = true → s.started .tlvParse → (∀ x ∈ xs, x.valid) →
    (rdBytes (xs.flatMap Tlv.records)).length ≤ s.params.outCap →
    (∃ t, feed .tlvParse ((xs.flatMap Tlv.wire ++ [0xFE]).map .data) s = .next t ∧ t.opst = .doneOk ∧
      t.output = (rdBytes (xs.flatMap Tlv.records)).map some ∧
      t.msgCount = BitVec.ofNat 32 (xs.map Tlv.messages).sum ∧
      t.recCount = BitVec.ofNat 32 (xs.flatMap Tlv.records).length ∧
      t.inPos = BitVec.ofNat 32 ((xs.flatMap Tlv.wire).length + 1) ∧ t.result = 0 ∧ t.respCode = 0) ∧
    (∃ t, feed .tlvParse ((xs.flatMap Tlv.wire ++ [0x01]).map .data) s = .next t ∧ t.opst = .doneErr ∧
      t.errCode = 0x40 ∧ t.msgCount = 0 ∧ t.outLen = 0 ∧
      t.errPos = BitVec.ofNat 32 ((xs.flatMap Tlv.wire).length + 1))

/-! URI -/

/-- 43_uri.md R251, R253, with the capacity of 40_host_actions.md R155. -/
def Obligations.UriExpRule : Prop :=
  ∀ (s : State) (w : Work) (ph : UriPhase) (rest : List Entry),
    s.opst = .active w → w.cmd = .uriExp ph →
    (∀ b pre, s.fifo = .data b :: rest → ph = .code → s.params.uriTable[b.toNat]? = some pre →
      w.out.length + pre.length ≤ s.params.outCap →
      exec .uriExp s = .next { s.afterByte rest with opst := .active { w with
        res := BitVec.ofNat 9 (256 + b.toNat)
        out := w.out ++ pre
        cmd := .uriExp .suf } }) ∧
    (∀ b pre, s.fifo = .data b :: rest → ph = .code → s.params.uriTable[b.toNat]? = some pre →
      s.params.outCap < w.out.length + pre.length →
      exec .uriExp s = .next ((s.afterByte rest).fail .outOverflow 0)) ∧
    (∀ b, s.fifo = .data b :: rest → ph = .code → s.params.uriTable.length ≤ b.toNat →
      w.out.length ≤ s.params.outCap →
      exec .uriExp s = .next { s.afterByte rest with opst := .active { w with
        res := BitVec.ofNat 9 b.toNat
        cmd := .uriExp .suf } }) ∧
    (∀ b, s.fifo = .data b :: rest → ph = .suf → w.out.length < s.params.outCap →
      exec .uriExp s = .next { s.afterByte rest with opst := .active { w with out := w.out ++ [b] } }) ∧
    (∀ b, s.fifo = .data b :: rest → ph = .suf → s.params.outCap ≤ w.out.length →
      exec .uriExp s = .next ((s.afterByte rest).fail .outOverflow 0)) ∧
    (s.fifo = .endMark :: rest → exec .uriExp s = .next (s.succeed w))

/-- 43_uri.md R251 to R253: a whole URI_EXP. That every legal URI_TABLE has a string for exactly the codes
below 0x24, and so sets FLAG for these alone, is the model's reading of 00_scope.md R8 (log 5). -/
def Obligations.UriExpExpands : Prop :=
  ∀ (s : State) (code : Byte) (suffix : List Byte), s.params.legal = true → s.started .uriExp →
    ((s.params.uriTable[code.toNat]?.getD []) ++ suffix).length ≤ s.params.outCap →
    ∃ t, feed .uriExp ((code :: suffix).map .data ++ [.endMark]) s = .next t ∧ t.opst = .doneOk ∧
      t.output = ((s.params.uriTable[code.toNat]?.getD []) ++ suffix).map some ∧
      t.result = BitVec.ofNat 9 ((if code.toNat < 0x24 then 256 else 0) + code.toNat) ∧
      t.inPos = BitVec.ofNat 32 (suffix.length + 1) ∧ t.msgCount = 0 ∧ t.recCount = 0 ∧ t.respCode = 0

/-- 43_uri.md R261: the byte and the end of URI_CMP. -/
def Obligations.UriCmpRule : Prop :=
  ∀ (s : State) (w : Work) (c : CmpW) (rest : List Entry),
    s.opst = .active w → w.cmd = .uriCmp c →
    (∀ b, s.fifo = .data b :: rest → c.buf.length < uriMaxP s.params →
      exec .uriCmp s = .next { s.afterByte rest with
        opst := .active { w with cmd := .uriCmp { c with buf := c.buf ++ [b] } } }) ∧
    (∀ b, s.fifo = .data b :: rest → uriMaxP s.params ≤ c.buf.length →
      exec .uriCmp s = .next { s.afterByte rest with
        opst := .active { w with cmd := .uriCmp { c with long := true } } }) ∧
    (∀ c0 : Nat, s.fifo = .endMark :: rest → c.long = false → c0 < 256 →
      s.params.uriTable[c0]? = some c.buf → (∀ d : Nat, d < c0 → s.params.uriTable[d]? ≠ some c.buf) →
      exec .uriCmp s = .next (s.succeed { w with res := BitVec.ofNat 9 (256 + c0) })) ∧
    (s.fifo = .endMark :: rest → (c.long = true ∨ ∀ d : Nat, s.params.uriTable[d]? ≠ some c.buf) →
      exec .uriCmp s = .next (s.succeed { w with res := 0 }))

/-- 43_uri.md R261, R262: a whole URI_CMP finds the least code of its input, or answers 0. -/
def Obligations.UriCmpFindsLeastCode : Prop :=
  ∀ (s : State) (bs : List Byte), s.params.legal = true → s.started .uriCmp →
    ∃ t, feed .uriCmp (bs.map .data ++ [.endMark]) s = .next t ∧ t.opst = .doneOk ∧ t.outLen = 0 ∧
      t.inPos = BitVec.ofNat 32 bs.length ∧ t.msgCount = 0 ∧ t.recCount = 0 ∧ t.respCode = 0 ∧
      (∀ c0 : Nat, s.params.uriTable[c0]? = some bs → (∀ d : Nat, d < c0 → s.params.uriTable[d]? ≠ some bs) →
        t.result = BitVec.ofNat 9 (256 + c0)) ∧
      ((∀ d : Nat, s.params.uriTable[d]? ≠ some bs) → t.result = 0)

/-! The whole machine -/

/-- 10_state.md R51 and the ranges of the other rules: every step keeps them, from every state that has
them. -/
def Obligations.InvariantPreserved : Prop :=
  ∀ s t : State, Inv s → step s = .next t → Inv t ∧ t.params = s.params

/-- The state after reset has the invariant, for every legal value of the parameters. -/
def Obligations.InvariantAtReset : Prop :=
  Inv State.reset ∧ ∀ p : Params, p.legal = true → Inv (State.resetWith p)

/-- 10_state.md R51: the listed invariants, read through the registers, in every state with Inv.
60_exceptions.md R300: "Every code not listed is never produced". -/
def Obligations.RegisterInvariants : Prop :=
  ∀ s : State, Inv s →
    (s.status.extractLsb' 8 8).toNat + (s.status.extractLsb' 16 8).toNat = s.params.inDepth ∧
    ((∀ w, s.opst ≠ .active w) → s.fifo = []) ∧
    (s.opst ≠ .doneOk → s.readReg .outLen = 0 ∧ s.readReg .msgCount = 0 ∧ s.readReg .recCount = 0 ∧
      s.readReg .result = 0 ∧ s.readReg .respCode = 0) ∧
    (s.opst ≠ .doneErr → s.readReg .err = 0 ∧ s.readReg .errPos = 0) ∧
    (s.readReg .outLen).toNat ≤ s.params.outCap ∧
    ((s.readReg .err).extractLsb' 0 8 ∈ ([0x00, 0x01, 0x02, 0x03, 0x04, 0x10, 0x11, 0x12, 0x13, 0x14, 0x15,
      0x16, 0x17, 0x18, 0x20, 0x21, 0x30, 0x31, 0x40, 0x41, 0x42, 0x50, 0x51] : List Byte))

/-- 10_state.md R41: the transitions of `opst`, instruction by instruction. -/
def Obligations.OpstTransitions : Prop :=
  ∀ (i : Instr) (s t : State), exec i s = .next t →
    (t.opst = .idle → s.opst = .idle ∨ ∃ v, i = .wCtrl v ∧ v.getLsbD 0 = true) ∧
    (∀ w', t.opst = .active w' →
      (∃ w, s.opst = .active w ∧ w'.command = w.command) ∨
      ((∀ w, s.opst ≠ .active w) ∧ ∃ v c, i = .wCmd v ∧ c.opcode = opcodeOf v ∧
        w' = initWork s.reqCode c)) ∧
    (t.opst = .doneOk → s.opst = .doneOk ∨ ∃ w, s.opst = .active w ∧ i = w.command.instr) ∧
    (t.opst = .doneErr → s.opst = .doneErr ∨
      (∃ w, s.opst = .active w ∧ (i = w.command.instr ∨ ∃ e, pushedEntry i = some e)) ∨
      ((∀ w, s.opst ≠ .active w) ∧ ∃ v, i = .wCmd v ∧ ∀ c : Command, c.opcode ≠ opcodeOf v))

/-- 20_memory.md R72: from DONE on, the results stand until a START or a reset. -/
def Obligations.ResultsStandAfterDone : Prop :=
  ∀ s t : State, (s.opst = .doneOk ∨ s.opst = .doneErr) →
    (∀ ev evs, s.host = ev :: evs → ev ≠ .hardReset ∧
      (∀ v, ev ≠ .write 0x010 v) ∧ (∀ v, v.getLsbD 0 = true → ev ≠ .write 0x014 v)) →
    step s = .next t →
    t.opst = s.opst ∧ t.lastOp = s.lastOp ∧ t.errCode = s.errCode ∧ t.errHost = s.errHost ∧
    t.errPos = s.errPos ∧ t.inPos = s.inPos ∧ t.outLen = s.outLen ∧ t.respCode = s.respCode ∧
    t.msgCount = s.msgCount ∧ t.recCount = s.recCount ∧ t.result = s.result ∧
    (t.reqCode ≠ s.reqCode → ∃ v evs, s.host = .write 0x038 v :: evs) ∧
    (∀ a, Memory.read t.out a = Memory.read s.out a)

/-- 20_memory.md R73: after a STATUS read with BUSY = 1 and IN_FREE = k, the host's next k pushes do not
overflow, whatever engine steps and other host events fall between them: reads, START, a soft or a
hardware reset, any write. (A transfer of another width has no meaning to go on from, R60.) -/
def Obligations.RoomGuarantee : Prop :=
  ∀ (s : State) (before : List Move) (ev : HostEvent) (e : Entry), Inv s →
    s.status.getLsbD 0 = true →
    (∀ bits off, .host (.otherWidth bits off) ∉ before) →
    (before.filter fun m => m.pushes.isSome).length < (s.status.extractLsb' 16 8).toNat →
    (Move.host ev).pushes = some e →
    ∃ u, runMoves before s = .next u ∧
      ((∃ w, u.opst = .active w ∧ hostEvent u ev = .next { u with fifo := u.fifo ++ [e] }) ∨
        ((∀ w, u.opst ≠ .active w) ∧ hostEvent u ev = .next { u with sticky := u.sticky ||| 0b010 }))

/-- 40_host_actions.md R144 (a push appends at the tail), R150 (a step removes the head), 10_state.md R42
(the FIFO): a push with room and an engine step that does not complete the command may be taken in either
order, with the same state after both. -/
def Obligations.PushCommutesWithEngineStep : Prop :=
  ∀ (s t : State) (w : Work) (i : Instr) (e : Entry), s.opst = .active w →
    s.fifo ≠ [] → s.fifo.length < s.params.inDepth → pushedEntry i = some e →
    exec w.command.instr s = .next t → (∃ w', t.opst = .active w') →
    andThen (exec i s) (exec w.command.instr) = exec i t
end

