-- ==== Sys2Proof/Laws/State.lean ====
section
/-! SUPPORT. One lemma per field per state update, true by unfolding, for simp. -/

namespace Sys2Proof.Machine

/-! `State.fail` -/

@[simp] theorem State.fail_params (s : State) (e : ErrCode) (c : Byte) :
    (s.fail e c).params = s.params := rfl

@[simp] theorem State.fail_opst (s : State) (e : ErrCode) (c : Byte) :
    (s.fail e c).opst = .doneErr := rfl

@[simp] theorem State.fail_fifo (s : State) (e : ErrCode) (c : Byte) :
    (s.fail e c).fifo = [] := rfl

@[simp] theorem State.fail_out (s : State) (e : ErrCode) (c : Byte) :
    (s.fail e c).out = s.out := rfl

@[simp] theorem State.fail_lastOp (s : State) (e : ErrCode) (c : Byte) :
    (s.fail e c).lastOp = s.lastOp := rfl

@[simp] theorem State.fail_sticky (s : State) (e : ErrCode) (c : Byte) :
    (s.fail e c).sticky = s.sticky := rfl

@[simp] theorem State.fail_errCode (s : State) (e : ErrCode) (c : Byte) :
    (s.fail e c).errCode = e.code := rfl

@[simp] theorem State.fail_errHost (s : State) (e : ErrCode) (c : Byte) :
    (s.fail e c).errHost = hostCodeOf e c := rfl

@[simp] theorem State.fail_errPos (s : State) (e : ErrCode) (c : Byte) :
    (s.fail e c).errPos = s.inPos := rfl

@[simp] theorem State.fail_inPos (s : State) (e : ErrCode) (c : Byte) :
    (s.fail e c).inPos = s.inPos := rfl

@[simp] theorem State.fail_outLen (s : State) (e : ErrCode) (c : Byte) :
    (s.fail e c).outLen = 0 := rfl

@[simp] theorem State.fail_reqCode (s : State) (e : ErrCode) (c : Byte) :
    (s.fail e c).reqCode = s.reqCode := rfl

@[simp] theorem State.fail_respCode (s : State) (e : ErrCode) (c : Byte) :
    (s.fail e c).respCode = 0 := rfl

@[simp] theorem State.fail_msgCount (s : State) (e : ErrCode) (c : Byte) :
    (s.fail e c).msgCount = 0 := rfl

@[simp] theorem State.fail_recCount (s : State) (e : ErrCode) (c : Byte) :
    (s.fail e c).recCount = 0 := rfl

@[simp] theorem State.fail_result (s : State) (e : ErrCode) (c : Byte) :
    (s.fail e c).result = 0 := rfl

@[simp] theorem State.fail_host (s : State) (e : ErrCode) (c : Byte) :
    (s.fail e c).host = s.host := rfl

@[simp] theorem State.fail_sched (s : State) (e : ErrCode) (c : Byte) :
    (s.fail e c).sched = s.sched := rfl

@[simp] theorem State.fail_readLog (s : State) (e : ErrCode) (c : Byte) :
    (s.fail e c).readLog = s.readLog := rfl

@[simp] theorem State.fail_draws (s : State) (e : ErrCode) (c : Byte) :
    (s.fail e c).draws = s.draws := rfl

/-! `State.succeed` -/

@[simp] theorem State.succeed_params (s : State) (w : Work) :
    (s.succeed w).params = s.params := rfl

@[simp] theorem State.succeed_opst (s : State) (w : Work) :
    (s.succeed w).opst = .doneOk := rfl

@[simp] theorem State.succeed_fifo (s : State) (w : Work) :
    (s.succeed w).fifo = [] := rfl

@[simp] theorem State.succeed_out (s : State) (w : Work) :
    (s.succeed w).out = Memory.writeBytes s.out outBase w.out := rfl

@[simp] theorem State.succeed_lastOp (s : State) (w : Work) :
    (s.succeed w).lastOp = s.lastOp := rfl

@[simp] theorem State.succeed_sticky (s : State) (w : Work) :
    (s.succeed w).sticky = s.sticky := rfl

@[simp] theorem State.succeed_errCode (s : State) (w : Work) :
    (s.succeed w).errCode = 0 := rfl

@[simp] theorem State.succeed_errHost (s : State) (w : Work) :
    (s.succeed w).errHost = 0 := rfl

@[simp] theorem State.succeed_errPos (s : State) (w : Work) :
    (s.succeed w).errPos = 0 := rfl

@[simp] theorem State.succeed_inPos (s : State) (w : Work) :
    (s.succeed w).inPos = s.inPos := rfl

@[simp] theorem State.succeed_outLen (s : State) (w : Work) :
    (s.succeed w).outLen = BitVec.ofNat 32 w.out.length := rfl

@[simp] theorem State.succeed_reqCode (s : State) (w : Work) :
    (s.succeed w).reqCode = s.reqCode := rfl

@[simp] theorem State.succeed_respCode (s : State) (w : Work) :
    (s.succeed w).respCode = w.echo := rfl

@[simp] theorem State.succeed_msgCount (s : State) (w : Work) :
    (s.succeed w).msgCount = w.msgs := rfl

@[simp] theorem State.succeed_recCount (s : State) (w : Work) :
    (s.succeed w).recCount = w.recs := rfl

@[simp] theorem State.succeed_result (s : State) (w : Work) :
    (s.succeed w).result = w.res := rfl

@[simp] theorem State.succeed_host (s : State) (w : Work) :
    (s.succeed w).host = s.host := rfl

@[simp] theorem State.succeed_sched (s : State) (w : Work) :
    (s.succeed w).sched = s.sched := rfl

@[simp] theorem State.succeed_readLog (s : State) (w : Work) :
    (s.succeed w).readLog = s.readLog := rfl

@[simp] theorem State.succeed_draws (s : State) (w : Work) :
    (s.succeed w).draws = s.draws := rfl

/-! `State.softReset` -/

@[simp] theorem State.softReset_params (s : State) :
    (s.softReset).params = s.params := rfl

@[simp] theorem State.softReset_opst (s : State) :
    (s.softReset).opst = .idle := rfl

@[simp] theorem State.softReset_fifo (s : State) :
    (s.softReset).fifo = [] := rfl

@[simp] theorem State.softReset_out (s : State) :
    (s.softReset).out = s.out := rfl

@[simp] theorem State.softReset_lastOp (s : State) :
    (s.softReset).lastOp = 0 := rfl

@[simp] theorem State.softReset_sticky (s : State) :
    (s.softReset).sticky = 0 := rfl

@[simp] theorem State.softReset_errCode (s : State) :
    (s.softReset).errCode = 0 := rfl

@[simp] theorem State.softReset_errHost (s : State) :
    (s.softReset).errHost = 0 := rfl

@[simp] theorem State.softReset_errPos (s : State) :
    (s.softReset).errPos = 0 := rfl

@[simp] theorem State.softReset_inPos (s : State) :
    (s.softReset).inPos = 0 := rfl

@[simp] theorem State.softReset_outLen (s : State) :
    (s.softReset).outLen = 0 := rfl

@[simp] theorem State.softReset_reqCode (s : State) :
    (s.softReset).reqCode = 0 := rfl

@[simp] theorem State.softReset_respCode (s : State) :
    (s.softReset).respCode = 0 := rfl

@[simp] theorem State.softReset_msgCount (s : State) :
    (s.softReset).msgCount = 0 := rfl

@[simp] theorem State.softReset_recCount (s : State) :
    (s.softReset).recCount = 0 := rfl

@[simp] theorem State.softReset_result (s : State) :
    (s.softReset).result = 0 := rfl

@[simp] theorem State.softReset_host (s : State) :
    (s.softReset).host = s.host := rfl

@[simp] theorem State.softReset_sched (s : State) :
    (s.softReset).sched = s.sched := rfl

@[simp] theorem State.softReset_readLog (s : State) :
    (s.softReset).readLog = s.readLog := rfl

@[simp] theorem State.softReset_draws (s : State) :
    (s.softReset).draws = s.draws := rfl

/-! `State.setSticky` -/

@[simp] theorem State.setSticky_params (s : State) (b : BitVec 3) :
    (s.setSticky b).params = s.params := rfl

@[simp] theorem State.setSticky_opst (s : State) (b : BitVec 3) :
    (s.setSticky b).opst = s.opst := rfl

@[simp] theorem State.setSticky_fifo (s : State) (b : BitVec 3) :
    (s.setSticky b).fifo = s.fifo := rfl

@[simp] theorem State.setSticky_out (s : State) (b : BitVec 3) :
    (s.setSticky b).out = s.out := rfl

@[simp] theorem State.setSticky_lastOp (s : State) (b : BitVec 3) :
    (s.setSticky b).lastOp = s.lastOp := rfl

@[simp] theorem State.setSticky_sticky (s : State) (b : BitVec 3) :
    (s.setSticky b).sticky = s.sticky ||| b := rfl

@[simp] theorem State.setSticky_errCode (s : State) (b : BitVec 3) :
    (s.setSticky b).errCode = s.errCode := rfl

@[simp] theorem State.setSticky_errHost (s : State) (b : BitVec 3) :
    (s.setSticky b).errHost = s.errHost := rfl

@[simp] theorem State.setSticky_errPos (s : State) (b : BitVec 3) :
    (s.setSticky b).errPos = s.errPos := rfl

@[simp] theorem State.setSticky_inPos (s : State) (b : BitVec 3) :
    (s.setSticky b).inPos = s.inPos := rfl

@[simp] theorem State.setSticky_outLen (s : State) (b : BitVec 3) :
    (s.setSticky b).outLen = s.outLen := rfl

@[simp] theorem State.setSticky_reqCode (s : State) (b : BitVec 3) :
    (s.setSticky b).reqCode = s.reqCode := rfl

@[simp] theorem State.setSticky_respCode (s : State) (b : BitVec 3) :
    (s.setSticky b).respCode = s.respCode := rfl

@[simp] theorem State.setSticky_msgCount (s : State) (b : BitVec 3) :
    (s.setSticky b).msgCount = s.msgCount := rfl

@[simp] theorem State.setSticky_recCount (s : State) (b : BitVec 3) :
    (s.setSticky b).recCount = s.recCount := rfl

@[simp] theorem State.setSticky_result (s : State) (b : BitVec 3) :
    (s.setSticky b).result = s.result := rfl

@[simp] theorem State.setSticky_host (s : State) (b : BitVec 3) :
    (s.setSticky b).host = s.host := rfl

@[simp] theorem State.setSticky_sched (s : State) (b : BitVec 3) :
    (s.setSticky b).sched = s.sched := rfl

@[simp] theorem State.setSticky_readLog (s : State) (b : BitVec 3) :
    (s.setSticky b).readLog = s.readLog := rfl

@[simp] theorem State.setSticky_draws (s : State) (b : BitVec 3) :
    (s.setSticky b).draws = s.draws := rfl

/-! `State.clearResults` -/

@[simp] theorem State.clearResults_params (s : State) (op : Byte) :
    (s.clearResults op).params = s.params := rfl

@[simp] theorem State.clearResults_opst (s : State) (op : Byte) :
    (s.clearResults op).opst = s.opst := rfl

@[simp] theorem State.clearResults_fifo (s : State) (op : Byte) :
    (s.clearResults op).fifo = s.fifo := rfl

@[simp] theorem State.clearResults_out (s : State) (op : Byte) :
    (s.clearResults op).out = s.out := rfl

@[simp] theorem State.clearResults_lastOp (s : State) (op : Byte) :
    (s.clearResults op).lastOp = op := rfl

@[simp] theorem State.clearResults_sticky (s : State) (op : Byte) :
    (s.clearResults op).sticky = s.sticky := rfl

@[simp] theorem State.clearResults_errCode (s : State) (op : Byte) :
    (s.clearResults op).errCode = 0 := rfl

@[simp] theorem State.clearResults_errHost (s : State) (op : Byte) :
    (s.clearResults op).errHost = 0 := rfl

@[simp] theorem State.clearResults_errPos (s : State) (op : Byte) :
    (s.clearResults op).errPos = 0 := rfl

@[simp] theorem State.clearResults_inPos (s : State) (op : Byte) :
    (s.clearResults op).inPos = 0 := rfl

@[simp] theorem State.clearResults_outLen (s : State) (op : Byte) :
    (s.clearResults op).outLen = 0 := rfl

@[simp] theorem State.clearResults_reqCode (s : State) (op : Byte) :
    (s.clearResults op).reqCode = s.reqCode := rfl

@[simp] theorem State.clearResults_respCode (s : State) (op : Byte) :
    (s.clearResults op).respCode = 0 := rfl

@[simp] theorem State.clearResults_msgCount (s : State) (op : Byte) :
    (s.clearResults op).msgCount = 0 := rfl

@[simp] theorem State.clearResults_recCount (s : State) (op : Byte) :
    (s.clearResults op).recCount = 0 := rfl

@[simp] theorem State.clearResults_result (s : State) (op : Byte) :
    (s.clearResults op).result = 0 := rfl

@[simp] theorem State.clearResults_host (s : State) (op : Byte) :
    (s.clearResults op).host = s.host := rfl

@[simp] theorem State.clearResults_sched (s : State) (op : Byte) :
    (s.clearResults op).sched = s.sched := rfl

@[simp] theorem State.clearResults_readLog (s : State) (op : Byte) :
    (s.clearResults op).readLog = s.readLog := rfl

@[simp] theorem State.clearResults_draws (s : State) (op : Byte) :
    (s.clearResults op).draws = s.draws := rfl

/-! `State.accept` -/

@[simp] theorem State.accept_params (s : State) (c : Command) :
    (s.accept c).params = s.params := rfl

@[simp] theorem State.accept_opst (s : State) (c : Command) :
    (s.accept c).opst = .active (initWork s.reqCode c) := rfl

@[simp] theorem State.accept_fifo (s : State) (c : Command) :
    (s.accept c).fifo = s.fifo := rfl

@[simp] theorem State.accept_out (s : State) (c : Command) :
    (s.accept c).out = s.out := rfl

@[simp] theorem State.accept_lastOp (s : State) (c : Command) :
    (s.accept c).lastOp = c.opcode := rfl

@[simp] theorem State.accept_sticky (s : State) (c : Command) :
    (s.accept c).sticky = s.sticky := rfl

@[simp] theorem State.accept_errCode (s : State) (c : Command) :
    (s.accept c).errCode = 0 := rfl

@[simp] theorem State.accept_errHost (s : State) (c : Command) :
    (s.accept c).errHost = 0 := rfl

@[simp] theorem State.accept_errPos (s : State) (c : Command) :
    (s.accept c).errPos = 0 := rfl

@[simp] theorem State.accept_inPos (s : State) (c : Command) :
    (s.accept c).inPos = 0 := rfl

@[simp] theorem State.accept_outLen (s : State) (c : Command) :
    (s.accept c).outLen = 0 := rfl

@[simp] theorem State.accept_reqCode (s : State) (c : Command) :
    (s.accept c).reqCode = s.reqCode := rfl

@[simp] theorem State.accept_respCode (s : State) (c : Command) :
    (s.accept c).respCode = 0 := rfl

@[simp] theorem State.accept_msgCount (s : State) (c : Command) :
    (s.accept c).msgCount = 0 := rfl

@[simp] theorem State.accept_recCount (s : State) (c : Command) :
    (s.accept c).recCount = 0 := rfl

@[simp] theorem State.accept_result (s : State) (c : Command) :
    (s.accept c).result = 0 := rfl

@[simp] theorem State.accept_host (s : State) (c : Command) :
    (s.accept c).host = s.host := rfl

@[simp] theorem State.accept_sched (s : State) (c : Command) :
    (s.accept c).sched = s.sched := rfl

@[simp] theorem State.accept_readLog (s : State) (c : Command) :
    (s.accept c).readLog = s.readLog := rfl

@[simp] theorem State.accept_draws (s : State) (c : Command) :
    (s.accept c).draws = s.draws := rfl

/-! `State.countByte` -/

@[simp] theorem State.countByte_params (s : State) :
    (s.countByte).params = s.params := rfl

@[simp] theorem State.countByte_opst (s : State) :
    (s.countByte).opst = s.opst := rfl

@[simp] theorem State.countByte_fifo (s : State) :
    (s.countByte).fifo = s.fifo := rfl

@[simp] theorem State.countByte_out (s : State) :
    (s.countByte).out = s.out := rfl

@[simp] theorem State.countByte_lastOp (s : State) :
    (s.countByte).lastOp = s.lastOp := rfl

@[simp] theorem State.countByte_sticky (s : State) :
    (s.countByte).sticky = s.sticky := rfl

@[simp] theorem State.countByte_errCode (s : State) :
    (s.countByte).errCode = s.errCode := rfl

@[simp] theorem State.countByte_errHost (s : State) :
    (s.countByte).errHost = s.errHost := rfl

@[simp] theorem State.countByte_errPos (s : State) :
    (s.countByte).errPos = s.errPos := rfl

@[simp] theorem State.countByte_inPos (s : State) :
    (s.countByte).inPos = s.inPos + 1 := rfl

@[simp] theorem State.countByte_outLen (s : State) :
    (s.countByte).outLen = s.outLen := rfl

@[simp] theorem State.countByte_reqCode (s : State) :
    (s.countByte).reqCode = s.reqCode := rfl

@[simp] theorem State.countByte_respCode (s : State) :
    (s.countByte).respCode = s.respCode := rfl

@[simp] theorem State.countByte_msgCount (s : State) :
    (s.countByte).msgCount = s.msgCount := rfl

@[simp] theorem State.countByte_recCount (s : State) :
    (s.countByte).recCount = s.recCount := rfl

@[simp] theorem State.countByte_result (s : State) :
    (s.countByte).result = s.result := rfl

@[simp] theorem State.countByte_host (s : State) :
    (s.countByte).host = s.host := rfl

@[simp] theorem State.countByte_sched (s : State) :
    (s.countByte).sched = s.sched := rfl

@[simp] theorem State.countByte_readLog (s : State) :
    (s.countByte).readLog = s.readLog := rfl

@[simp] theorem State.countByte_draws (s : State) :
    (s.countByte).draws = s.draws := rfl

/-! `State.returnValue` -/

@[simp] theorem State.returnValue_params (s : State) (v : Word) :
    (s.returnValue v).params = s.params := rfl

@[simp] theorem State.returnValue_opst (s : State) (v : Word) :
    (s.returnValue v).opst = s.opst := rfl

@[simp] theorem State.returnValue_fifo (s : State) (v : Word) :
    (s.returnValue v).fifo = s.fifo := rfl

@[simp] theorem State.returnValue_out (s : State) (v : Word) :
    (s.returnValue v).out = s.out := rfl

@[simp] theorem State.returnValue_lastOp (s : State) (v : Word) :
    (s.returnValue v).lastOp = s.lastOp := rfl

@[simp] theorem State.returnValue_sticky (s : State) (v : Word) :
    (s.returnValue v).sticky = s.sticky := rfl

@[simp] theorem State.returnValue_errCode (s : State) (v : Word) :
    (s.returnValue v).errCode = s.errCode := rfl

@[simp] theorem State.returnValue_errHost (s : State) (v : Word) :
    (s.returnValue v).errHost = s.errHost := rfl

@[simp] theorem State.returnValue_errPos (s : State) (v : Word) :
    (s.returnValue v).errPos = s.errPos := rfl

@[simp] theorem State.returnValue_inPos (s : State) (v : Word) :
    (s.returnValue v).inPos = s.inPos := rfl

@[simp] theorem State.returnValue_outLen (s : State) (v : Word) :
    (s.returnValue v).outLen = s.outLen := rfl

@[simp] theorem State.returnValue_reqCode (s : State) (v : Word) :
    (s.returnValue v).reqCode = s.reqCode := rfl

@[simp] theorem State.returnValue_respCode (s : State) (v : Word) :
    (s.returnValue v).respCode = s.respCode := rfl

@[simp] theorem State.returnValue_msgCount (s : State) (v : Word) :
    (s.returnValue v).msgCount = s.msgCount := rfl

@[simp] theorem State.returnValue_recCount (s : State) (v : Word) :
    (s.returnValue v).recCount = s.recCount := rfl

@[simp] theorem State.returnValue_result (s : State) (v : Word) :
    (s.returnValue v).result = s.result := rfl

@[simp] theorem State.returnValue_host (s : State) (v : Word) :
    (s.returnValue v).host = s.host := rfl

@[simp] theorem State.returnValue_sched (s : State) (v : Word) :
    (s.returnValue v).sched = s.sched := rfl

@[simp] theorem State.returnValue_readLog (s : State) (v : Word) :
    (s.returnValue v).readLog = s.readLog ++ [v] := rfl

@[simp] theorem State.returnValue_draws (s : State) (v : Word) :
    (s.returnValue v).draws = s.draws := rfl

/-! `State.placeWrite` -/

@[simp] theorem State.placeWrite_params (s : State) (off : Offset) (v : Word) :
    (s.placeWrite off v).params = s.params := rfl

@[simp] theorem State.placeWrite_opst (s : State) (off : Offset) (v : Word) :
    (s.placeWrite off v).opst = s.opst := rfl

@[simp] theorem State.placeWrite_fifo (s : State) (off : Offset) (v : Word) :
    (s.placeWrite off v).fifo = s.fifo := rfl

@[simp] theorem State.placeWrite_out (s : State) (off : Offset) (v : Word) :
    (s.placeWrite off v).out = s.out := rfl

@[simp] theorem State.placeWrite_lastOp (s : State) (off : Offset) (v : Word) :
    (s.placeWrite off v).lastOp = s.lastOp := rfl

@[simp] theorem State.placeWrite_sticky (s : State) (off : Offset) (v : Word) :
    (s.placeWrite off v).sticky = s.sticky := rfl

@[simp] theorem State.placeWrite_errCode (s : State) (off : Offset) (v : Word) :
    (s.placeWrite off v).errCode = s.errCode := rfl

@[simp] theorem State.placeWrite_errHost (s : State) (off : Offset) (v : Word) :
    (s.placeWrite off v).errHost = s.errHost := rfl

@[simp] theorem State.placeWrite_errPos (s : State) (off : Offset) (v : Word) :
    (s.placeWrite off v).errPos = s.errPos := rfl

@[simp] theorem State.placeWrite_inPos (s : State) (off : Offset) (v : Word) :
    (s.placeWrite off v).inPos = s.inPos := rfl

@[simp] theorem State.placeWrite_outLen (s : State) (off : Offset) (v : Word) :
    (s.placeWrite off v).outLen = s.outLen := rfl

@[simp] theorem State.placeWrite_reqCode (s : State) (off : Offset) (v : Word) :
    (s.placeWrite off v).reqCode = s.reqCode := rfl

@[simp] theorem State.placeWrite_respCode (s : State) (off : Offset) (v : Word) :
    (s.placeWrite off v).respCode = s.respCode := rfl

@[simp] theorem State.placeWrite_msgCount (s : State) (off : Offset) (v : Word) :
    (s.placeWrite off v).msgCount = s.msgCount := rfl

@[simp] theorem State.placeWrite_recCount (s : State) (off : Offset) (v : Word) :
    (s.placeWrite off v).recCount = s.recCount := rfl

@[simp] theorem State.placeWrite_result (s : State) (off : Offset) (v : Word) :
    (s.placeWrite off v).result = s.result := rfl

@[simp] theorem State.placeWrite_host (s : State) (off : Offset) (v : Word) :
    (s.placeWrite off v).host = .write off v :: s.host := rfl

@[simp] theorem State.placeWrite_sched (s : State) (off : Offset) (v : Word) :
    (s.placeWrite off v).sched = .host :: s.sched := rfl

@[simp] theorem State.placeWrite_readLog (s : State) (off : Offset) (v : Word) :
    (s.placeWrite off v).readLog = s.readLog := rfl

@[simp] theorem State.placeWrite_draws (s : State) (off : Offset) (v : Word) :
    (s.placeWrite off v).draws = s.draws := rfl

end Sys2Proof.Machine
end

