-- ==== Sys2Proof/Laws/Memory.lean ====
section
/-! SUPPORT. Laws of OUT's memory: reading after writing, the canonical form, what is listed. -/

namespace Sys2Proof.Machine

@[simp] theorem Memory.read_nil (a : Nat) : Memory.read [] a = none := rfl

theorem Memory.read_cons (x : Nat) (c : Byte) (m : Memory) (a : Nat) :
    Memory.read ((x, c) :: m) a = if x = a then some c else Memory.read m a := rfl

/-- A listed address is read as some byte, and only a listed one. -/
theorem Memory.read_isSome_iff (m : Memory) (a : Nat) :
    (Memory.read m a).isSome = true ↔ a ∈ m.map Prod.fst := by
  induction m with
  | nil => simp
  | cons p m ih =>
    obtain ⟨x, c⟩ := p
    by_cases h : x = a
    · simp [Memory.read_cons, h]
    · simp [Memory.read_cons, h, ih, Ne.symm h]

/-- A byte written is the byte read there. -/
@[simp] theorem Memory.read_write_same (m : Memory) (a : Nat) (b : Byte) :
    Memory.read (Memory.write m a b) a = some b := by
  induction m with
  | nil => simp [Memory.write, Memory.read_cons]
  | cons p m ih =>
    obtain ⟨x, c⟩ := p
    unfold Memory.write
    split
    · simp [Memory.read_cons]
    · split
      · simp [Memory.read_cons]
      · rename_i h1 h2
        simp [Memory.read_cons, Ne.symm h2, ih]

/-- A write leaves every other address as it was. -/
theorem Memory.read_write_other (m : Memory) (a x : Nat) (b : Byte) (h : x ≠ a) :
    Memory.read (Memory.write m a b) x = Memory.read m x := by
  induction m with
  | nil => simp [Memory.write, Memory.read_cons, Ne.symm h]
  | cons p m ih =>
    obtain ⟨y, c⟩ := p
    unfold Memory.write
    split
    · simp [Memory.read_cons, Ne.symm h]
    · split
      · rename_i h1 h2
        subst h2
        simp [Memory.read_cons, Ne.symm h]
      · simp [Memory.read_cons, ih]

/-- The addresses listed after a write: those before, and the one written. -/
theorem Memory.mem_addrs_write (m : Memory) (a x : Nat) (b : Byte) :
    x ∈ (Memory.write m a b).map Prod.fst ↔ x = a ∨ x ∈ m.map Prod.fst := by
  rw [← Memory.read_isSome_iff, ← Memory.read_isSome_iff]
  by_cases h : x = a
  · simp [h]
  · simp [Memory.read_write_other m a x b h, h]

/-- A write keeps the canonical form. -/
theorem Memory.write_wf (m : Memory) (a : Nat) (b : Byte) (h : Memory.wf m) :
    Memory.wf (Memory.write m a b) := by
  induction m with
  | nil => simp [Memory.write, Memory.wf]
  | cons p m ih =>
    obtain ⟨x, c⟩ := p
    have hx : ∀ y ∈ m.map Prod.fst, x < y := (List.pairwise_cons.1 h).1
    have ht : Memory.wf m := (List.pairwise_cons.1 h).2
    unfold Memory.write
    split
    · rename_i h1
      refine List.pairwise_cons.2 ⟨?_, h⟩
      intro y hy
      rcases List.mem_cons.1 hy with rfl | hy
      · exact h1
      · exact Nat.lt_trans h1 (hx y hy)
    · split
      · rename_i h1 h2
        subst h2
        exact List.pairwise_cons.2 ⟨hx, ht⟩
      · rename_i h1 h2
        refine List.pairwise_cons.2 ⟨?_, ih ht⟩
        intro y hy
        rcases (Memory.mem_addrs_write m a y b).1 hy with rfl | hy
        · exact Nat.lt_of_le_of_ne (Nat.le_of_not_lt h1) (Ne.symm h2)
        · exact hx y hy

/-- Writing a run keeps the canonical form. -/
theorem Memory.writeBytes_wf (m : Memory) (a : Nat) (bs : List Byte) (h : Memory.wf m) :
    Memory.wf (Memory.writeBytes m a bs) := by
  induction bs generalizing m a with
  | nil => exact h
  | cons b bs ih => exact ih _ _ (Memory.write_wf m a b h)

/-- A run leaves every address outside it as it was. -/
theorem Memory.read_writeBytes_outside (m : Memory) (a x : Nat) (bs : List Byte)
    (h : x < a ∨ a + bs.length ≤ x) :
    Memory.read (Memory.writeBytes m a bs) x = Memory.read m x := by
  induction bs generalizing m a with
  | nil => rfl
  | cons b bs ih =>
    simp only [List.length_cons] at h
    unfold Memory.writeBytes
    rw [ih _ _ (by omega), Memory.read_write_other _ _ _ _ (by omega)]

/-- The i-th byte of a run is read at its place. -/
theorem Memory.read_writeBytes_inside (m : Memory) (a i : Nat) (bs : List Byte) (h : i < bs.length) :
    Memory.read (Memory.writeBytes m a bs) (a + i) = some bs[i] := by
  induction bs generalizing m a i with
  | nil => exact absurd h (Nat.not_lt_zero i)
  | cons b bs ih =>
    unfold Memory.writeBytes
    cases i with
    | zero =>
      rw [Memory.read_writeBytes_outside _ _ _ _ (by omega)]
      simp
    | succ i =>
      have := ih (Memory.write m a b) (a + 1) i (by simpa using h)
      simpa [Nat.add_assoc, Nat.add_comm 1 i] using this

/-- The memory of the state after reset has the canonical form. -/
theorem State.reset_out_wf : Memory.wf State.reset.out := List.Pairwise.nil

end Sys2Proof.Machine
end

