-- ==== Sys2Proof/Laws/Engine.lean ====
section
/-! SUPPORT. What the shared operations and the engine step can do: one lemma per operation, and the
per-command dispatch of spec/40_host_actions.md R159 in one place. -/

namespace Sys2Proof.Machine

/-! Named operations -/

theorem Work.emit_fits (cap : Nat) (w : Work) (bs : List Byte) (k : Work → Verdict)
    (h : w.out.length + bs.length ≤ cap) :
    w.emit cap bs k = k { w with out := w.out ++ bs } := by
  simp [Work.emit, Nat.not_lt.2 h]

theorem Work.emit_over (cap : Nat) (w : Work) (bs : List Byte) (k : Work → Verdict)
    (h : cap < w.out.length + bs.length) : w.emit cap bs k = .bad .outOverflow := by
  simp [Work.emit, h]

theorem recEmit_fits (cap : Nat) (w : Work) (bs : List Byte) (k : Work → RecOut)
    (h : w.out.length + bs.length ≤ cap) :
    recEmit cap w bs k = k { w with out := w.out ++ bs } := by
  simp [recEmit, Nat.not_lt.2 h]

theorem State.settle_go (s : State) (w : Work) : s.settle (.go w) = { s with opst := .active w } := rfl

theorem State.settle_bad (s : State) (e : ErrCode) : s.settle (.bad e) = s.fail e 0 := rfl

theorem State.settle_done (s : State) (w : Work) : s.settle (.done w none) = s.succeed w := rfl

theorem State.settle_done_req (s : State) (w : Work) (q : Byte) :
    s.settle (.done w (some q)) = { s with reqCode := q }.succeed w := rfl

theorem State.engineStep_empty (s : State) (f : Byte → Verdict) (g : Verdict) (h : s.fifo = []) :
    s.engineStep f g = s := by
  simp [State.engineStep, h]

theorem State.engineStep_data (s : State) (f : Byte → Verdict) (g : Verdict) (b : Byte)
    (rest : List Entry) (h : s.fifo = .data b :: rest) :
    s.engineStep f g = ({ s with fifo := rest, inPos := s.inPos + 1 } : State).settle (f b) := by
  simp [State.engineStep, h, State.countByte]

theorem State.engineStep_endMark (s : State) (f : Byte → Verdict) (g : Verdict)
    (rest : List Entry) (h : s.fifo = .endMark :: rest) :
    s.engineStep f g = ({ s with fifo := rest } : State).settle g := by
  simp [State.engineStep, h]

theorem State.engineStep_abort (s : State) (f : Byte → Verdict) (g : Verdict) (c : Byte)
    (rest : List Entry) (h : s.fifo = .abort c :: rest) :
    s.engineStep f g = ({ s with fifo := rest } : State).fail .hostAbort c := by
  simp [State.engineStep, h]

/-- A push into an active command with room appends the entry. -/
theorem State.push_active (s : State) (w : Work) (e : Entry) (h : s.opst = .active w)
    (hr : s.fifo.length ≠ s.params.inDepth) : s.push e = { s with fifo := s.fifo ++ [e] } := by
  simp [State.push, h, hr]

theorem State.push_full (s : State) (w : Work) (e : Entry) (h : s.opst = .active w)
    (hr : s.fifo.length = s.params.inDepth) : s.push e = s.fail .inOverflow 0 := by
  simp [State.push, h, hr]

theorem State.push_inactive (s : State) (e : Entry) (h : ∀ w, s.opst ≠ .active w) :
    s.push e = s.setSticky inDrop := by
  unfold State.push
  split
  · rename_i w hw; exact absurd hw (h w)
  · rfl

theorem State.start_active (s : State) (w : Work) (op : Byte) (h : s.opst = .active w) :
    s.start op = s.setSticky cmdRej := by
  simp [State.start, h]

theorem State.start_known (s : State) (op : Byte) (c : Command) (h : ∀ w, s.opst ≠ .active w)
    (hc : Command.ofOpcode op = some c) : s.start op = s.accept c := by
  unfold State.start
  split
  · rename_i w hw; exact absurd hw (h w)
  · simp [hc]

theorem State.start_unknown (s : State) (op : Byte) (h : ∀ w, s.opst ≠ .active w)
    (hc : Command.ofOpcode op = none) : s.start op = (s.clearResults op).fail .illegalOp 0 := by
  unfold State.start
  split
  · rename_i w hw; exact absurd hw (h w)
  · simp [hc]

/-! Opcodes -/

@[simp] theorem Command.ofOpcode_opcode (c : Command) : Command.ofOpcode c.opcode = some c := by
  cases c <;> decide

theorem Command.opcode_of_ofOpcode (op : Byte) (c : Command) (h : Command.ofOpcode op = some c) :
    c.opcode = op := by
  have := List.find?_some h
  simpa using this

@[simp] theorem opcodeOf_word (c : Command) : opcodeOf c.word = c.opcode := by
  cases c <;> decide

/-- The engine's word for an active command decodes to that command. -/
@[simp] theorem decode_word (c : Command) : decode (.cmd c.word) = .ok c.instr := by
  simp [decode, decodeCommand]

/-! The per-command dispatch (40_host_actions.md R159) -/

/-- `OpByte[W.op](b)`. -/
def workByte (p : Params) (w : Work) (b : Byte) : Verdict :=
  match w.cmd with
  | .frmEnc x => frmEncByte w x b
  | .frmDec x => frmDecByte p.outCap w x b
  | .ackChk i => ackByte w i b
  | .ndefDec r => ndefDecByte p.outCap w r b
  | .ndefEnc e => ndefEncByte p.outCap w e b
  | .tlvParse t r => tlvByte p.outCap w t r b
  | .uriExp ph => uriExpByte p w ph b
  | .uriCmp c => uriCmpByte p w c b

/-- `OpEnd[W.op]()`. -/
def workEnd (p : Params) (w : Work) : Verdict :=
  match w.cmd with
  | .frmEnc x => frmEncEnd p.outCap w x
  | .frmDec _ => .bad .frmTruncated
  | .ackChk _ => .bad .ackTruncated
  | .ndefDec _ => .bad .ndefTruncated
  | .ndefEnc _ => .bad .ndefEncTruncated
  | .tlvParse t _ => tlvEnd t
  | .uriExp _ => .done w none
  | .uriCmp c => .done { w with res := uriCmpResult p c } none

/-- A command's instruction, run while that command is active, is the engine step of its OpByte and
OpEnd. -/
theorem exec_command_active (s : State) (w : Work) (h : s.opst = .active w) :
    exec w.command.instr s = .next (s.engineStep (workByte s.params w) (workEnd s.params w)) := by
  obtain ⟨o, m, n, r, e, cmd⟩ := w
  cases cmd <;>
    simp [Work.command, Command.instr, exec, execFrmEnc, execFrmDec, execAckChk, execNdefDec,
      execNdefEnc, execTlvParse, execUriExp, execUriCmp, h, workEnd] <;> rfl

/-- A command's instruction takes a Data entry: counted, then processed. -/
theorem exec_takes_byte (s : State) (w : Work) (c : Command) (b : Byte) (rest : List Entry)
    (h : s.opst = .active w) (hc : w.command = c) (hf : s.fifo = .data b :: rest) :
    exec c.instr s = .next ((s.afterByte rest).settle (workByte s.params w b)) := by
  subst hc
  rw [exec_command_active s w h, State.engineStep_data s _ _ b rest hf]
  rfl

/-- A command's instruction takes an `End` entry. -/
theorem exec_takes_end (s : State) (w : Work) (c : Command) (rest : List Entry)
    (h : s.opst = .active w) (hc : w.command = c) (hf : s.fifo = .endMark :: rest) :
    exec c.instr s = .next (({ s with fifo := rest } : State).settle (workEnd s.params w)) := by
  subst hc
  rw [exec_command_active s w h, State.engineStep_endMark s _ _ rest hf]

/-- A command's instruction takes an `Abort` entry. -/
theorem exec_takes_abort (s : State) (w : Work) (c : Command) (a : Byte) (rest : List Entry)
    (h : s.opst = .active w) (hc : w.command = c) (hf : s.fifo = .abort a :: rest) :
    exec c.instr s = .next (s.fail .hostAbort a) := by
  subst hc
  rw [exec_command_active s w h, State.engineStep_abort s _ _ a rest hf]
  rfl

/-- `End` never lets a command go on. -/
theorem workEnd_ends (p : Params) (w w' : Work) : workEnd p w ≠ .go w' := by
  unfold workEnd frmEncEnd tlvEnd Work.emit
  repeat' split
  all_goals simp

/-- Only FRM_ENC's success writes REQ_CODE (41_frame.md R174). -/
theorem workEnd_req (p : Params) (w w' : Work) (q : Byte) (h : workEnd p w = .done w' (some q)) :
    w.command = .frmEnc := by
  unfold workEnd at h
  split at h <;> rename_i hc
  · simp [Work.command, hc]
  all_goals simp [tlvEnd] at h
  split at h <;> simp at h

/-- The instruction that pushes an entry is `Push` of it (40_host_actions.md R144, R145). -/
theorem exec_pushed (i : Instr) (e : Entry) (s : State) (h : pushedEntry i = some e) :
    exec i s = .next (s.push e) := by
  cases i <;> simp [pushedEntry] at h <;> subst h <;> rfl

/-- A command's instruction does nothing while no command is active. -/
theorem exec_command_inactive (s : State) (c : Command) (h : ∀ w, s.opst ≠ .active w) :
    exec c.instr s = .next s := by
  cases c <;>
    simp only [Command.instr, exec, execFrmEnc, execFrmDec, execAckChk, execNdefDec,
      execNdefEnc, execTlvParse, execUriExp, execUriCmp]

/-- A command's instruction does nothing while another command is active. -/
theorem exec_command_other (s : State) (w : Work) (c : Command) (h : s.opst = .active w)
    (hc : w.command ≠ c) : exec c.instr s = .next s := by
  obtain ⟨o, m, n, r, e, cmd⟩ := w
  cases c <;> cases cmd <;>
    first
      | (exfalso; exact hc rfl)
      | simp [Command.instr, exec, execFrmEnc, execFrmDec, execAckChk, execNdefDec,
          execNdefEnc, execTlvParse, execUriExp, execUriCmp, h]

/-- Everything a command's instruction can do. -/
theorem exec_command_cases (s t : State) (c : Command) (h : exec c.instr s = .next t) :
    t = s ∨ ∃ w, s.opst = .active w ∧ w.command = c ∧
      t = s.engineStep (workByte s.params w) (workEnd s.params w) := by
  by_cases ha : ∃ w, s.opst = .active w
  · obtain ⟨w, hw⟩ := ha
    by_cases hc : w.command = c
    · subst hc
      rw [exec_command_active s w hw] at h
      exact Or.inr ⟨w, hw, rfl, by injection h with h; exact h.symm⟩
    · rw [exec_command_other s w c hw hc] at h
      exact Or.inl (by injection h with h; exact h.symm)
  · rw [exec_command_inactive s c (fun w hw => ha ⟨w, hw⟩)] at h
    exact Or.inl (by injection h with h; exact h.symm)

end Sys2Proof.Machine
end

