-- ==== Sys2Proof/Laws/Feed.lean ====
section
/-! SUPPORT. Feeding a stream to a command: one lemma per entry kind, and one for a run of bytes the
command takes without ending. -/

namespace Sys2Proof.Machine

/-- A verdict's working state belongs to the command c. -/
def Verdict.within (c : Command) : Verdict → Prop
  | .go w => w.command = c
  | .done w _ => w.command = c
  | .bad _ => True

theorem Work.emit_within (c : Command) (cap : Nat) (w : Work) (bs : List Byte) (k : Work → Verdict)
    (h : ∀ o, (k { w with out := o }).within c) : (w.emit cap bs k).within c := by
  unfold Work.emit
  split
  · trivial
  · exact h _

theorem frmDecByte_within (cap : Nat) (w : Work) (x : FrmDecW) (b : Byte)
    (hw : w.command = .frmDec) : (frmDecByte cap w x b).within .frmDec := by
  unfold frmDecByte
  split
  · unfold frmDecHdr
    split <;> (try split) <;> (try split) <;> trivial
  · exact Work.emit_within _ _ _ _ _ fun _ => rfl
  · split <;> trivial
  · split <;> trivial

theorem encNext_within (w : Work) (e : EncW) (after : EncPhase) :
    (encNext w e after).within .ndefEnc := by
  unfold encNext encRecordDone
  repeat' split
  all_goals rfl

theorem ndefEncByte_within (cap : Nat) (w : Work) (e : EncW) (b : Byte) :
    (ndefEncByte cap w e b).within .ndefEnc := by
  unfold ndefEncByte encPlen encField
  split <;>
    first
      | rfl
      | (dsimp only
         split
         · exact Work.emit_within _ _ _ _ _ fun _ => encNext_within _ _ _
         · rfl)
      | (refine Work.emit_within _ _ _ _ _ fun _ => ?_
         split
         · exact encNext_within _ _ _
         · rfl)

theorem tlvByte_within (cap : Nat) (w : Work) (t : TlvW) (r : RecW) (b : Byte)
    (hw : w.command = .tlvParse) : (tlvByte cap w t r b).within .tlvParse := by
  unfold tlvByte tlvTag startValue tlvSkip tlvValue tlvGo
  repeat' split
  all_goals trivial

/-- A command's byte keeps the working state that command's. -/
theorem workByte_within (p : Params) (w : Work) (b : Byte) :
    (workByte p w b).within w.command := by
  unfold workByte
  split <;> rename_i hcmd
  · have : w.command = .frmEnc := by simp [Work.command, hcmd]
    rw [this]; unfold frmEncByte; split <;> trivial
  · have : w.command = .frmDec := by simp [Work.command, hcmd]
    rw [this]; exact frmDecByte_within _ _ _ _ this
  · have : w.command = .ackChk := by simp [Work.command, hcmd]
    rw [this]; unfold ackByte; split <;> (try split) <;> trivial
  · have : w.command = .ndefDec := by simp [Work.command, hcmd]
    rw [this]; unfold ndefDecByte; split <;> trivial
  · have : w.command = .ndefEnc := by simp [Work.command, hcmd]
    rw [this]; exact ndefEncByte_within _ _ _ _
  · have : w.command = .tlvParse := by simp [Work.command, hcmd]
    rw [this]; exact tlvByte_within _ _ _ _ _ this
  · have : w.command = .uriExp := by simp [Work.command, hcmd]
    rw [this]; unfold uriExpByte
    split
    · exact Work.emit_within _ _ _ _ _ fun _ => rfl
    · exact Work.emit_within _ _ _ _ _ fun _ => this
  · have : w.command = .uriCmp := by simp [Work.command, hcmd]
    rw [this]; unfold uriCmpByte; split <;> trivial

theorem workByte_go_command (p : Params) (w w' : Work) (b : Byte) (h : workByte p w b = .go w') :
    w'.command = w.command := by
  have := workByte_within p w b
  rw [h] at this
  exact this

/-- No byte's verdict writes REQ_CODE. -/
theorem workByte_req (p : Params) (w w' : Work) (b q : Byte) : workByte p w b ≠ .done w' (some q) := by
  intro h
  unfold workByte frmEncByte frmDecByte frmDecHdr frmDecPay frmDecNext ackByte ndefDecByte ndefEncByte encPlen
    encField encNext encRecordDone tlvByte tlvTag tlvSkip tlvValue startValue tlvGo uriExpByte uriCmpByte
    Work.emit at h
  repeat' split at h
  all_goals simp at h
  all_goals (repeat' split at h)
  all_goals simp at h

/-! Fields of the pushing writes -/

theorem byteOf_setWidth (b : Byte) : byteOf (b.setWidth 32) = b := by
  apply BitVec.eq_of_getLsbD_eq
  intro i hi
  simp [byteOf, hi]
  omega

theorem endEntry_zero : endEntry 0 = .endMark := by decide

theorem endEntry_abort (c : Byte) (h : c ≠ 0) : endEntry (c.setWidth 32) = .abort c := by
  rw [endEntry, byteOf_setWidth, if_neg h]

/-- Pushing a well-formed entry as the host does pushes that entry. -/
theorem exec_pushInstr (e : Entry) (s : State) (h : e.wellFormed = true) :
    exec (pushInstr e) s = .next (s.push e) := by
  cases e with
  | data b => simp [pushInstr, exec, execWInData, byteOf_setWidth]
  | endMark => rw [pushInstr, exec, execWInEnd, endEntry_zero]
  | abort c =>
    have : c ≠ 0 := by simpa [Entry.wellFormed] using h
    rw [pushInstr, exec, execWInEnd, endEntry_abort c this]

/-! Feeding -/

@[simp] theorem feed_nil (c : Command) (s : State) : feed c [] s = .next s := rfl

/-- One entry fed to the active command, the FIFO empty before it. -/
theorem feed_cons (c : Command) (e : Entry) (es : List Entry) (s : State) (w : Work)
    (hs : s.opst = .active w) (hc : w.command = c) (hf : s.fifo = []) (hd : 0 < s.params.inDepth)
    (he : e.wellFormed = true) :
    feed c (e :: es) s =
      feed c es (({ s with fifo := [e] } : State).engineStep (workByte s.params w) (workEnd s.params w)) := by
  have hp : s.push e = { s with fifo := [e] } := by
    rw [State.push_active s w e hs (by simp [hf]; omega)]
    simp [hf]
  subst hc
  have hx := exec_command_active ({ s with fifo := [e] } : State) w hs
  show andThen (andThen (exec (pushInstr e) s) (exec w.command.instr)) (feed w.command es) = _
  rw [exec_pushInstr e s he, hp]
  simp only [andThen, hx]

theorem feed_data (c : Command) (b : Byte) (es : List Entry) (s : State) (w : Work)
    (hs : s.opst = .active w) (hc : w.command = c) (hf : s.fifo = []) (hd : 0 < s.params.inDepth) :
    feed c (.data b :: es) s =
      feed c es (({ s with inPos := s.inPos + 1 } : State).settle (workByte s.params w b)) := by
  rw [feed_cons c (.data b) es s w hs hc hf hd rfl, State.engineStep_data _ _ _ b [] rfl]
  obtain ⟨⟩ := s
  simp only at hf
  subst hf
  rfl

theorem feed_end (c : Command) (es : List Entry) (s : State) (w : Work)
    (hs : s.opst = .active w) (hc : w.command = c) (hf : s.fifo = []) (hd : 0 < s.params.inDepth) :
    feed c (.endMark :: es) s = feed c es (s.settle (workEnd s.params w)) := by
  rw [feed_cons c .endMark es s w hs hc hf hd rfl, State.engineStep_endMark _ _ _ [] rfl]
  obtain ⟨⟩ := s
  simp only at hf
  subst hf
  rfl

/-- The verdict of a run of bytes: that of its last byte, the ones before it all going on; none where an
earlier byte ends the command. -/
def stream (p : Params) : List Byte → Work → Option Verdict
  | [], w => some (.go w)
  | b :: bs, w =>
    match workByte p w b with
    | .go w' => stream p bs w'
    | .done w' q => if bs = [] then some (.done w' q) else none
    | .bad e => if bs = [] then some (.bad e) else none

/-- A verdict, then the rest of a run. -/
def Verdict.andStream (p : Params) (bs : List Byte) : Verdict → Option Verdict
  | .go w => stream p bs w
  | .done w q => if bs = [] then some (.done w q) else none
  | .bad e => if bs = [] then some (.bad e) else none

@[simp] theorem stream_nil (p : Params) (w : Work) : stream p [] w = some (.go w) := rfl

@[simp] theorem andStream_go (p : Params) (bs : List Byte) (w : Work) :
    (Verdict.go w).andStream p bs = stream p bs w := rfl

@[simp] theorem andStream_nil (p : Params) (v : Verdict) : v.andStream p [] = some v := by
  cases v <;> rfl

theorem stream_cons (p : Params) (b : Byte) (bs : List Byte) (w : Work) :
    stream p (b :: bs) w = (workByte p w b).andStream p bs := by
  cases h : workByte p w b <;> simp [stream, h, Verdict.andStream]

theorem stream_append (p : Params) (as bs : List Byte) (w w' : Work)
    (h : stream p as w = some (.go w')) : stream p (as ++ bs) w = stream p bs w' := by
  induction as generalizing w with
  | nil => simp at h; simp [h]
  | cons a as ih =>
    rw [List.cons_append, stream_cons]
    rw [stream_cons] at h
    cases hv : workByte p w a with
    | go w1 => rw [hv] at h; exact ih _ h
    | done w1 q => rw [hv] at h; simp only [Verdict.andStream] at h; split at h <;> simp at h
    | bad e => rw [hv] at h; simp only [Verdict.andStream] at h; split at h <;> simp at h

/-- The state after the command took n bytes and holds w. -/
def State.took (s : State) (n : Nat) (w : Work) : State :=
  { s with inPos := s.inPos + BitVec.ofNat 32 n, opst := .active w }

theorem stream_command (p : Params) (bs : List Byte) (w w' : Work)
    (h : stream p bs w = some (.go w')) : w'.command = w.command := by
  induction bs generalizing w with
  | nil => simp at h; rw [h]
  | cons b bs ih =>
    rw [stream_cons] at h
    cases hv : workByte p w b with
    | go w1 => rw [hv] at h; rw [ih _ h, workByte_go_command p w w1 b hv]
    | done w1 q => rw [hv] at h; simp only [Verdict.andStream] at h; split at h <;> simp at h
    | bad e => rw [hv] at h; simp only [Verdict.andStream] at h; split at h <;> simp at h

theorem inPos_step (x : Word) (n : Nat) :
    x + 1 + BitVec.ofNat 32 n = x + BitVec.ofNat 32 (n + 1) := by
  rw [BitVec.add_assoc]
  congr 1
  apply BitVec.eq_of_toNat_eq
  simp [BitVec.toNat_add, Nat.add_comm]

/-- Feeding a run of bytes that the command takes without ending. -/
theorem feed_go (c : Command) (bs : List Byte) (es : List Entry) (s : State) (w w' : Work)
    (hs : s.opst = .active w) (hc : w.command = c) (hf : s.fifo = []) (hd : 0 < s.params.inDepth)
    (h : stream s.params bs w = some (.go w')) :
    feed c (bs.map .data ++ es) s = feed c es (s.took bs.length w') := by
  induction bs generalizing s w with
  | nil =>
    simp at h
    subst h
    obtain ⟨⟩ := s
    simp only at hs
    subst hs
    simp [State.took]
  | cons b bs ih =>
    rw [stream_cons] at h
    cases hv : workByte s.params w b with
    | go w1 =>
      rw [hv] at h
      have hi := ih ({ s with inPos := s.inPos + 1, opst := .active w1 } : State) w1 rfl
        ((workByte_go_command s.params w w1 b hv).trans hc) hf hd h
      rw [List.map_cons, List.cons_append, feed_data c b _ s w hs hc hf hd, hv, State.settle_go]
      refine hi.trans ?_
      simp only [State.took, List.length_cons, inPos_step]
    | done w1 q => rw [hv] at h; simp only [Verdict.andStream] at h; split at h <;> simp at h
    | bad e => rw [hv] at h; simp only [Verdict.andStream] at h; split at h <;> simp at h

/-- Feeding a run of bytes whose last one ends the command, with success or an error. -/
theorem feed_last (c : Command) (bs : List Byte) (s : State) (w : Work) (v : Verdict)
    (hs : s.opst = .active w) (hc : w.command = c) (hf : s.fifo = []) (hd : 0 < s.params.inDepth)
    (h : stream s.params bs w = some v) (hb : bs ≠ []) :
    ∃ w', feed c (bs.map .data) s = .next ((s.took bs.length w').settle v) := by
  induction bs generalizing s w with
  | nil => exact absurd rfl hb
  | cons b bs ih =>
    rw [stream_cons] at h
    by_cases hbs : bs = []
    · subst hbs
      rw [andStream_nil] at h
      refine ⟨w, ?_⟩
      rw [List.map_cons, List.map_nil, feed_data c b _ s w hs hc hf hd]
      injection h with h
      rw [h, feed_nil]
      obtain ⟨⟩ := s
      simp only at hs
      subst hs
      rfl
    · cases hv : workByte s.params w b with
      | go w1 =>
        rw [hv] at h
        obtain ⟨w', hi⟩ := ih ({ s with inPos := s.inPos + 1, opst := .active w1 } : State) w1 rfl
          ((workByte_go_command s.params w w1 b hv).trans hc) hf hd h hbs
        refine ⟨w', ?_⟩
        rw [List.map_cons, feed_data c b _ s w hs hc hf hd, hv, State.settle_go]
        refine hi.trans ?_
        simp only [State.took, List.length_cons, inPos_step]
      | done w1 q => rw [hv] at h; simp [Verdict.andStream, hbs] at h
      | bad e => rw [hv] at h; simp [Verdict.andStream, hbs] at h

/-- A run of bytes that ends the command with success. -/
theorem feed_done (c : Command) (bs : List Byte) (s : State) (w w' : Work)
    (hs : s.opst = .active w) (hc : w.command = c) (hf : s.fifo = []) (hd : 0 < s.params.inDepth)
    (h : stream s.params bs w = some (.done w' none)) (hb : bs ≠ []) :
    feed c (bs.map .data) s =
      .next (({ s with inPos := s.inPos + BitVec.ofNat 32 bs.length } : State).succeed w') := by
  obtain ⟨w1, h1⟩ := feed_last c bs s w _ hs hc hf hd h hb
  rw [h1]
  rfl

/-- A run of bytes and then `End`. -/
theorem feed_go_end (c : Command) (bs : List Byte) (s : State) (w w' : Work)
    (hs : s.opst = .active w) (hc : w.command = c) (hf : s.fifo = []) (hd : 0 < s.params.inDepth)
    (h : stream s.params bs w = some (.go w')) :
    feed c (bs.map .data ++ [.endMark]) s =
      .next ((s.took bs.length w').settle (workEnd s.params w')) := by
  rw [feed_go c bs _ s w w' hs hc hf hd h,
    feed_end c [] (s.took bs.length w') w' rfl ((stream_command _ _ _ _ h).trans hc) hf hd]
  rfl

/-- What the valid output is after a success whose bytes fit. -/
theorem State.succeed_output (s : State) (w : Work) (h : w.out.length < 2 ^ 32) :
    (s.succeed w).output = w.out.map some := by
  have hm : w.out.length % 4294967296 = w.out.length := Nat.mod_eq_of_lt h
  apply List.ext_getElem
  · simp [State.output, hm]
  · intro i h1 h2
    have hi : i < w.out.length := by simpa using h2
    simp [State.output, State.outByte, hm, hi, Memory.read_writeBytes_inside s.out outBase i w.out hi]

end Sys2Proof.Machine
end

