-- ==== Sys2Proof/Laws/Record.lean ====
section
/-! SUPPORT. The record sub-machine (spec/42_ndef.md R212 to R216) run over the bytes of a record: its
fields one by one, then the whole record, then a message. -/

namespace Sys2Proof.Machine

/-! Big-endian assembly -/

/-- The four bytes of BE32, put together most significant first, give the number back. -/
theorem be32_assemble (v : Word) :
    be32Step (be32Step (be32Step (be32Step 0#32 (v.extractLsb' 24 8)) (v.extractLsb' 16 8))
      (v.extractLsb' 8 8)) (v.extractLsb' 0 8) = v := by
  apply BitVec.eq_of_getLsbD_eq
  intro i hi
  obtain ⟨q, j, rfl, hj, hq⟩ : ∃ q j, i = j + 8 * q ∧ j < 8 ∧ (q = 0 ∨ q = 1 ∨ q = 2 ∨ q = 3) :=
    ⟨i / 8, i % 8, by omega, by omega, by omega⟩
  have h16 : ¬ j + 16 < 8 := by omega
  have h24 : ¬ j + 24 < 8 := by omega
  rcases hq with rfl | rfl | rfl | rfl
  · have : j < 32 := by omega
    simp [be32Step, hj, this]
  · simp [be32Step, hj, hi, Nat.add_comm]
  · simp [be32Step, hj, hi, show j + 16 - 8 = j + 8 by omega, Nat.add_comm]
  · simp [be32Step, hj, hi, h16, h24, show j + 24 - 8 = j + 16 by omega,
      show j + 16 - 8 = j + 8 by omega, Nat.add_comm]

/-- One byte put together alone is itself. -/
theorem be32_assemble_byte (n : Nat) (h : n < 256) :
    be32Step 0#32 (BitVec.ofNat 8 n) = BitVec.ofNat 32 n := by
  apply BitVec.eq_of_toNat_eq
  have h1 : n % 256 = n := Nat.mod_eq_of_lt h
  have h2 : n % 4294967296 = n := Nat.mod_eq_of_lt (by omega)
  simp [be32Step, h1, h2]

@[simp] theorem be32_length (v : Word) : (be32 v).length = 4 := rfl

/-! The sub-machine over a run of bytes -/

/-- The answer of a run of bytes: that of its last byte, the ones before it all MORE; none where the
message or the capacity ends earlier. -/
def recStream (cap : Nat) : List Byte → Work → RecW → Option RecOut
  | [], w, r => some (.more w r)
  | b :: bs, w, r =>
    match recByte cap w r b with
    | .more w' r' => recStream cap bs w' r'
    | .msgDone w' r' => if bs = [] then some (.msgDone w' r') else none
    | .over => if bs = [] then some .over else none

/-- An answer, then the rest of a run. -/
def RecOut.andRun (cap : Nat) (bs : List Byte) : RecOut → Option RecOut
  | .more w r => recStream cap bs w r
  | .msgDone w r => if bs = [] then some (.msgDone w r) else none
  | .over => if bs = [] then some .over else none

@[simp] theorem recStream_nil (cap : Nat) (w : Work) (r : RecW) :
    recStream cap [] w r = some (.more w r) := rfl

@[simp] theorem andRun_more (cap : Nat) (bs : List Byte) (w : Work) (r : RecW) :
    (RecOut.more w r).andRun cap bs = recStream cap bs w r := rfl

@[simp] theorem andRun_nil (cap : Nat) (o : RecOut) : o.andRun cap [] = some o := by
  cases o <;> rfl

theorem recStream_cons (cap : Nat) (b : Byte) (bs : List Byte) (w : Work) (r : RecW) :
    recStream cap (b :: bs) w r = (recByte cap w r b).andRun cap bs := by
  cases h : recByte cap w r b <;> simp [recStream, h, RecOut.andRun]

theorem recStream_append (cap : Nat) (as bs : List Byte) (w w' : Work) (r r' : RecW)
    (h : recStream cap as w r = some (.more w' r')) :
    recStream cap (as ++ bs) w r = recStream cap bs w' r' := by
  induction as generalizing w r with
  | nil => simp at h; simp [h]
  | cons a as ih =>
    rw [List.cons_append, recStream_cons]
    rw [recStream_cons] at h
    cases hv : recByte cap w r a with
    | more w1 r1 => rw [hv] at h; exact ih _ _ h
    | msgDone w1 r1 => rw [hv] at h; simp only [RecOut.andRun] at h; split at h <;> simp at h
    | _ => rw [hv] at h; simp only [RecOut.andRun] at h; split at h <;> simp at h

/-! Variable fields -/

/-- In a variable-field phase a byte is a `FieldByte`. -/
theorem recByte_field (cap : Nat) (w : Work) (r : RecW) (b : Byte)
    (h : r.ph = .type ∨ r.ph = .id ∨ r.ph = .pay) : recByte cap w r b = fieldByte cap w r b := by
  unfold recByte
  rcases h with h | h | h <;> rw [h]

theorem word_pred (n : Nat) : BitVec.ofNat 32 (n + 1) - 1 = BitVec.ofNat 32 n := by
  rw [BitVec.ofNat_add]
  exact BitVec.add_sub_cancel _ _

theorem word_eq_zero (n : Nat) (h : n < 2 ^ 32) : BitVec.ofNat 32 n = 0 ↔ n = 0 := by
  constructor
  · intro h1
    have := congrArg BitVec.toNat h1
    simp only [BitVec.toNat_ofNat] at this
    rw [Nat.mod_eq_of_lt h] at this
    exact this
  · rintro rfl; rfl

/-- A whole variable field: its bytes are copied, then the next field is chosen (42_ndef.md R216). -/
theorem recStream_field (cap : Nat) (b : Byte) (bs tl : List Byte) (w : Work) (r : RecW)
    (hph : r.ph = .type ∨ r.ph = .id ∨ r.ph = .pay)
    (hc : r.cnt = BitVec.ofNat 32 (b :: bs).length) (hl : (b :: bs).length < 2 ^ 32)
    (hcap : w.out.length + (b :: bs).length ≤ cap) :
    recStream cap (b :: bs ++ tl) w r =
      (nextField { w with out := w.out ++ (b :: bs) } { r with cnt := 0 } r.ph).andRun cap tl := by
  induction bs generalizing b w r with
  | nil =>
    have h0 : r.cnt - 1 = 0 := by rw [hc]; exact word_pred 0
    rw [List.cons_append, recStream_cons, recByte_field cap w r b hph, fieldByte,
      recEmit_fits cap w [b] _ (by simpa using hcap), if_pos h0, h0]
    rfl
  | cons b' bs ih =>
    have h1 : r.cnt - 1 = BitVec.ofNat 32 (b' :: bs).length := by
      rw [hc]; exact word_pred (b' :: bs).length
    simp only [List.length_cons] at hl hcap h1
    have h0 : ¬ r.cnt - 1 = 0 := by
      rw [h1, word_eq_zero _ (by omega)]; omega
    rw [List.cons_append, recStream_cons, recByte_field cap w r b hph, fieldByte,
      recEmit_fits cap w [b] _ (by simp; omega), if_neg h0, andRun_more]
    rw [ih b' { w with out := w.out ++ [b] } { r with cnt := r.cnt - 1 } hph h1 (by simp; omega)
      (by simp; omega)]
    simp only [List.append_assoc, List.cons_append, List.nil_append]

/-- The payload, after the id field. -/
theorem run_after_id (cap : Nat) (w : Work) (r : RecW) (pay : List Byte)
    (hp : r.plen = BitVec.ofNat 32 pay.length) (hl : pay.length < 2 ^ 32)
    (hcap : w.out.length + pay.length ≤ cap) :
    (nextField w r .id).andRun cap pay = some (recordDone { w with out := w.out ++ pay } r) := by
  cases pay with
  | nil =>
    have h0 : r.plen = 0 := hp
    simp [nextField, h0]
  | cons b bs =>
    have h0 : r.plen ≠ 0 := by rw [hp, Ne, word_eq_zero _ hl]; simp
    have hn : nextField w r .id = .more w { r with ph := .pay, cnt := r.plen } := by
      rw [nextField, if_neg (by simp), if_neg (by simp), if_pos (by simp; exact h0)]
    have := recStream_field cap b bs [] w { r with ph := .pay, cnt := r.plen } (by simp) hp hl hcap
    rw [List.append_nil] at this
    rw [hn, andRun_more, this]
    simp [nextField, recordDone]

/-- The id and the payload, after the type field. -/
theorem run_after_type (cap : Nat) (w : Work) (r : RecW) (ident pay : List Byte)
    (hi : r.idlen = BitVec.ofNat 8 ident.length) (hil : ident.length < 256)
    (hp : r.plen = BitVec.ofNat 32 pay.length) (hl : pay.length < 2 ^ 32)
    (hcap : w.out.length + (ident ++ pay).length ≤ cap) :
    (nextField w r .type).andRun cap (ident ++ pay) =
      some (recordDone { w with out := w.out ++ (ident ++ pay) } r) := by
  simp only [List.length_append] at hcap
  cases ident with
  | nil =>
    have h0 : r.idlen = 0 := hi
    have hn : nextField w r .type = nextField w r .id := by
      simp [nextField, h0]
    rw [hn, List.nil_append]
    exact run_after_id cap w r pay hp hl (by simpa using hcap)
  | cons b bs =>
    have h1 : r.idlen.setWidth 32 = BitVec.ofNat 32 (b :: bs).length := by
      rw [hi]
      apply BitVec.eq_of_toNat_eq
      simp only [BitVec.toNat_setWidth, BitVec.toNat_ofNat]
      omega
    have h0 : r.idlen ≠ 0 := by
      intro h
      have := congrArg BitVec.toNat (hi.symm.trans h)
      simp at this
      simp only [List.length_cons] at hil
      omega
    have hn : nextField w r .type = .more w { r with ph := .id, cnt := r.idlen.setWidth 32 } := by
      rw [nextField, if_neg (by simp), if_pos ⟨Or.inr rfl, h0⟩]
    have := recStream_field cap b bs pay w { r with ph := .id, cnt := r.idlen.setWidth 32 } (by simp)
      h1 (by omega) (by omega)
    rw [hn, andRun_more, this]
    have h2 := run_after_id cap { w with out := w.out ++ (b :: bs) }
      { r with ph := .id, cnt := 0 } pay hp hl (by simp at hcap ⊢; omega)
    refine h2.trans ?_
    simp [recordDone]

/-- The variable fields, after the header. -/
theorem run_after_header (cap : Nat) (w : Work) (r : RecW) (type ident pay : List Byte)
    (ht : r.tlen = BitVec.ofNat 8 type.length) (htl : type.length < 256)
    (hi : r.idlen = BitVec.ofNat 8 ident.length) (hil : ident.length < 256)
    (hp : r.plen = BitVec.ofNat 32 pay.length) (hl : pay.length < 2 ^ 32)
    (hcap : w.out.length + (type ++ ident ++ pay).length ≤ cap) :
    (nextField w r .hdr).andRun cap (type ++ ident ++ pay) =
      some (recordDone { w with out := w.out ++ (type ++ ident ++ pay) } r) := by
  simp only [List.length_append] at hcap
  rw [List.append_assoc]
  cases type with
  | nil =>
    have h0 : r.tlen = 0 := ht
    have hn : nextField w r .hdr = nextField w r .type := by
      simp [nextField, h0]
    rw [hn, List.nil_append]
    exact run_after_type cap w r ident pay hi hil hp hl (by simp; simp at hcap; omega)
  | cons b bs =>
    have h1 : r.tlen.setWidth 32 = BitVec.ofNat 32 (b :: bs).length := by
      rw [ht]
      apply BitVec.eq_of_toNat_eq
      simp only [BitVec.toNat_setWidth, BitVec.toNat_ofNat]
      omega
    have h0 : r.tlen ≠ 0 := by
      intro h
      have := congrArg BitVec.toNat (ht.symm.trans h)
      simp at this
      simp only [List.length_cons] at htl
      omega
    have hn : nextField w r .hdr = .more w { r with ph := .type, cnt := r.tlen.setWidth 32 } := by
      rw [nextField, if_pos ⟨rfl, h0⟩]
    have := recStream_field cap b bs (ident ++ pay) w { r with ph := .type, cnt := r.tlen.setWidth 32 }
      (by simp) h1 (by omega) (by omega)
    rw [hn, andRun_more, this]
    have h2 := run_after_type cap { w with out := w.out ++ (b :: bs) }
      { r with ph := .type, cnt := 0 } ident pay hi hil hp hl (by simp at hcap ⊢; omega)
    refine h2.trans ?_
    simp [recordDone]

/-! A whole record -/

/-- The sub-machine's state where a record's header has been read and not yet output. -/
def headerState (r : NdefRecord) (k : Nat) (ph : RecPhase) : RecW :=
  { ph := ph, flags := r.flags, tlen := BitVec.ofNat 8 r.type.length,
    plen := BitVec.ofNat 32 r.payload.length, idlen := BitVec.ofNat 8 r.ident.length, k := k, cnt := 0 }

/-- `HeaderDone` and the variable fields of a record: its RD is appended. -/
theorem run_headerDone (cap : Nat) (w : Work) (rc : NdefRecord) (k : Nat) (ph : RecPhase)
    (hf : rc.fits) (hcap : w.out.length + rc.rd.length ≤ cap) :
    (headerDone cap w (headerState rc k ph)).andRun cap (rc.type ++ rc.ident ++ rc.payload) =
      some (recordDone { w with out := w.out ++ rc.rd } (headerState rc k ph)) := by
  obtain ⟨htl, hil, hl, -, -⟩ := hf
  simp [NdefRecord.rd] at hcap
  unfold headerDone
  rw [recEmit_fits _ _ _ _ (by simp [rdHeader]; omega)]
  have h := run_after_header cap
    { w with out := w.out ++ (rdHeader (headerState rc k ph).flags (headerState rc k ph).tlen
        (headerState rc k ph).idlen (headerState rc k ph).plen) }
    (headerState rc k ph) rc.type rc.ident rc.payload rfl htl rfl hil rfl hl
    (by simp [rdHeader]; omega)
  refine h.trans ?_
  simp [NdefRecord.rd, rdHeader, headerState]

/-- The whole wire form of a record gives its RD, and one record more (42_ndef.md R212 to R216). -/
theorem recStream_record (cap : Nat) (w : Work) (rc : NdefRecord) (hf : rc.fits)
    (hcap : w.out.length + rc.rd.length ≤ cap) :
    recStream cap rc.wire w recInit =
      some (if flagME rc.flags
        then .msgDone { w with out := w.out ++ rc.rd, recs := w.recs + 1, msgs := w.msgs + 1 } recInit
        else .more { w with out := w.out ++ rc.rd, recs := w.recs + 1 } recInit) := by
  have hfin : ∀ k ph, recordDone { w with out := w.out ++ rc.rd } (headerState rc k ph) =
      (if flagME rc.flags
        then .msgDone { w with out := w.out ++ rc.rd, recs := w.recs + 1, msgs := w.msgs + 1 } recInit
        else .more { w with out := w.out ++ rc.rd, recs := w.recs + 1 } recInit) := by
    intro k ph
    rfl
  obtain ⟨htl, hil, hl, hsr, hid⟩ := hf
  have hr := fun k ph => run_headerDone cap w rc k ph ⟨htl, hil, hl, hsr, hid⟩ hcap
  by_cases hS : flagSR rc.flags = true <;> by_cases hI : flagIL rc.flags = true
  · have hp := be32_assemble_byte rc.payload.length (hsr hS)
    have := hr 1 .idlen
    rw [hfin] at this
    rw [← this]
    simp [NdefRecord.wire, hS, hI, recStream_cons, recByte, recPlen, recInit, plenBytes, headerState, hp]
  · have hI' : flagIL rc.flags = false := by simpa using hI
    have hp := be32_assemble_byte rc.payload.length (hsr hS)
    have := hr 1 .plen
    rw [hfin] at this
    rw [← this]
    simp [NdefRecord.wire, hS, hI', recStream_cons, recByte, recPlen, recInit, plenBytes, headerState, hp,
      hid hI']
  · have hS' : flagSR rc.flags = false := by simpa using hS
    have hp := be32_assemble (BitVec.ofNat 32 rc.payload.length)
    have := hr 4 .idlen
    rw [hfin] at this
    rw [← this]
    simp [NdefRecord.wire, hS', hI, recStream_cons, recByte, recPlen, recInit, plenBytes, headerState, be32]
    rw [hp]
  · have hS' : flagSR rc.flags = false := by simpa using hS
    have hI' : flagIL rc.flags = false := by simpa using hI
    have hp := be32_assemble (BitVec.ofNat 32 rc.payload.length)
    have := hr 4 .plen
    rw [hfin] at this
    rw [← this]
    simp [NdefRecord.wire, hS', hI', recStream_cons, recByte, recPlen, recInit, plenBytes, headerState, be32,
      hid hI']
    rw [hp]

/-! A message -/

theorem length_rdBytes_cons (r : NdefRecord) (rs : List NdefRecord) :
    (rdBytes (r :: rs)).length = r.rd.length + (rdBytes rs).length := by
  simp [rdBytes]

/-- The wire form of a message ends it at its last byte, its records' RDs appended in order
(42_ndef.md R215). -/
theorem recStream_message (cap : Nat) (w : Work) (rs : List NdefRecord) (hm : isMessage rs)
    (hf : ∀ r ∈ rs, r.fits) (hcap : w.out.length + (rdBytes rs).length ≤ cap) :
    recStream cap (wireBytes rs) w recInit =
      some (.msgDone { w with
        out := w.out ++ rdBytes rs
        recs := w.recs + BitVec.ofNat 32 rs.length
        msgs := w.msgs + 1 } recInit) := by
  induction rs generalizing w with
  | nil => exact hm.elim
  | cons r rs ih =>
    rw [length_rdBytes_cons] at hcap
    have h1 := recStream_record cap w r (hf r (by simp)) (by omega)
    cases rs with
    | nil =>
      have hme : flagME r.flags = true := hm
      simpa [hme, wireBytes, rdBytes] using h1
    | cons r2 rs =>
      obtain ⟨hme, hm⟩ : flagME r.flags = false ∧ isMessage (r2 :: rs) := hm
      rw [hme, if_neg (by simp)] at h1
      have h2 := recStream_append cap _ (wireBytes (r2 :: rs)) _ _ _ _ h1
      rw [show wireBytes (r :: r2 :: rs) = r.wire ++ wireBytes (r2 :: rs) from rfl, h2,
        ih _ hm (fun x hx => hf x (List.mem_cons_of_mem _ hx)) (by simp; omega)]
      simp only [rdBytes, List.flatMap_cons, List.append_assoc, List.length_cons]
      rw [inPos_step]

/-! The answer does not depend on which command runs the sub-machine -/

/-- An answer with the command's own fields replaced. -/
def RecOut.withCmd (x : CmdWork) : RecOut → RecOut
  | .more w r => .more { w with cmd := x } r
  | .msgDone w r => .msgDone { w with cmd := x } r
  | .over => .over

theorem nextField_withCmd (x : CmdWork) (w : Work) (r : RecW) (after : RecPhase) :
    nextField { w with cmd := x } r after = (nextField w r after).withCmd x := by
  unfold nextField recordDone
  repeat' split
  all_goals rfl

theorem recEmit_withCmd (x : CmdWork) (cap : Nat) (w : Work) (bs : List Byte) (k : Work → RecOut)
    (h : ∀ w, k { w with cmd := x } = (k w).withCmd x) :
    recEmit cap { w with cmd := x } bs k = (recEmit cap w bs k).withCmd x := by
  unfold recEmit
  split
  · rfl
  · exact h { w with out := w.out ++ bs }

theorem recByte_withCmd (x : CmdWork) (cap : Nat) (w : Work) (r : RecW) (b : Byte) :
    recByte cap { w with cmd := x } r b = (recByte cap w r b).withCmd x := by
  unfold recByte recPlen headerDone fieldByte
  split
  · rfl
  · rfl
  · dsimp only
    split
    · split
      · rfl
      · exact recEmit_withCmd x _ _ _ _ fun w => nextField_withCmd x w _ _
    · rfl
  · exact recEmit_withCmd x _ _ _ _ fun w => nextField_withCmd x w _ _
  all_goals
    refine recEmit_withCmd x _ _ _ _ fun w => ?_
    split
    · exact nextField_withCmd x w _ _
    · rfl

/-- The sub-machine leaves the command's own fields alone. -/
theorem recByte_cmd (cap : Nat) (w : Work) (r : RecW) (b : Byte) :
    recByte cap w r b = (recByte cap w r b).withCmd w.cmd :=
  recByte_withCmd w.cmd cap w r b

end Sys2Proof.Machine
end

