-- ==== Sys2Proof/Laws/Message.lean ====
section
/-! SUPPORT. NDEF_DEC, NDEF_ENC and TLV_PARSE run over the bytes of messages. -/

namespace Sys2Proof.Machine

/-! NDEF_DEC -/

/-- What NDEF_DEC makes of the sub-machine's answer (42_ndef.md R230). -/
def RecOut.verdict : RecOut → Verdict
  | .more w r => .go { w with cmd := .ndefDec r }
  | .msgDone w r => .done { w with cmd := .ndefDec r } none
  | .over => .bad .outOverflow

/-- NDEF_DEC over a run of bytes is the sub-machine over it. -/
theorem stream_ndefDec (p : Params) (bs : List Byte) (w : Work) (r : RecW) (o : RecOut)
    (h : recStream p.outCap bs w r = some o) :
    stream p bs { w with cmd := .ndefDec r } = some o.verdict := by
  induction bs generalizing w r with
  | nil => simp at h; subst h; rfl
  | cons b bs ih =>
    rw [recStream_cons] at h
    have hb : workByte p { w with cmd := .ndefDec r } b =
        ((recByte p.outCap w r b).withCmd (.ndefDec r)).verdict := by
      rw [← recByte_withCmd]
      simp only [workByte, ndefDecByte]
      split <;> rename_i h1 <;> rw [h1] <;> rfl
    rw [stream_cons, hb]
    cases hv : recByte p.outCap w r b with
    | more w1 r1 => rw [hv] at h; exact ih w1 r1 h
    | msgDone w1 r1 =>
      rw [hv] at h
      by_cases hbs : bs = []
      · subst hbs; simp at h; subst h; rfl
      · simp [RecOut.andRun, hbs] at h
    | _ =>
      rw [hv] at h
      by_cases hbs : bs = []
      · subst hbs; simp at h; subst h; rfl
      · simp [RecOut.andRun, hbs] at h

/-! NDEF_ENC -/

theorem ndefEncByte_field (cap : Nat) (w : Work) (e : EncW) (b : Byte)
    (h : e.ph = .type ∨ e.ph = .id ∨ e.ph = .pay) : ndefEncByte cap w e b = encField cap w e b := by
  unfold ndefEncByte
  rcases h with h | h | h <;> rw [h]

/-- A whole variable field of an RD: its bytes are copied, then the next field is chosen
(42_ndef.md R236). -/
theorem stream_encField (p : Params) (b : Byte) (bs tl : List Byte) (w : Work) (e : EncW)
    (hph : e.ph = .type ∨ e.ph = .id ∨ e.ph = .pay)
    (hc : e.cnt = BitVec.ofNat 32 (b :: bs).length) (hl : (b :: bs).length < 2 ^ 32)
    (hcap : w.out.length + (b :: bs).length ≤ p.outCap) :
    stream p (b :: bs ++ tl) { w with cmd := .ndefEnc e } =
      (encNext { w with out := w.out ++ (b :: bs) } { e with cnt := 0 } e.ph).andStream p tl := by
  induction bs generalizing b w e with
  | nil =>
    have h0 : e.cnt - 1 = 0 := by rw [hc]; exact word_pred 0
    rw [List.cons_append, stream_cons]
    show (ndefEncByte p.outCap _ e b).andStream p _ = _
    rw [ndefEncByte_field p.outCap _ e b hph, encField, Work.emit_fits _ _ _ _ (by simpa using hcap),
      if_pos h0, h0]
    simp [encNext, encRecordDone]
  | cons b' bs ih =>
    have h1 : e.cnt - 1 = BitVec.ofNat 32 (b' :: bs).length := by
      rw [hc]; exact word_pred (b' :: bs).length
    simp only [List.length_cons] at hl hcap h1
    have h0 : ¬ e.cnt - 1 = 0 := by
      rw [h1, word_eq_zero _ (by omega)]; omega
    rw [List.cons_append, stream_cons]
    show (ndefEncByte p.outCap _ e b).andStream p _ = _
    rw [ndefEncByte_field p.outCap _ e b hph, encField, Work.emit_fits _ _ _ _ (by simp; omega),
      if_neg h0, andStream_go]
    have := ih b' { w with out := w.out ++ [b] } { e with cnt := e.cnt - 1 } hph h1 (by simp; omega)
      (by simp; omega)
    refine this.trans ?_
    simp only [List.append_assoc, List.cons_append, List.nil_append]

theorem encNext_cmd (x : CmdWork) (w : Work) (e : EncW) (after : EncPhase) :
    encNext { w with cmd := x } e after = encNext w e after := by
  simp [encNext, encRecordDone]

/-- The payload of an RD, after its id field. -/
theorem enc_after_id (p : Params) (w : Work) (e : EncW) (pay : List Byte)
    (hp : e.plen = BitVec.ofNat 32 pay.length) (hl : pay.length < 2 ^ 32)
    (hcap : w.out.length + pay.length ≤ p.outCap) :
    ∃ e', e'.flags = e.flags ∧ (encNext w e .id).andStream p pay =
      some (encRecordDone { w with out := w.out ++ pay } e') := by
  cases pay with
  | nil =>
    have h0 : e.plen = 0 := hp
    exact ⟨e, rfl, by simp [encNext, h0]⟩
  | cons b bs =>
    have h0 : e.plen ≠ 0 := by rw [hp, Ne, word_eq_zero _ hl]; simp
    have hn : encNext w e .id = .go { w with cmd := .ndefEnc { e with ph := .pay, cnt := e.plen } } := by
      rw [encNext, if_neg (by simp), if_neg (by simp), if_pos (by simp; exact h0)]
    have := stream_encField p b bs [] w { e with ph := .pay, cnt := e.plen } (by simp) hp hl hcap
    rw [List.append_nil] at this
    exact ⟨{ e with ph := .pay, cnt := 0 }, rfl, by rw [hn, andStream_go, this]; simp [encNext]⟩

/-- The id and the payload of an RD, after its type field. -/
theorem enc_after_type (p : Params) (w : Work) (e : EncW) (ident pay : List Byte)
    (hi : e.idlen = BitVec.ofNat 8 ident.length) (hil : ident.length < 256)
    (hp : e.plen = BitVec.ofNat 32 pay.length) (hl : pay.length < 2 ^ 32)
    (hcap : w.out.length + (ident ++ pay).length ≤ p.outCap) :
    ∃ e', e'.flags = e.flags ∧ (encNext w e .type).andStream p (ident ++ pay) =
      some (encRecordDone { w with out := w.out ++ (ident ++ pay) } e') := by
  simp only [List.length_append] at hcap
  cases ident with
  | nil =>
    have h0 : e.idlen = 0 := hi
    have hn : encNext w e .type = encNext w e .id := by
      simp [encNext, h0]
    rw [hn, List.nil_append]
    exact enc_after_id p w e pay hp hl (by simpa using hcap)
  | cons b bs =>
    have h1 : e.idlen.setWidth 32 = BitVec.ofNat 32 (b :: bs).length := by
      rw [hi]
      apply BitVec.eq_of_toNat_eq
      simp only [BitVec.toNat_setWidth, BitVec.toNat_ofNat]
      omega
    have h0 : e.idlen ≠ 0 := by
      intro h
      have := congrArg BitVec.toNat (hi.symm.trans h)
      simp at this
      simp only [List.length_cons] at hil
      omega
    have hn : encNext w e .type =
        .go { w with cmd := .ndefEnc { e with ph := .id, cnt := e.idlen.setWidth 32 } } := by
      rw [encNext, if_neg (by simp), if_pos ⟨Or.inr rfl, h0⟩]
    have := stream_encField p b bs pay w { e with ph := .id, cnt := e.idlen.setWidth 32 } (by simp)
      h1 (by omega) (by omega)
    obtain ⟨e', he, h2⟩ := enc_after_id p { w with out := w.out ++ (b :: bs) }
      { e with ph := .id, cnt := 0 } pay hp hl (by simp at hcap ⊢; omega)
    refine ⟨e', he, ?_⟩
    rw [hn, andStream_go, this]
    refine h2.trans ?_
    simp

/-- The variable fields of an RD, after its header. -/
theorem enc_after_header (p : Params) (w : Work) (e : EncW) (type ident pay : List Byte)
    (ht : e.tlen = BitVec.ofNat 8 type.length) (htl : type.length < 256)
    (hi : e.idlen = BitVec.ofNat 8 ident.length) (hil : ident.length < 256)
    (hp : e.plen = BitVec.ofNat 32 pay.length) (hl : pay.length < 2 ^ 32)
    (hcap : w.out.length + (type ++ ident ++ pay).length ≤ p.outCap) :
    ∃ e', e'.flags = e.flags ∧ (encNext w e .flg).andStream p (type ++ ident ++ pay) =
      some (encRecordDone { w with out := w.out ++ (type ++ ident ++ pay) } e') := by
  simp only [List.length_append] at hcap
  rw [List.append_assoc]
  cases type with
  | nil =>
    have h0 : e.tlen = 0 := ht
    have hn : encNext w e .flg = encNext w e .type := by
      simp [encNext, h0]
    rw [hn, List.nil_append]
    exact enc_after_type p w e ident pay hi hil hp hl (by simp; simp at hcap; omega)
  | cons b bs =>
    have h1 : e.tlen.setWidth 32 = BitVec.ofNat 32 (b :: bs).length := by
      rw [ht]
      apply BitVec.eq_of_toNat_eq
      simp only [BitVec.toNat_setWidth, BitVec.toNat_ofNat]
      omega
    have h0 : e.tlen ≠ 0 := by
      intro h
      have := congrArg BitVec.toNat (ht.symm.trans h)
      simp at this
      simp only [List.length_cons] at htl
      omega
    have hn : encNext w e .flg =
        .go { w with cmd := .ndefEnc { e with ph := .type, cnt := e.tlen.setWidth 32 } } := by
      rw [encNext, if_pos ⟨rfl, h0⟩]
    have := stream_encField p b bs (ident ++ pay) w { e with ph := .type, cnt := e.tlen.setWidth 32 }
      (by simp) h1 (by omega) (by omega)
    obtain ⟨e', he, h2⟩ := enc_after_type p { w with out := w.out ++ (b :: bs) }
      { e with ph := .type, cnt := 0 } ident pay hi hil hp hl (by simp at hcap ⊢; omega)
    refine ⟨e', he, ?_⟩
    rw [hn, andStream_go, this]
    refine h2.trans ?_
    simp

theorem srOf_ofNat (n : Nat) (h : n < 2 ^ 32) : srOf (BitVec.ofNat 32 n) = decide (n < 255) := by
  simp only [srOf, BitVec.toNat_ofNat, Nat.mod_eq_of_lt h]

theorem ilOf_ofNat (l : List Byte) (h : l.length < 256) :
    ilOf (BitVec.ofNat 8 l.length) = !l.isEmpty := by
  cases l with
  | nil => rfl
  | cons b bs =>
    have : BitVec.ofNat 8 (b :: bs).length ≠ 0 := by
      intro h0
      have := congrArg BitVec.toNat h0
      simp at this
      simp only [List.length_cons] at h
      omega
    simpa [ilOf] using this

/-- The encoder's header byte has the canonized record's flags. -/
theorem wireFlags_canonize (r : NdefRecord) (hd : r.describes) :
    wireFlags r.flags (BitVec.ofNat 8 r.ident.length) (BitVec.ofNat 32 r.payload.length) =
      r.canonize.flags := by
  unfold wireFlags NdefRecord.canonize
  rw [srOf_ofNat _ hd.2.2, ilOf_ofNat _ hd.2.1]
  by_cases h1 : r.payload.length < 255 <;> by_cases h2 : r.ident.isEmpty = true <;> simp [h1, h2, bitAt]

theorem canonize_flagSR (r : NdefRecord) :
    flagSR r.canonize.flags = decide (r.payload.length < 255) := by
  unfold NdefRecord.canonize
  by_cases h1 : r.payload.length < 255 <;> by_cases h2 : r.ident.isEmpty = true <;> simp [h1, h2, flagSR]

theorem canonize_flagIL (r : NdefRecord) : flagIL r.canonize.flags = !r.ident.isEmpty := by
  unfold NdefRecord.canonize
  by_cases h1 : r.payload.length < 255 <;> by_cases h2 : r.ident.isEmpty = true <;> simp [h1, h2, flagIL]

theorem canonize_flagME (r : NdefRecord) : flagME r.canonize.flags = flagME r.flags := by
  unfold NdefRecord.canonize
  by_cases h1 : r.payload.length < 255 <;> by_cases h2 : r.ident.isEmpty = true <;> simp [h1, h2, flagME]

/-- The canonized record has a wire form. -/
theorem canonize_fits (r : NdefRecord) (hd : r.describes) : r.canonize.fits := by
  refine ⟨hd.1, hd.2.1, hd.2.2, fun h => ?_, fun h => ?_⟩
  · rw [canonize_flagSR] at h
    have : r.payload.length < 255 := by simpa using h
    exact Nat.lt_succ_of_lt this
  · rw [canonize_flagIL] at h
    show r.ident = []
    exact List.isEmpty_iff.1 (by simpa using h)

/-- A canonical record is its own canonized form. -/
theorem canonize_canonical (r : NdefRecord) (hc : r.canonical) : r.canonize = r := by
  obtain ⟨h1, h2⟩ := hc
  have hf : ∀ f : Byte, (f &&& 0xE7) ||| (if flagSR f then 0x10 else 0) ||| (if flagIL f then 0x08 else 0) = f := by
    decide
  have := hf r.flags
  rw [h1, h2] at this
  obtain ⟨f, ty, id, pay⟩ := r
  by_cases h3 : pay.length < 255 <;> by_cases h4 : id.isEmpty = true <;>
    simpa [NdefRecord.canonize, h3, h4] using this

/-- The wire header the encoder emits is that of the canonized record. -/
theorem wireHeader_canonize (r : NdefRecord) (hd : r.describes) :
    wireHeader r.flags (BitVec.ofNat 8 r.type.length) (BitVec.ofNat 8 r.ident.length)
        (BitVec.ofNat 32 r.payload.length) ++ (r.type ++ r.ident ++ r.payload) = r.canonize.wire := by
  unfold wireHeader NdefRecord.wire
  rw [wireFlags_canonize r hd, srOf_ofNat _ hd.2.2, ilOf_ofNat _ hd.2.1, canonize_flagSR, canonize_flagIL]
  have he : (BitVec.ofNat 32 r.payload.length).extractLsb' 0 8 = BitVec.ofNat 8 r.payload.length := by
    apply BitVec.eq_of_toNat_eq
    simp
  rw [he]
  simp only [List.append_assoc]
  rfl

/-- A whole RD gives the wire form of its record, encoder's flags set (42_ndef.md R236, R237). -/
theorem stream_encRecord (p : Params) (w : Work) (rc : NdefRecord) (hd : rc.describes)
    (hcap : w.out.length + rc.canonize.wire.length ≤ p.outCap) :
    ∃ e', e'.flags = rc.flags ∧ stream p rc.rd { w with cmd := .ndefEnc encInit } =
      some (encRecordDone { w with out := w.out ++ rc.canonize.wire } e') := by
  obtain ⟨htl, hil, hl⟩ := hd
  have hw := wireHeader_canonize rc ⟨htl, hil, hl⟩
  have hp := be32_assemble (BitVec.ofNat 32 rc.payload.length)
  have hlen : (wireHeader rc.flags (BitVec.ofNat 8 rc.type.length) (BitVec.ofNat 8 rc.ident.length)
      (BitVec.ofNat 32 rc.payload.length)).length + (rc.type ++ rc.ident ++ rc.payload).length =
      rc.canonize.wire.length := by rw [← hw]; simp only [List.length_append]
  obtain ⟨e', he, h⟩ := enc_after_header p
    { w with out := w.out ++ (wireHeader rc.flags (BitVec.ofNat 8 rc.type.length)
        (BitVec.ofNat 8 rc.ident.length) (BitVec.ofNat 32 rc.payload.length)) }
    { ph := .pl, flags := rc.flags, tlen := BitVec.ofNat 8 rc.type.length,
      idlen := BitVec.ofNat 8 rc.ident.length, plen := BitVec.ofNat 32 rc.payload.length, k := 4, cnt := 0 }
    rc.type rc.ident rc.payload rfl htl rfl hil rfl hl (by simp only [List.length_append] at *; omega)
  refine ⟨e', he, ?_⟩
  have hrd : rc.rd = [rc.flags, BitVec.ofNat 8 rc.type.length, BitVec.ofNat 8 rc.ident.length] ++
      be32 (BitVec.ofNat 32 rc.payload.length) ++ (rc.type ++ rc.ident ++ rc.payload) := by
    simp [NdefRecord.rd]
  have hcap' : w.out.length + (wireHeader rc.flags (BitVec.ofNat 8 rc.type.length)
      (BitVec.ofNat 8 rc.ident.length) (BitVec.ofNat 32 rc.payload.length)).length ≤ p.outCap := by omega
  rw [hrd]
  have hp' : be32Step (be32Step (be32Step (be32Step 0
      ((BitVec.ofNat 32 rc.payload.length).extractLsb' 24 8))
      ((BitVec.ofNat 32 rc.payload.length).extractLsb' 16 8))
      ((BitVec.ofNat 32 rc.payload.length).extractLsb' 8 8))
      ((BitVec.ofNat 32 rc.payload.length).extractLsb' 0 8) = BitVec.ofNat 32 rc.payload.length := hp
  simp only [be32, List.cons_append, List.nil_append, stream_cons, workByte, ndefEncByte, encInit,
    andStream_go, encPlen, Nat.reduceAdd, Nat.reduceEqDiff, reduceIte, hp']
  rw [Work.emit_fits _ _ _ _ (by exact hcap'), ← hw, ← List.append_assoc w.out]
  refine Eq.trans ?_ h
  exact congrArg (Verdict.andStream p _) (encNext_cmd _
    { w with out := w.out ++ (wireHeader rc.flags (BitVec.ofNat 8 rc.type.length)
        (BitVec.ofNat 8 rc.ident.length) (BitVec.ofNat 32 rc.payload.length)) } _ _)

/-- The wire bytes of records, the encoder's flags set. -/
def canonWire (rs : List NdefRecord) : List Byte :=
  wireBytes (rs.map NdefRecord.canonize)

/-- The RDs of a message give its wire form (42_ndef.md R236, R240). -/
theorem stream_encMessage (p : Params) (w : Work) (rs : List NdefRecord) (hm : isMessage rs)
    (hd : ∀ r ∈ rs, r.describes) (hcap : w.out.length + (canonWire rs).length ≤ p.outCap) :
    ∃ e', stream p (rdBytes rs) { w with cmd := .ndefEnc encInit } =
      some (.done { w with
        out := w.out ++ canonWire rs
        recs := w.recs + BitVec.ofNat 32 rs.length
        msgs := 1
        cmd := .ndefEnc e' } none) := by
  induction rs generalizing w with
  | nil => exact hm.elim
  | cons r rs ih =>
    have hl : (canonWire (r :: rs)).length = r.canonize.wire.length + (canonWire rs).length := by
      simp [canonWire, wireBytes]
    rw [hl] at hcap
    obtain ⟨e', he, h1⟩ := stream_encRecord p w r (hd r (by simp)) (by omega)
    cases rs with
    | nil =>
      have hme : flagME r.flags = true := hm
      refine ⟨e', ?_⟩
      rw [show rdBytes [r] = r.rd from List.append_nil _, h1, encRecordDone, he, hme, if_pos rfl]
      simp [canonWire, wireBytes]
    | cons r2 rs =>
      obtain ⟨hme, hm⟩ : flagME r.flags = false ∧ isMessage (r2 :: rs) := hm
      rw [encRecordDone, he, hme, if_neg (by simp)] at h1
      have h2 := stream_append p _ (rdBytes (r2 :: rs)) _ _ h1
      obtain ⟨e2, h3⟩ := ih { w with out := w.out ++ r.canonize.wire, recs := w.recs + 1 } hm
        (fun x hx => hd x (List.mem_cons_of_mem _ hx)) (by simp; omega)
      refine ⟨e2, ?_⟩
      rw [show rdBytes (r :: r2 :: rs) = r.rd ++ rdBytes (r2 :: rs) from rfl]
      refine (h2.trans h3).trans ?_
      simp only [canonWire, wireBytes, List.map_cons, List.flatMap_cons, List.append_assoc, List.length_cons]
      rw [inPos_step]

/-! TLV_PARSE -/

theorem half_eq_zero (n : Nat) (h : n < 65536) : BitVec.ofNat 16 n = 0 ↔ n = 0 := by
  constructor
  · intro h1
    have := congrArg BitVec.toNat h1
    simp only [BitVec.toNat_ofNat] at this
    rw [Nat.mod_eq_of_lt h] at this
    exact this
  · rintro rfl; rfl

/-- The record sub-machine fed by TLV_PARSE, over value bytes that do not exhaust the value before the
message ends (44_tlv.md R276). -/
theorem stream_tlvValue (p : Params) (bs : List Byte) (w w' : Work) (t : TlvW) (r r' : RecW)
    (n : Nat) (hph : t.ph = .nval) (hrem : t.rem = BitVec.ofNat 16 (bs.length + n))
    (hlt : bs.length + n < 65536)
    (h : recStream p.outCap bs w r = some (.msgDone w' r')) :
    stream p bs { w with cmd := .tlvParse t r } =
      some (.go { w' with
        cmd := .tlvParse
          ({ t with rem := BitVec.ofNat 16 n, ph := if n = 0 then .tag else .nskip }) r' }) := by
  induction bs generalizing w r t with
  | nil => simp at h
  | cons b bs ih =>
    rw [recStream_cons] at h
    have hr : t.rem - 1 = BitVec.ofNat 16 (bs.length + n) := by
      rw [hrem, List.length_cons, Nat.add_right_comm, BitVec.ofNat_add]
      exact BitVec.add_sub_cancel _ _
    simp only [List.length_cons] at hlt
    have hb : workByte p { w with cmd := .tlvParse t r } b =
        tlvValue p.outCap { w with cmd := .tlvParse t r } t r b := by
      simp only [workByte, tlvByte, hph]
    rw [stream_cons, hb, tlvValue, recByte_withCmd]
    cases hv : recByte p.outCap w r b with
    | more w1 r1 =>
      rw [hv] at h
      have hne : bs.length ≠ 0 := by
        intro h0
        have : bs = [] := List.length_eq_zero_iff.1 h0
        subst this
        simp at h
      simp only [RecOut.withCmd, hr]
      rw [if_neg (by rw [half_eq_zero _ (by omega)]; omega)]
      exact ih w1 { t with rem := BitVec.ofNat 16 (bs.length + n) } r1 hph rfl (by omega) h
    | msgDone w1 r1 =>
      rw [hv] at h
      by_cases hbs : bs = []
      · subst hbs
        simp only [andRun_nil, Option.some.injEq, RecOut.msgDone.injEq] at h
        obtain ⟨rfl, rfl⟩ := h
        simp only [RecOut.withCmd, hr, tlvGo, List.length_nil, Nat.zero_add, andStream_nil]
        by_cases hn : n = 0
        · simp [hn]
        · have : BitVec.ofNat 16 n ≠ 0 := fun h0 => hn ((half_eq_zero n (by omega)).1 h0)
          rw [if_pos this, if_neg hn]
      · simp [RecOut.andRun, hbs] at h
    | _ =>
      rw [hv] at h
      by_cases hbs : bs = []
      · subst hbs; simp at h
      · simp [RecOut.andRun, hbs] at h

/-- The discarded value bytes of a Proprietary TLV, and those after a message's ME record
(44_tlv.md R275, R277). -/
theorem stream_tlvSkip (p : Params) (bs : List Byte) (w : Work) (t : TlvW) (r : RecW)
    (hph : t.ph = .pval ∨ t.ph = .nskip) (hne : bs ≠ []) (hrem : t.rem = BitVec.ofNat 16 bs.length)
    (hlt : bs.length < 65536) :
    stream p bs { w with cmd := .tlvParse t r } =
      some (.go { w with cmd := .tlvParse { t with rem := 0, ph := .tag } r }) := by
  induction bs generalizing w t with
  | nil => exact absurd rfl hne
  | cons b bs ih =>
    have hr : t.rem - 1 = BitVec.ofNat 16 bs.length := by
      rw [hrem, List.length_cons, BitVec.ofNat_add]
      exact BitVec.add_sub_cancel _ _
    have hb : workByte p { w with cmd := .tlvParse t r } b =
        tlvSkip { w with cmd := .tlvParse t r } t r := by
      rcases hph with h | h <;> simp only [workByte, tlvByte, h]
    rw [stream_cons, hb, tlvSkip, tlvGo, andStream_go, hr]
    cases bs with
    | nil => simp
    | cons b' bs =>
      simp only [List.length_cons] at hlt
      have h0 : ¬ BitVec.ofNat 16 (b' :: bs).length = 0 := by
        intro h0
        have := congrArg BitVec.toNat h0
        simp at this
        omega
      rw [if_neg h0]
      exact ih w { t with rem := BitVec.ofNat 16 (b' :: bs).length } hph (by simp) rfl (by simp; omega)

theorem startValue_cmd (x : CmdWork) (w : Work) (t : TlvW) (r : RecW) (len : BitVec 16) :
    startValue { w with cmd := x } t r len = startValue w t r len := by
  unfold startValue tlvGo
  rfl

/-- The tag and the length field of a Proprietary or NDEF Message TLV (44_tlv.md R271, R274). -/
theorem stream_tlvLength (p : Params) (tag : Byte) (long : Bool) (n : Nat) (tl : List Byte) (w : Work)
    (t : TlvW) (r : RecW) (hph : t.ph = .tag) (htag : tag = 0x03 ∨ tag = 0xFD)
    (hn : n < (if long then 65536 else 255)) :
    ∃ t' : TlvW, t'.tag = tag ∧
      stream p (tag :: (tlvLength long n ++ tl)) { w with cmd := .tlvParse t r } =
        (startValue w t' r (BitVec.ofNat 16 n)).andStream p tl := by
  have h0 : tag ≠ 0x00 := by rcases htag with rfl | rfl <;> decide
  have h1 : tag ≠ 0xFE := by rcases htag with rfl | rfl <;> decide
  have hb : workByte p { w with cmd := .tlvParse t r } tag =
      .go { w with cmd := .tlvParse { t with tag := tag, ph := .l0 } r } := by
    simp only [workByte, tlvByte, hph]
    rw [tlvTag, if_neg h0, if_neg h1, if_pos htag]
    rfl
  cases long with
  | false =>
    have hn' : n < 255 := by simpa using hn
    have h2 : BitVec.ofNat 8 n ≠ 0xFF := by
      intro h
      have := congrArg BitVec.toNat h
      simp at this
      omega
    have h3 : (BitVec.ofNat 8 n).setWidth 16 = BitVec.ofNat 16 n := by
      apply BitVec.eq_of_toNat_eq
      simp only [BitVec.toNat_setWidth, BitVec.toNat_ofNat]
      omega
    refine ⟨{ t with tag := tag, ph := .l0 }, rfl, ?_⟩
    rw [stream_cons, hb, andStream_go]
    show stream p (BitVec.ofNat 8 n :: tl) _ = _
    rw [stream_cons]
    simp only [workByte, tlvByte]
    rw [if_neg h2, h3, startValue_cmd]
  | true =>
    have hn' : n < 65536 := by simpa using hn
    have h3 : be16 (BitVec.ofNat 8 (n / 256)) (BitVec.ofNat 8 (n % 256)) = BitVec.ofNat 16 n := by
      apply BitVec.eq_of_toNat_eq
      simp only [be16, BitVec.toNat_ofNat]
      omega
    refine ⟨{ t with tag := tag, hi := BitVec.ofNat 8 (n / 256), ph := .lx2 }, rfl, ?_⟩
    rw [stream_cons, hb, andStream_go]
    show stream p (0xFF :: BitVec.ofNat 8 (n / 256) :: BitVec.ofNat 8 (n % 256) :: tl) _ = _
    simp only [stream_cons, workByte, tlvByte, tlvGo, andStream_go, reduceIte, h3, startValue_cmd]

theorem length_wireBytes_pos (rs : List NdefRecord) (h : isMessage rs) : wireBytes rs ≠ [] := by
  cases rs with
  | nil => exact h.elim
  | cons r rs => simp [wireBytes, NdefRecord.wire]

/-- A whole TLV before the terminator: an NDEF Message adds its records' RDs, a Proprietary or NULL TLV
adds nothing, and the next byte is a tag again (44_tlv.md R273, R275 to R277). -/
theorem stream_tlv (p : Params) (x : Tlv) (w : Work) (t : TlvW) (r : RecW) (hph : t.ph = .tag)
    (hv : x.valid) (hcap : w.out.length + (rdBytes x.records).length ≤ p.outCap) :
    ∃ t' r', t'.ph = .tag ∧
      stream p x.wire { w with cmd := .tlvParse t r } = some (.go { w with
        out := w.out ++ rdBytes x.records
        recs := w.recs + BitVec.ofNat 32 x.records.length
        msgs := w.msgs + BitVec.ofNat 32 x.messages
        cmd := .tlvParse t' r' }) := by
  cases x with
  | null l =>
    refine ⟨{ t with ph := .tag }, r, rfl, ?_⟩
    simp [Tlv.wire, Tlv.records, Tlv.messages, rdBytes, stream_cons, workByte, tlvByte, tlvTag, hph, tlvGo]
  | proprietary long value =>
    have hlt : value.length < 65536 := by
      have : value.length < (if long then 65536 else 255) := hv
      split at this <;> omega
    obtain ⟨t1, htag, h1⟩ := stream_tlvLength p 0xFD long value.length value w t r hph (Or.inr rfl) hv
    by_cases hne : value = []
    · subst hne
      refine ⟨{ t1 with rem := 0, ph := .tag }, r, rfl, ?_⟩
      refine h1.trans ?_
      simp [startValue, htag, tlvGo, Tlv.records, Tlv.messages, rdBytes]
    · have hlen : BitVec.ofNat 16 value.length ≠ 0 := by
        rw [Ne, half_eq_zero _ hlt]
        exact fun h => hne (List.length_eq_zero_iff.1 h)
      refine ⟨{ t1 with rem := 0, ph := .tag }, r, rfl, ?_⟩
      refine h1.trans ?_
      rw [startValue, if_pos htag, if_pos hlen, tlvGo, andStream_go]
      have := stream_tlvSkip p value w { t1 with rem := BitVec.ofNat 16 value.length, ph := .pval } r
        (Or.inl rfl) hne rfl hlt
      refine this.trans ?_
      simp [Tlv.records, Tlv.messages, rdBytes]
  | ndef long records rest =>
    obtain ⟨hlen, hm, hf⟩ := hv
    have hlt : (wireBytes records ++ rest).length < 65536 := by
      split at hlen <;> omega
    obtain ⟨t1, htag, h1⟩ := stream_tlvLength p 0x03 long (wireBytes records ++ rest).length
      (wireBytes records ++ rest) w t r hph (Or.inl rfl) hlen
    have hne : BitVec.ofNat 16 (wireBytes records ++ rest).length ≠ 0 := by
      rw [Ne, half_eq_zero _ hlt, List.length_append]
      exact fun h => length_wireBytes_pos records hm (List.length_eq_zero_iff.1 (by omega))
    have htag' : t1.tag ≠ 0xFD := by rw [htag]; decide
    rw [startValue, if_neg htag', if_neg hne, tlvGo, andStream_go] at h1
    have hrec := recStream_message p.outCap w records hm hf hcap
    have hval := stream_tlvValue p (wireBytes records) w _
      { t1 with rem := BitVec.ofNat 16 (wireBytes records ++ rest).length, ph := .nval } recInit recInit
      rest.length rfl (by rw [List.length_append]) (by rw [← List.length_append]; exact hlt) hrec
    have h2 := stream_append p _ rest _ _ hval
    by_cases hr : rest = []
    · subst hr
      refine ⟨_, recInit, ?_, h1.trans (h2.trans rfl)⟩
      simp
    · have hrl : rest.length ≠ 0 := fun h => hr (List.length_eq_zero_iff.1 h)
      have hsk := stream_tlvSkip p rest { w with
          out := w.out ++ rdBytes records
          recs := w.recs + BitVec.ofNat 32 records.length
          msgs := w.msgs + 1 }
        { t1 with rem := BitVec.ofNat 16 rest.length, ph := .nskip } recInit (Or.inr rfl) hr rfl
        (by simp only [List.length_append] at hlt; omega)
      rw [if_neg hrl] at h2
      exact ⟨_, recInit, rfl, h1.trans (h2.trans hsk)⟩

/-- A stream of TLVs, up to its terminator (44_tlv.md R284). -/
theorem stream_tlvs (p : Params) (xs : List Tlv) (w : Work) (t : TlvW) (r : RecW) (hph : t.ph = .tag)
    (hv : ∀ x ∈ xs, x.valid)
    (hcap : w.out.length + (rdBytes (xs.flatMap Tlv.records)).length ≤ p.outCap) :
    ∃ t' r', t'.ph = .tag ∧
      stream p (xs.flatMap Tlv.wire) { w with cmd := .tlvParse t r } = some (.go { w with
        out := w.out ++ rdBytes (xs.flatMap Tlv.records)
        recs := w.recs + BitVec.ofNat 32 (xs.flatMap Tlv.records).length
        msgs := w.msgs + BitVec.ofNat 32 (xs.map Tlv.messages).sum
        cmd := .tlvParse t' r' }) := by
  induction xs generalizing w t r with
  | nil => exact ⟨t, r, hph, by simp [rdBytes]⟩
  | cons x xs ih =>
    have hsplit : rdBytes ((x :: xs).flatMap Tlv.records) =
        rdBytes x.records ++ rdBytes (xs.flatMap Tlv.records) := by
      simp [rdBytes]
    rw [hsplit, List.length_append] at hcap
    obtain ⟨t1, r1, ht1, h1⟩ := stream_tlv p x w t r hph (hv x (by simp)) (by omega)
    obtain ⟨t2, r2, ht2, h2⟩ := ih { w with
        out := w.out ++ rdBytes x.records
        recs := w.recs + BitVec.ofNat 32 x.records.length
        msgs := w.msgs + BitVec.ofNat 32 x.messages } t1 r1 ht1
      (fun y hy => hv y (List.mem_cons_of_mem _ hy)) (by rw [List.length_append]; omega)
    refine ⟨t2, r2, ht2, ?_⟩
    rw [List.flatMap_cons, stream_append p _ _ _ _ h1]
    refine h2.trans ?_
    simp only [rdBytes, List.flatMap_append, List.append_assoc, List.flatMap_cons, List.length_append, List.map_cons, List.sum_cons,
      BitVec.ofNat_add, BitVec.add_assoc]

end Sys2Proof.Machine
end

