-- ==== Sys2Proof/Laws/FrameUri.lean ====
section
/-! SUPPORT. FRM_ENC, FRM_DEC, URI_EXP and URI_CMP run over their streams. -/

namespace Sys2Proof.Machine

/-! Sums -/

@[simp] theorem sumBytes_nil : sumBytes [] = 0 := rfl

@[simp] theorem sumBytes_cons (b : Byte) (bs : List Byte) :
    sumBytes (b :: bs) = b.toNat + sumBytes bs := by
  simp [sumBytes]

theorem sumBytes_append (as bs : List Byte) : sumBytes (as ++ bs) = sumBytes as + sumBytes bs := by
  simp [sumBytes]

theorem sumStep_toNat (s b : Byte) : (sumStep s b).toNat = (s.toNat + b.toNat) % 256 := by
  simp [sumStep]

theorem checksumOf_toNat (x : Byte) : (checksumOf x).toNat = (256 - x.toNat) % 256 := by
  simp [checksumOf]

/-! FRM_ENC -/

/-- FRM_ENC collects its payload (41_frame.md R172). -/
theorem stream_frmEnc (p : Params) (bs : List Byte) (w : Work) (x : FrmEncW)
    (hn : x.n + bs.length ≤ 254) :
    ∃ s : Byte, s.toNat = (x.sum.toNat + sumBytes bs) % 256 ∧
      stream p bs { w with cmd := .frmEnc x } =
        some (.go { w with cmd := .frmEnc { n := x.n + bs.length, sum := s, buf := x.buf ++ bs } }) := by
  induction bs generalizing x with
  | nil => exact ⟨x.sum, by simp; omega, by simp⟩
  | cons b bs ih =>
    simp only [List.length_cons] at hn
    obtain ⟨s, hs, h⟩ := ih { n := x.n + 1, sum := sumStep x.sum b, buf := x.buf ++ [b] } (by simp; omega)
    refine ⟨s, ?_, ?_⟩
    · rw [hs, sumStep_toNat, sumBytes_cons]
      omega
    · rw [stream_cons]
      show (frmEncByte _ x b).andStream p bs = _
      rw [frmEncByte, if_neg (by omega), andStream_go]
      refine h.trans ?_
      simp only [List.length_cons, List.append_assoc, List.cons_append, List.nil_append]
      rw [Nat.add_right_comm, Nat.add_assoc x.n]

/-- The frame FRM_ENC builds from its sums is the frame of the payload (41_frame.md R173; 30_encoding.md
R94, R95). -/
theorem hostFrame_spec (payload : List Byte) (s : Byte) (hl : payload.length ≤ 254)
    (hs : s.toNat = sumBytes payload % 256) :
    hostFrame payload.length s payload = specHostFrame payload := by
  have h1 : checksumOf (frameLen payload.length) =
      BitVec.ofNat 8 ((256 - (payload.length + 1)) % 256) := by
    simp only [checksumOf, frameLen, BitVec.toNat_ofNat]
    congr 2
    omega
  have h2 : checksumOf (sumStep 0xD4 s) = BitVec.ofNat 8 ((256 - (0xD4 + sumBytes payload) % 256) % 256) := by
    have : (sumStep 0xD4 s).toNat = (0xD4 + sumBytes payload) % 256 := by
      rw [sumStep_toNat, hs]
      simp
    rw [checksumOf, this]
  unfold hostFrame specHostFrame
  rw [h1, h2]
  rfl

@[simp] theorem specHostFrame_length (payload : List Byte) :
    (specHostFrame payload).length = payload.length + 8 := by
  simp [specHostFrame]

/-! FRM_DEC -/

/-- FRM_DEC copies its data bytes (41_frame.md R182). -/
theorem stream_frmDecPay (p : Params) (b : Byte) (bs : List Byte) (w : Work) (x : FrmDecW)
    (hph : x.ph = .pay) (hrem : x.rem = (b :: bs).length)
    (hcap : w.out.length + (b :: bs).length ≤ p.outCap) :
    ∃ s : Byte, s.toNat = (x.sum.toNat + sumBytes (b :: bs)) % 256 ∧
      stream p (b :: bs) { w with cmd := .frmDec x } =
        some (.go { w with
          out := w.out ++ (b :: bs)
          cmd := .frmDec { x with sum := s, rem := 0, ph := .dcs } }) := by
  induction bs generalizing b w x with
  | nil =>
    refine ⟨sumStep x.sum b, by rw [sumStep_toNat]; simp, ?_⟩
    rw [stream_cons]
    show (frmDecByte p.outCap _ x b).andStream p [] = _
    simp only [frmDecByte, hph, frmDecPay, hrem, List.length_cons, List.length_nil]
    rw [Work.emit_fits _ _ _ _ (by exact hcap)]
    simp
  | cons b' bs ih =>
    simp only [List.length_cons] at hrem hcap
    obtain ⟨s, hs, h⟩ := ih b' { w with out := w.out ++ [b] }
      { x with sum := sumStep x.sum b, rem := x.rem - 1 } hph (by simp; omega) (by simp; omega)
    refine ⟨s, ?_, ?_⟩
    · rw [hs, sumStep_toNat, sumBytes_cons b]
      omega
    · rw [stream_cons]
      show (frmDecByte p.outCap _ x b).andStream p _ = _
      simp only [frmDecByte, hph, frmDecPay]
      rw [Work.emit_fits _ _ _ _ (by simp; omega), if_neg (by omega), andStream_go]
      simp only [hph] at h
      refine h.trans ?_
      simp only [List.append_assoc, List.cons_append, List.nil_append]

/-- FRM_DEC's header, up to the echo (41_frame.md R180). -/
theorem stream_frmDecHeader (p : Params) (len echo : Byte) (tl : List Byte) (w : Work) (x : FrmDecW)
    (hx : x.ph = .hdr ∧ x.i = 0 ∧ x.exp = echo) (hlen : 2 ≤ len.toNat) :
    ∃ i : Nat, stream p (0x00 :: 0x00 :: 0xFF :: len :: BitVec.ofNat 8 ((256 - len.toNat) % 256) :: 0xD5 ::
        echo :: tl) { w with cmd := .frmDec x } =
      stream p tl { w with
        echo := echo
        cmd := .frmDec (FrmDecW.mk (phaseAfterHeader (len.toNat - 2)) i len (sumStep 0xD5 echo) echo
          (len.toNat - 2)) } := by
  obtain ⟨ph, i, l, s, e, rem⟩ := x
  obtain ⟨h1, h2, h3⟩ := hx
  simp only at h1 h2 h3
  subst h1 h2 h3
  have hz : sumsToZero len (BitVec.ofNat 8 ((256 - len.toNat) % 256)) = true := by
    have := len.isLt
    simp only [sumsToZero, BitVec.toNat_ofNat, beq_iff_eq]
    omega
  have h4 : ¬ len.toNat < 2 := by omega
  refine ⟨6, ?_⟩
  simp [stream_cons, workByte, frmDecByte, frmDecHdr, frmDecNext, hz, h4]

@[simp] theorem specDeviceFrame_length (req : Byte) (data : List Byte) :
    (specDeviceFrame req data).length = data.length + 9 := by
  simp [specDeviceFrame]

/-- FRM_DEC takes the frame that answers its request, and leaves its data (41_frame.md R180 to R184). -/
theorem stream_frmDec (p : Params) (req : Byte) (data : List Byte) (hd : data.length ≤ 253)
    (hcap : data.length ≤ p.outCap) :
    ∃ x, stream p (specDeviceFrame req data) (initWork req .frmDec) =
      some (.done (Work.mk data 0 0 0 (expectedEcho req) (.frmDec x)) none) := by
  have hlen : (BitVec.ofNat 8 (data.length + 2)).toNat = data.length + 2 := by
    rw [BitVec.toNat_ofNat]; omega
  have hecho : (expectedEcho req).toNat = (req.toNat + 1) % 256 := by
    simp [expectedEcho]
  obtain ⟨i, h1⟩ := stream_frmDecHeader p (BitVec.ofNat 8 (data.length + 2)) (expectedEcho req)
    (data ++ [BitVec.ofNat 8 ((256 - (0xD5 + (req.toNat + 1) % 256 + sumBytes data) % 256) % 256), 0x00])
    (initWork req .frmDec)
    { ph := .hdr, i := 0, len := 0, sum := 0, exp := expectedEcho req, rem := 0 } ⟨rfl, rfl, rfl⟩ (by omega)
  have hframe : specDeviceFrame req data =
      0x00 :: 0x00 :: 0xFF :: BitVec.ofNat 8 (data.length + 2) ::
        BitVec.ofNat 8 ((256 - (BitVec.ofNat 8 (data.length + 2)).toNat) % 256) :: 0xD5 ::
        expectedEcho req :: (data ++
          [BitVec.ofNat 8 ((256 - (0xD5 + (req.toNat + 1) % 256 + sumBytes data) % 256) % 256), 0x00]) := by
    rw [hlen]
    simp [specDeviceFrame, expectedEcho]
  rw [hframe]
  refine Exists.imp (fun x h => h1.trans h) ?_
  rw [hlen, Nat.add_sub_cancel]
  have hs0 : (sumStep 0xD5 (expectedEcho req)).toNat = (0xD5 + (req.toNat + 1) % 256) % 256 := by
    rw [sumStep_toNat, hecho]; rfl
  -- the trailer, from the phase DCS on
  have htr : ∀ (o : List Byte) (x : FrmDecW), x.ph = .dcs →
      x.sum.toNat = (0xD5 + (req.toNat + 1) % 256 + sumBytes data) % 256 →
      stream p [BitVec.ofNat 8 ((256 - (0xD5 + (req.toNat + 1) % 256 + sumBytes data) % 256) % 256), 0x00]
        (Work.mk o 0 0 0 (expectedEcho req) (.frmDec x)) =
      some (.done (Work.mk o 0 0 0 (expectedEcho req) (.frmDec { x with ph := .post })) none) := by
    intro o x hph hsum
    have hz : sumsToZero x.sum (BitVec.ofNat 8
        ((256 - (0xD5 + (req.toNat + 1) % 256 + sumBytes data) % 256) % 256)) = true := by
      simp only [sumsToZero, BitVec.toNat_ofNat, beq_iff_eq, hsum]
      omega
    simp [stream_cons, workByte, frmDecByte, hph, hz]
  cases data with
  | nil =>
    refine ⟨_, htr [] (FrmDecW.mk .dcs i (BitVec.ofNat 8 2) (sumStep 0xD5 (expectedEcho req))
      (expectedEcho req) 0) rfl ?_⟩
    simp only [hs0, sumBytes_nil]; omega
  | cons b bs =>
    obtain ⟨s, hs, h2⟩ := stream_frmDecPay p b bs
      (Work.mk [] 0 0 0 (expectedEcho req) (.ackChk 0))
      (FrmDecW.mk .pay i (BitVec.ofNat 8 ((b :: bs).length + 2)) (sumStep 0xD5 (expectedEcho req))
        (expectedEcho req) (b :: bs).length) rfl rfl (by simpa using hcap)
    refine ⟨_, (stream_append p _ _ _ _ h2).trans (htr (b :: bs) (FrmDecW.mk .dcs i
      (BitVec.ofNat 8 ((b :: bs).length + 2)) s (expectedEcho req) 0) rfl ?_)⟩
    simp only [hs, hs0]
    omega

/-! URI_EXP and URI_CMP -/

/-- URI_EXP copies the suffix (43_uri.md R251). -/
theorem stream_uriSuffix (p : Params) (bs : List Byte) (w : Work)
    (hcap : w.out.length + bs.length ≤ p.outCap) :
    stream p bs { w with cmd := .uriExp .suf } =
      some (.go { w with out := w.out ++ bs, cmd := .uriExp .suf }) := by
  induction bs generalizing w with
  | nil => simp
  | cons b bs ih =>
    simp only [List.length_cons] at hcap
    rw [stream_cons]
    show (uriExpByte p _ .suf b).andStream p bs = _
    rw [uriExpByte, Work.emit_fits _ _ _ _ (by simp; omega), andStream_go]
    refine (ih { w with out := w.out ++ [b] } (by simp; omega)).trans ?_
    simp

/-- URI_CMP keeps at most URI_MAXP bytes and notes whether there were more (43_uri.md R261). -/
theorem stream_uriCmp (p : Params) (bs : List Byte) (w : Work) (c : CmpW)
    (hb : c.buf.length ≤ uriMaxP p) :
    ∃ c', stream p bs { w with cmd := .uriCmp c } = some (.go { w with cmd := .uriCmp c' }) ∧
      (c.buf.length + bs.length ≤ uriMaxP p → c' = { c with buf := c.buf ++ bs }) ∧
      (uriMaxP p < c.buf.length + bs.length → c'.long = true) ∧ (c.long = true → c'.long = true) := by
  induction bs generalizing c with
  | nil => exact ⟨c, rfl, fun _ => by simp, fun h => by simp at h; omega, id⟩
  | cons b bs ih =>
    simp only [List.length_cons]
    rw [stream_cons]
    show ∃ c', (uriCmpByte p _ c b).andStream p bs = _ ∧ _
    unfold uriCmpByte
    by_cases hc : c.buf.length < uriMaxP p
    · rw [if_pos hc, andStream_go]
      obtain ⟨c', h1, h2, h3, h4⟩ := ih { c with buf := c.buf ++ [b] } (by simp; omega)
      refine ⟨c', h1, fun h => ?_, fun h => ?_, h4⟩
      · rw [h2 (by simp; omega)]
        simp
      · exact h3 (by simp; omega)
    · rw [if_neg hc, andStream_go]
      obtain ⟨c', h1, h2, h3, h4⟩ := ih { c with long := true } hb
      exact ⟨c', h1, fun h => by omega, fun _ => h4 rfl, fun _ => h4 rfl⟩

end Sys2Proof.Machine
end

