-- ==== Sys2Proof/Laws/Range.lean ====
section
/-! SUPPORT. A command's byte and `End` keep its working state in range, and what a success hands over. -/

namespace Sys2Proof.Machine

/-- What a success hands over belongs to its command (10_state.md R36 to R39). -/
def Work.reports (w : Work) : Prop :=
  (w.command ≠ .frmDec → w.echo = 0) ∧
  ((w.command ≠ .uriExp ∧ w.command ≠ .uriCmp) → w.res = 0) ∧
  ((w.command ≠ .ndefDec ∧ w.command ≠ .ndefEnc ∧ w.command ≠ .tlvParse) → w.recs = 0 ∧ w.msgs = 0) ∧
  ((w.command = .ndefDec ∨ w.command = .ndefEnc) → w.msgs = 1)

/-- A verdict leaves the working state in range, or hands over an output that fits and is the
command's. -/
def Verdict.ok (p : Params) (lastOp : Byte) : Verdict → Prop
  | .go w => w.ok p lastOp
  | .done w _ => w.out.length ≤ p.outCap ∧ w.reports
  | .bad _ => True

theorem Work.emit_ok (p : Params) (lastOp : Byte) (w : Work) (bs : List Byte) (k : Work → Verdict)
    (h : w.out.length + bs.length ≤ p.outCap → (k { w with out := w.out ++ bs }).ok p lastOp) :
    (w.emit p.outCap bs k).ok p lastOp := by
  unfold Work.emit
  split
  · trivial
  · exact h (by omega)

/-! The record sub-machine -/

/-- A sub-machine answer in range, over a working state with room; the pending results but the counts
as they were. -/
def RecOut.ok (cap : Nat) (w0 : Work) : RecOut → Prop
  | .more w r => w.out.length ≤ cap ∧ r.ok ∧ w.msgs = w0.msgs ∧ w.res = w0.res ∧ w.echo = w0.echo
  | .msgDone w r => w.out.length ≤ cap ∧ r.ok ∧ w.msgs = w0.msgs + 1 ∧ w.res = w0.res ∧ w.echo = w0.echo
  | .over => True

theorem recInit_ok : recInit.ok := by
  refine ⟨?_, ?_, ?_⟩ <;> simp [recInit]

theorem setWidth_ne_zero (b : Byte) (h : b ≠ 0) : b.setWidth 32 ≠ 0 := by
  intro h0
  apply h
  apply BitVec.eq_of_toNat_eq
  have h1 : b.toNat % 2 ^ 32 = 0 := by simpa using congrArg BitVec.toNat h0
  have h2 := b.isLt
  show b.toNat = 0
  omega

theorem nextField_ok (cap : Nat) (w0 w : Work) (r : RecW) (after : RecPhase)
    (hw : w.out.length ≤ cap ∧ w.msgs = w0.msgs ∧ w.res = w0.res ∧ w.echo = w0.echo) (hk : r.k ≤ 4) :
    (nextField w r after).ok cap w0 := by
  obtain ⟨h1, h2, h3, h4⟩ := hw
  unfold nextField
  split
  · rename_i h
    exact ⟨h1, ⟨by simp, hk, fun _ => setWidth_ne_zero _ h.2⟩, h2, h3, h4⟩
  · split
    · rename_i h
      exact ⟨h1, ⟨by simp, hk, fun _ => setWidth_ne_zero _ h.2⟩, h2, h3, h4⟩
    · split
      · rename_i h
        exact ⟨h1, ⟨by simp, hk, fun _ => h.2⟩, h2, h3, h4⟩
      · unfold recordDone
        split
        · exact ⟨h1, recInit_ok, by simp [h2], h3, h4⟩
        · exact ⟨h1, recInit_ok, h2, h3, h4⟩

theorem recEmit_ok (cap : Nat) (w0 w : Work) (bs : List Byte) (k : Work → RecOut)
    (h : w.out.length + bs.length ≤ cap → (k { w with out := w.out ++ bs }).ok cap w0) :
    (recEmit cap w bs k).ok cap w0 := by
  unfold recEmit
  split
  · trivial
  · exact h (by omega)

theorem plenBytes_le (f : Byte) : plenBytes f ≤ 4 := by
  unfold plenBytes; split <;> omega

theorem plenBytes_pos (f : Byte) : 0 < plenBytes f := by
  unfold plenBytes; split <;> omega

theorem recByte_ok (cap : Nat) (w : Work) (r : RecW) (b : Byte) (hw : w.out.length ≤ cap) (hr : r.ok) :
    (recByte cap w r b).ok cap w := by
  obtain ⟨hp, hk, hc⟩ := hr
  unfold recByte
  split
  · exact ⟨hw, ⟨by simp, hk, by simp⟩, rfl, rfl, rfl⟩
  · exact ⟨hw, ⟨fun _ => plenBytes_pos _, by simp, by simp⟩, rfl, rfl, rfl⟩
  · rename_i hph
    have hlt := hp hph
    have hle := plenBytes_le r.flags
    unfold recPlen
    dsimp only
    split
    · split
      · exact ⟨hw, ⟨by simp, by simp; omega, by simp⟩, rfl, rfl, rfl⟩
      · exact recEmit_ok _ _ _ _ _ fun h => nextField_ok _ _ _ _ _
          ⟨by simpa using h, rfl, rfl, rfl⟩ (by simp; omega)
    · exact ⟨hw, ⟨fun _ => by simp; omega, by simp; omega, by simp [hph]⟩, rfl, rfl, rfl⟩
  · exact recEmit_ok _ _ _ _ _ fun h => nextField_ok _ _ _ _ _ ⟨by simpa using h, rfl, rfl, rfl⟩ hk
  all_goals
    rename_i hph
    refine recEmit_ok _ _ _ _ _ fun h => ?_
    split
    · exact nextField_ok _ _ _ _ _ ⟨by simpa using h, rfl, rfl, rfl⟩ hk
    · rename_i hz
      exact ⟨by simpa using h, ⟨by simp [hph], hk, fun _ => hz⟩, rfl, rfl, rfl⟩

/-! The frame unit -/

theorem frmEncByte_ok (p : Params) (lastOp : Byte) (w : Work) (x : FrmEncW) (b : Byte)
    (hcmd : w.cmd = .frmEnc x) (hw : w.ok p lastOp) : (frmEncByte w x b).ok p lastOp := by
  obtain ⟨out, msgs, recs, res, echo, cmd⟩ := w
  simp only at hcmd
  subst hcmd
  obtain ⟨hop, hout, hx, hq⟩ := hw
  obtain ⟨h1, h2, h3, h4⟩ : x.n = x.buf.length ∧ x.n ≤ 254 ∧ x.sum.toNat = sumBytes x.buf % 256 ∧ out = [] := hx
  unfold frmEncByte
  split
  · trivial
  · refine ⟨hop, hout, ⟨?_, ?_, ?_, h4⟩, ?_⟩
    · simp [h1]
    · simp only; omega
    · rw [sumStep_toNat, h3, sumBytes_append, sumBytes_cons, sumBytes_nil]; omega
    · simpa [Work.quiet, Work.command] using hq

theorem frmEncEnd_ok (p : Params) (lastOp : Byte) (w : Work) (x : FrmEncW)
    (hcmd : w.cmd = .frmEnc x) (hw : w.ok p lastOp) : (frmEncEnd p.outCap w x).ok p lastOp := by
  obtain ⟨out, msgs, recs, res, echo, cmd⟩ := w
  simp only at hcmd
  subst hcmd
  obtain ⟨hop, hout, hx, hq⟩ := hw
  unfold frmEncEnd
  split
  · trivial
  · refine Work.emit_ok _ _ _ _ _ fun h => ⟨by simpa using h, ?_⟩
    simp [Work.quiet, Work.command] at hq
    simp [Work.reports, Work.command, hq]

theorem frmDec_quiet (out : List Byte) (msgs recs : Word) (res : BitVec 9) (echo : Byte) (x : FrmDecW) :
    (Work.mk out msgs recs res echo (.frmDec x)).quiet ↔ res = 0 ∧ recs = 0 ∧ msgs = 0 := by
  simp [Work.quiet, Work.command]

theorem frmDecByte_ok (p : Params) (lastOp : Byte) (w : Work) (x : FrmDecW) (b : Byte)
    (hcmd : w.cmd = .frmDec x) (hw : w.ok p lastOp) : (frmDecByte p.outCap w x b).ok p lastOp := by
  obtain ⟨out, msgs, recs, res, echo, cmd⟩ := w
  simp only at hcmd
  subst hcmd
  obtain ⟨hop, hout, hx, hq0⟩ := hw
  have hq' := (frmDec_quiet _ _ _ _ _ _).1 hq0
  have hq : ∀ (o : List Byte) (e : Byte) (y : FrmDecW), (Work.mk o msgs recs res e (.frmDec y)).quiet :=
    fun _ _ _ => (frmDec_quiet _ _ _ _ _ _).2 hq'
  have hx : x.ok out := hx
  obtain ⟨hi, hrem, hhdr, hpay, hend⟩ := hx
  have hl := x.len.isLt
  unfold frmDecByte
  split
  · rename_i hph
    obtain ⟨ho, h5⟩ := hhdr hph
    subst ho
    unfold frmDecHdr
    split
    · split
      · trivial
      · exact ⟨hop, hout, ⟨by simp; omega, hrem, fun _ => ⟨rfl, by simp; omega⟩, by simp [hph], by simp [hph]⟩, hq _ _ _⟩
    · split
      · trivial
      · exact ⟨hop, hout, ⟨by simp; omega, hrem, fun _ => ⟨rfl, by simp; omega⟩, by simp [hph], by simp [hph]⟩, hq _ _ _⟩
    · split
      · trivial
      · exact ⟨hop, hout, ⟨by simp; omega, hrem, fun _ => ⟨rfl, by simp; omega⟩, by simp [hph], by simp [hph]⟩, hq _ _ _⟩
    · exact ⟨hop, hout, ⟨by simp; omega, hrem, fun _ => ⟨rfl, by simp; omega⟩, by simp [hph], by simp [hph]⟩, hq _ _ _⟩
    · split
      · trivial
      · split
        · trivial
        · exact ⟨hop, hout, ⟨by simp; omega, hrem, fun _ => ⟨rfl, by simp; omega⟩, by simp [hph], by simp [hph]⟩, hq _ _ _⟩
    · split
      · trivial
      · exact ⟨hop, hout, ⟨by simp; omega, hrem, fun _ => ⟨rfl, by simp; omega⟩, by simp [hph], by simp [hph]⟩, hq _ _ _⟩
    · split
      · trivial
      · have h2 := h5 (by omega)
        refine ⟨hop, hout, ⟨by simp; omega, by simp; omega, ?_, ?_, ?_⟩, ?_⟩
        · simp only [phaseAfterHeader]; split <;> simp
        · simp only [phaseAfterHeader]
          split
          · simp; omega
          · simp
        · simp only [phaseAfterHeader]
          split
          · simp
          · simp; omega
        · exact hq _ _ _
    · exact ⟨hop, hout, ⟨hi, hrem, hhdr, hpay, hend⟩, hq _ _ _⟩
  · rename_i hph
    obtain ⟨h0, h1⟩ := hpay hph
    unfold frmDecPay
    refine Work.emit_ok _ _ _ _ _ fun h => ⟨hop, by simpa using h, ⟨hi, by simp; omega, ?_, ?_, ?_⟩, hq _ _ _⟩
    · simp only; split <;> simp [hph]
    · simp only; split
      · simp
      · simp [hph]; omega
    · simp only; split
      · simp; omega
      · simp [hph]
  · rename_i hph
    split
    · trivial
    · exact ⟨hop, hout, ⟨hi, hrem, by simp, by simp, fun _ => hend (Or.inl hph)⟩, hq _ _ _⟩
  · split
    · trivial
    · refine ⟨hout, ?_⟩
      simp [Work.reports, Work.command, hq']

theorem ackByte_ok (p : Params) (lastOp : Byte) (w : Work) (i : Nat) (b : Byte)
    (hcmd : w.cmd = .ackChk i) (hw : w.ok p lastOp) : (ackByte w i b).ok p lastOp := by
  obtain ⟨out, msgs, recs, res, echo, cmd⟩ := w
  simp only at hcmd
  subst hcmd
  obtain ⟨hop, hout, hx, hq⟩ := hw
  obtain ⟨h1, h2⟩ : i ≤ 5 ∧ out = [] := hx
  simp [Work.quiet, Work.command] at hq
  unfold ackByte
  split
  · trivial
  · split
    · exact ⟨hout, by simp [Work.reports, Work.command, hq]⟩
    · exact ⟨hop, hout, ⟨by omega, h2⟩, by simp [Work.quiet, Work.command, hq]⟩

/-! The record unit -/

theorem ndefDecByte_ok (p : Params) (lastOp : Byte) (w : Work) (r : RecW) (b : Byte)
    (hcmd : w.cmd = .ndefDec r) (hw : w.ok p lastOp) : (ndefDecByte p.outCap w r b).ok p lastOp := by
  have hc : w.command = .ndefDec := by simp [Work.command, hcmd]
  obtain ⟨hop, hout, hx, hq⟩ := hw
  rw [hcmd] at hx
  have h := recByte_ok p.outCap w r b hout hx
  simp only [Work.quiet, hc, hcmd] at hq
  simp only [Work.op, hc] at hop
  unfold ndefDecByte
  split <;> rename_i heq <;> rw [heq] at h
  · obtain ⟨h1, h2, h3, h4, h5⟩ := h
    exact ⟨hop, h1, h2, by simp [Work.quiet, Work.command, h3, h4, h5]; simpa using hq⟩
  · obtain ⟨h1, h2, h3, h4, h5⟩ := h
    refine ⟨h1, ?_⟩
    simp at hq
    simp [Work.reports, Work.command, h3, h4, h5, hq]
  · trivial

theorem encInit_ok : encInit.ok := by
  refine ⟨?_, ?_, ?_⟩ <;> simp [encInit]

theorem ndefEnc_quiet (out : List Byte) (msgs recs : Word) (res : BitVec 9) (echo : Byte) (e : EncW) :
    (Work.mk out msgs recs res echo (.ndefEnc e)).quiet ↔ echo = 0 ∧ res = 0 ∧ msgs = 0 := by
  simp [Work.quiet, Work.command]

theorem encNext_ok (p : Params) (lastOp : Byte) (w : Work) (e : EncW) (after : EncPhase)
    (hop : Command.opcode .ndefEnc = lastOp) (hout : w.out.length ≤ p.outCap)
    (hq : w.echo = 0 ∧ w.res = 0 ∧ w.msgs = 0) (hk : e.k ≤ 4) :
    (encNext w e after).ok p lastOp := by
  unfold encNext
  split
  · rename_i h
    exact ⟨hop, hout, ⟨by simp, hk, fun _ => setWidth_ne_zero _ h.2⟩, (ndefEnc_quiet _ _ _ _ _ _).2 hq⟩
  · split
    · rename_i h
      exact ⟨hop, hout, ⟨by simp, hk, fun _ => setWidth_ne_zero _ h.2⟩, (ndefEnc_quiet _ _ _ _ _ _).2 hq⟩
    · split
      · rename_i h
        exact ⟨hop, hout, ⟨by simp, hk, fun _ => h.2⟩, (ndefEnc_quiet _ _ _ _ _ _).2 hq⟩
      · unfold encRecordDone
        split
        · exact ⟨hout, by simp [Work.reports, Work.command, hq]⟩
        · exact ⟨hop, hout, encInit_ok, (ndefEnc_quiet _ _ _ _ _ _).2 hq⟩

theorem ndefEncByte_ok (p : Params) (lastOp : Byte) (w : Work) (e : EncW) (b : Byte)
    (hcmd : w.cmd = .ndefEnc e) (hw : w.ok p lastOp) : (ndefEncByte p.outCap w e b).ok p lastOp := by
  obtain ⟨out, msgs, recs, res, echo, cmd⟩ := w
  simp only at hcmd
  subst hcmd
  obtain ⟨hop, hout, hx, hq⟩ := hw
  obtain ⟨hp, hk, hc⟩ : e.ok := hx
  have hq' := (ndefEnc_quiet _ _ _ _ _ _).1 hq
  have hop' : Command.opcode .ndefEnc = lastOp := hop
  unfold ndefEncByte
  split
  · exact ⟨hop, hout, ⟨by simp, hk, by simp⟩, (ndefEnc_quiet _ _ _ _ _ _).2 hq'⟩
  · exact ⟨hop, hout, ⟨by simp, hk, by simp⟩, (ndefEnc_quiet _ _ _ _ _ _).2 hq'⟩
  · exact ⟨hop, hout, ⟨by simp, by simp, by simp⟩, (ndefEnc_quiet _ _ _ _ _ _).2 hq'⟩
  · rename_i hph
    have hlt := hp hph
    unfold encPlen
    dsimp only
    split
    · exact Work.emit_ok _ _ _ _ _ fun h => encNext_ok _ _ _ _ _ hop' (by simpa using h) hq' (by simp; omega)
    · exact ⟨hop, hout, ⟨fun _ => by simp; omega, by simp; omega, by simp [hph]⟩,
        (ndefEnc_quiet _ _ _ _ _ _).2 hq'⟩
  all_goals
    rename_i hph
    unfold encField
    refine Work.emit_ok _ _ _ _ _ fun h => ?_
    split
    · exact encNext_ok _ _ _ _ _ hop' (by simpa using h) hq' hk
    · rename_i hz
      exact ⟨hop, by simpa using h, ⟨by simp [hph], hk, fun _ => hz⟩, (ndefEnc_quiet _ _ _ _ _ _).2 hq'⟩

/-! The TLV unit -/

theorem tlv_quiet (out : List Byte) (msgs recs : Word) (res : BitVec 9) (echo : Byte) (t : TlvW) (r : RecW) :
    (Work.mk out msgs recs res echo (.tlvParse t r)).quiet ↔ echo = 0 ∧ res = 0 := by
  simp [Work.quiet, Work.command]

theorem startValue_ok (p : Params) (lastOp : Byte) (w : Work) (t : TlvW) (r : RecW) (len : BitVec 16)
    (hop : Command.opcode .tlvParse = lastOp) (hout : w.out.length ≤ p.outCap)
    (hq : w.echo = 0 ∧ w.res = 0) (hr : r.ok) (ht : t.tag = 0x03 ∨ t.tag = 0xFD) :
    (startValue w t r len).ok p lastOp := by
  unfold startValue tlvGo
  split
  · rename_i h
    refine ⟨hop, hout, ⟨⟨?_, ?_, ?_, ?_⟩, hr⟩, (tlv_quiet _ _ _ _ _ _ _).2 hq⟩ <;> simp only <;>
      split <;> simp_all
  · split
    · trivial
    · rename_i h h'
      have ht' : t.tag = 0x03 := ht.resolve_right h
      refine ⟨hop, hout, ⟨⟨?_, ?_, ?_, ?_⟩, recInit_ok⟩, (tlv_quiet _ _ _ _ _ _ _).2 hq⟩ <;> simp_all

theorem tlvByte_ok (p : Params) (lastOp : Byte) (w : Work) (t : TlvW) (r : RecW) (b : Byte)
    (hcmd : w.cmd = .tlvParse t r) (hw : w.ok p lastOp) : (tlvByte p.outCap w t r b).ok p lastOp := by
  obtain ⟨out, msgs, recs, res, echo, cmd⟩ := w
  simp only at hcmd
  subst hcmd
  obtain ⟨hop, hout, hx, hq⟩ := hw
  obtain ⟨⟨h1, h2, h3, h4⟩, hr⟩ : t.ok ∧ r.ok := hx
  have hq' := (tlv_quiet _ _ _ _ _ _ _).1 hq
  have hop' : Command.opcode .tlvParse = lastOp := hop
  unfold tlvByte
  split
  · unfold tlvTag tlvGo
    split
    · exact ⟨hop, hout, ⟨⟨by simp, by simp, by simp, by simp⟩, hr⟩, (tlv_quiet _ _ _ _ _ _ _).2 hq'⟩
    · split
      · exact ⟨hout, by simp [Work.reports, Work.command, hq']⟩
      · split
        · rename_i h
          exact ⟨hop, hout, ⟨⟨by simp, fun _ => h, by simp, by simp⟩, hr⟩, (tlv_quiet _ _ _ _ _ _ _).2 hq'⟩
        · trivial
  · exact ⟨hop, hout, ⟨⟨by simp, by simp, by simp, by simp⟩, hr⟩, (tlv_quiet _ _ _ _ _ _ _).2 hq'⟩
  · rename_i hph
    have ht := h2 (Or.inl hph)
    split
    · exact ⟨hop, hout, ⟨⟨by simp, fun _ => ht, by simp, by simp⟩, hr⟩, (tlv_quiet _ _ _ _ _ _ _).2 hq'⟩
    · exact startValue_ok _ _ _ _ _ _ hop' hout hq' hr ht
  · rename_i hph
    have ht := h2 (Or.inr (Or.inl hph))
    exact ⟨hop, hout, ⟨⟨by simp, fun _ => ht, by simp, by simp⟩, hr⟩, (tlv_quiet _ _ _ _ _ _ _).2 hq'⟩
  · rename_i hph
    exact startValue_ok _ _ _ _ _ _ hop' hout hq' hr (h2 (Or.inr (Or.inr hph)))
  · rename_i hph
    have ht := h4 hph
    refine ⟨hop, hout, ⟨⟨?_, ?_, ?_, ?_⟩, hr⟩, (tlv_quiet _ _ _ _ _ _ _).2 hq'⟩ <;> simp only <;>
      split <;> simp_all
  · rename_i hph
    have ht := h3 (Or.inl hph)
    have h := recByte_ok p.outCap (Work.mk out msgs recs res echo (.tlvParse t r)) r b hout hr
    unfold tlvValue
    split <;> rename_i heq <;> rw [heq] at h
    · trivial
    · obtain ⟨g1, g2, g3, g4, g5⟩ := h
      refine ⟨hop, g1, ⟨⟨?_, ?_, ?_, ?_⟩, g2⟩, (tlv_quiet _ _ _ _ _ _ _).2 ⟨g5.trans hq'.1, g4.trans hq'.2⟩⟩ <;>
        simp only <;> split <;> simp_all
    · obtain ⟨g1, g2, g3, g4, g5⟩ := h
      split
      · trivial
      · refine ⟨hop, g1, ⟨⟨?_, ?_, ?_, ?_⟩, g2⟩, (tlv_quiet _ _ _ _ _ _ _).2 ⟨g5.trans hq'.1, g4.trans hq'.2⟩⟩ <;>
          simp_all
  · rename_i hph
    have ht := h3 (Or.inr hph)
    refine ⟨hop, hout, ⟨⟨?_, ?_, ?_, ?_⟩, hr⟩, (tlv_quiet _ _ _ _ _ _ _).2 hq'⟩ <;> simp only <;>
      split <;> simp_all

/-! The URI unit -/

theorem uriExpByte_ok (p : Params) (lastOp : Byte) (w : Work) (ph : UriPhase) (b : Byte)
    (hcmd : w.cmd = .uriExp ph) (hw : w.ok p lastOp) : (uriExpByte p w ph b).ok p lastOp := by
  obtain ⟨out, msgs, recs, res, echo, cmd⟩ := w
  simp only at hcmd
  subst hcmd
  obtain ⟨hop, hout, hx, hq⟩ := hw
  simp [Work.quiet, Work.command] at hq
  unfold uriExpByte
  split
  · exact Work.emit_ok _ _ _ _ _ fun h => ⟨hop, by simpa using h, by simp [CmdWork.ok],
      by simp [Work.quiet, Work.command, hq]⟩
  · exact Work.emit_ok _ _ _ _ _ fun h => ⟨hop, by simpa using h, by simp [CmdWork.ok],
      by simp [Work.quiet, Work.command, hq]⟩

theorem uriCmpByte_ok (p : Params) (lastOp : Byte) (w : Work) (c : CmpW) (b : Byte)
    (hcmd : w.cmd = .uriCmp c) (hw : w.ok p lastOp) : (uriCmpByte p w c b).ok p lastOp := by
  obtain ⟨out, msgs, recs, res, echo, cmd⟩ := w
  simp only at hcmd
  subst hcmd
  obtain ⟨hop, hout, hx, hq⟩ := hw
  obtain ⟨h1, h2⟩ : c.buf.length ≤ uriMaxP p ∧ out = [] := hx
  simp [Work.quiet, Work.command] at hq
  unfold uriCmpByte
  split
  · exact ⟨hop, hout, ⟨by simp; omega, h2⟩, by simp [Work.quiet, Work.command, hq]⟩
  · exact ⟨hop, hout, ⟨h1, h2⟩, by simp [Work.quiet, Work.command, hq]⟩

/-! Every command -/

/-- A byte keeps the working state of the active command in range. -/
theorem workByte_ok (p : Params) (lastOp : Byte) (w : Work) (b : Byte) (hw : w.ok p lastOp) :
    (workByte p w b).ok p lastOp := by
  unfold workByte
  split <;> rename_i hcmd
  · exact frmEncByte_ok p lastOp w _ b hcmd hw
  · exact frmDecByte_ok p lastOp w _ b hcmd hw
  · exact ackByte_ok p lastOp w _ b hcmd hw
  · exact ndefDecByte_ok p lastOp w _ b hcmd hw
  · exact ndefEncByte_ok p lastOp w _ b hcmd hw
  · exact tlvByte_ok p lastOp w _ _ b hcmd hw
  · exact uriExpByte_ok p lastOp w _ b hcmd hw
  · exact uriCmpByte_ok p lastOp w _ b hcmd hw

/-- `End` never goes on; a success by `End` hands over an output that fits. -/
theorem workEnd_ok (p : Params) (lastOp : Byte) (w : Work) (hw : w.ok p lastOp) :
    (workEnd p w).ok p lastOp := by
  unfold workEnd
  split <;> rename_i hcmd
  · exact frmEncEnd_ok p lastOp w _ hcmd hw
  · trivial
  · trivial
  · trivial
  · trivial
  · unfold tlvEnd; split <;> trivial
  · refine ⟨hw.2.1, ?_⟩
    have hq := hw.2.2.2
    simp [Work.quiet, Work.command, hcmd] at hq
    simp [Work.reports, Work.command, hcmd, hq]
  · refine ⟨hw.2.1, ?_⟩
    have hq := hw.2.2.2
    simp [Work.quiet, Work.command, hcmd] at hq
    simp [Work.reports, Work.command, hcmd, hq]

/-- The working state a START sets up is in range. -/
theorem initWork_ok (p : Params) (req : Byte) (c : Command) : (initWork req c).ok p c.opcode := by
  cases c <;>
    simp [initWork, initCmd, Work.ok, Work.op, Work.command, CmdWork.ok, Work.quiet, FrmDecW.ok, recInit_ok,
      encInit_ok, TlvW.ok]

end Sys2Proof.Machine
end

