-- ==== Sys2Proof/Laws/Invariant.lean ====
section
/-! SUPPORT. The invariant through each shared operation: completions, pushes, START, reset, reads. -/

namespace Sys2Proof.Machine

/-- The addresses listed after a run is written: those before, and the run's. -/
theorem Memory.mem_addrs_writeBytes (m : Memory) (a x : Nat) (bs : List Byte)
    (h : x ∈ (Memory.writeBytes m a bs).map Prod.fst) :
    (a ≤ x ∧ x < a + bs.length) ∨ x ∈ m.map Prod.fst := by
  by_cases hx : a ≤ x ∧ x < a + bs.length
  · exact Or.inl hx
  · refine Or.inr ?_
    rw [← Memory.read_isSome_iff] at h ⊢
    rwa [Memory.read_writeBytes_outside m a x bs (by omega)] at h

/-- What of the invariant every completion keeps. -/
structure Base (s : State) : Prop where
  paramsLegal : s.params.legal = true
  outWf : Memory.wf s.out
  outWindow : ∀ a ∈ s.out.map Prod.fst, outBase ≤ a ∧ a < outBase + s.params.outCap

theorem Inv.base {s : State} (h : Inv s) : Base s := ⟨h.paramsLegal, h.outWf, h.outWindow⟩

theorem Params.outCap_le (p : Params) (h : p.legal = true) : 264 ≤ p.outCap ∧ p.outCap ≤ 61440 := by
  simp [Params.legal, Params.outCapLegal] at h
  omega

theorem Params.inDepth_le (p : Params) (h : p.legal = true) : 1 ≤ p.inDepth ∧ p.inDepth ≤ 255 := by
  simp [Params.legal, Params.inDepthLegal] at h
  omega

/-- A failure leaves an invariant state. -/
theorem fail_inv (s : State) (e : ErrCode) (c : Byte) (h : Base s) : Inv (s.fail e c) where
  paramsLegal := h.paramsLegal
  fifoDepth := Nat.zero_le _
  entriesWf := by simp
  drained := fun _ => rfl
  resultsZero := fun _ => ⟨rfl, rfl, rfl, rfl, rfl⟩
  errorsZero := fun h => absurd rfl h
  errorListed := fun _ => ⟨⟨e, rfl, fun hne => by simp [hostCodeOf, hne]⟩, rfl⟩
  outLenCap := Nat.zero_le _
  outListed := by simp
  outWf := h.outWf
  outWindow := h.outWindow
  workOk := by simp
  idleClean := by simp

/-- A success whose output fits leaves an invariant state. -/
theorem succeed_inv (s : State) (w : Work) (h : Base s) (hw : w.out.length ≤ s.params.outCap) :
    Inv (s.succeed w) := by
  have hcap := Params.outCap_le _ h.paramsLegal
  have hlen : w.out.length % 2 ^ 32 = w.out.length := Nat.mod_eq_of_lt (by omega)
  exact {
    paramsLegal := h.paramsLegal
    fifoDepth := Nat.zero_le _
    entriesWf := by simp
    drained := fun _ => rfl
    resultsZero := fun hne => absurd rfl hne
    errorsZero := fun _ => ⟨rfl, rfl, rfl⟩
    errorListed := by simp
    outLenCap := by
      show (BitVec.ofNat 32 w.out.length).toNat ≤ s.params.outCap
      rw [BitVec.toNat_ofNat, hlen]
      exact hw
    outListed := by
      intro _ i hi
      have hi : i < (BitVec.ofNat 32 w.out.length).toNat := hi
      rw [BitVec.toNat_ofNat, hlen] at hi
      show (Memory.read (Memory.writeBytes s.out outBase w.out) (outBase + i)).isSome = true
      rw [Memory.read_writeBytes_inside s.out outBase i w.out hi]
      rfl
    outWf := Memory.writeBytes_wf _ _ _ h.outWf
    outWindow := by
      intro a ha
      rcases Memory.mem_addrs_writeBytes _ _ _ _ ha with h1 | h1
      · exact ⟨h1.1, Nat.lt_of_lt_of_le h1.2 (Nat.add_le_add_left hw _)⟩
      · exact h.outWindow a h1
    workOk := by simp
    idleClean := by simp }

/-- An active state is invariant when its queue, its results and its working state are in range. -/
theorem active_inv (s : State) (w : Work) (h : Base s) (ha : s.opst = .active w)
    (hf : s.fifo.length ≤ s.params.inDepth) (he : ∀ e ∈ s.fifo, e.wellFormed = true)
    (hr : s.outLen = 0 ∧ s.msgCount = 0 ∧ s.recCount = 0 ∧ s.result = 0 ∧ s.respCode = 0)
    (hz : s.errCode = 0 ∧ s.errHost = 0 ∧ s.errPos = 0) (hw : w.ok s.params s.lastOp) : Inv s where
  paramsLegal := h.paramsLegal
  fifoDepth := hf
  entriesWf := he
  drained := fun hn => absurd ha (hn w)
  resultsZero := fun _ => hr
  errorsZero := fun _ => hz
  errorListed := by simp [ha]
  outLenCap := by rw [hr.1]; exact Nat.zero_le _
  outListed := by simp [ha]
  outWf := h.outWf
  outWindow := h.outWindow
  workOk := by
    intro w' hw'
    rw [ha] at hw'
    injection hw' with hw'
    exact hw' ▸ hw
  idleClean := by simp [ha]

/-- The engine step of the active command keeps the invariant. -/
theorem engineStep_inv (s : State) (w : Work) (h : Inv s) (ha : s.opst = .active w) :
    Inv (s.engineStep (workByte s.params w) (workEnd s.params w)) := by
  have hw := h.workOk w ha
  have hr := h.resultsZero (by simp [ha])
  have hz := h.errorsZero (by simp [ha])
  have settled : ∀ (t : State) (v : Verdict), Base t → t.params = s.params → t.lastOp = s.lastOp →
      t.fifo.length ≤ t.params.inDepth → (∀ e ∈ t.fifo, e.wellFormed = true) →
      (t.outLen = 0 ∧ t.msgCount = 0 ∧ t.recCount = 0 ∧ t.result = 0 ∧ t.respCode = 0) →
      (t.errCode = 0 ∧ t.errHost = 0 ∧ t.errPos = 0) → v.ok s.params s.lastOp → Inv (t.settle v) := by
    intro t v hb hp hl hd he hr hz hv
    cases v with
    | go w' =>
      rw [State.settle_go]
      exact active_inv _ w' ⟨hb.paramsLegal, hb.outWf, hb.outWindow⟩ rfl hd he hr hz
        (by simp only; rw [hp, hl]; exact hv)
    | done w' q =>
      cases q with
      | none => exact succeed_inv t w' hb (by rw [hp]; exact hv.1)
      | some q =>
        exact succeed_inv { t with reqCode := q } w' ⟨hb.paramsLegal, hb.outWf, hb.outWindow⟩
          (by simp only; rw [hp]; exact hv.1)
    | bad e => exact fail_inv t e 0 hb
  unfold State.engineStep
  split
  · exact h
  · rename_i b rest hf
    refine settled _ _ ⟨h.paramsLegal, h.outWf, h.outWindow⟩ rfl rfl ?_ ?_ hr hz (workByte_ok _ _ _ _ hw)
    · have := h.fifoDepth; rw [hf] at this; simp [State.countByte] at this ⊢; omega
    · intro e he; exact h.entriesWf e (by rw [hf]; exact List.mem_cons_of_mem _ he)
  · rename_i rest hf
    refine settled _ _ ⟨h.paramsLegal, h.outWf, h.outWindow⟩ rfl rfl ?_ ?_ hr hz (workEnd_ok _ _ _ hw)
    · have := h.fifoDepth; rw [hf] at this; simp at this ⊢; omega
    · intro e he; exact h.entriesWf e (by rw [hf]; exact List.mem_cons_of_mem _ he)
  · exact fail_inv _ _ _ ⟨h.paramsLegal, h.outWf, h.outWindow⟩

/-- A change of the model's own fields, REQ_CODE and STICKY keeps the invariant. -/
theorem aside_inv (s t : State) (h : Inv s) (hp : t.params = s.params) (ho : t.opst = s.opst)
    (hf : t.fifo = s.fifo) (hm : t.out = s.out) (hl : t.lastOp = s.lastOp) (hc : t.errCode = s.errCode)
    (hh : t.errHost = s.errHost) (hpos : t.errPos = s.errPos) (hi : t.inPos = s.inPos)
    (hol : t.outLen = s.outLen) (hrc : t.respCode = s.respCode) (hmc : t.msgCount = s.msgCount)
    (hr : t.recCount = s.recCount) (hres : t.result = s.result) : Inv t := by
  obtain ⟨⟩ := s
  obtain ⟨⟩ := t
  simp only at hp ho hf hm hl hc hh hpos hi hol hrc hmc hr hres
  subst hp ho hf hm hl hc hh hpos hi hol hrc hmc hr hres
  exact ⟨h.paramsLegal, h.fifoDepth, h.entriesWf, h.drained, h.resultsZero, h.errorsZero, h.errorListed,
    h.outLenCap, h.outListed, h.outWf, h.outWindow, h.workOk, h.idleClean⟩

theorem setSticky_inv (s : State) (b : BitVec 3) (h : Inv s) : Inv (s.setSticky b) :=
  aside_inv s _ h rfl rfl rfl rfl rfl rfl rfl rfl rfl rfl rfl rfl rfl rfl

theorem push_inv (s : State) (e : Entry) (h : Inv s) (he : e.wellFormed = true) : Inv (s.push e) := by
  by_cases ha : ∃ w, s.opst = .active w
  · obtain ⟨w, hw⟩ := ha
    by_cases hf : s.fifo.length = s.params.inDepth
    · rw [State.push_full s w e hw hf]
      exact fail_inv _ _ _ h.base
    · rw [State.push_active s w e hw hf]
      have hd := h.fifoDepth
      refine active_inv _ w ⟨h.paramsLegal, h.outWf, h.outWindow⟩ hw (by simp; omega) ?_
        (h.resultsZero (by simp [hw])) (h.errorsZero (by simp [hw])) (h.workOk w hw)
      intro e' he'
      rcases List.mem_append.1 he' with h1 | h1
      · exact h.entriesWf e' h1
      · rw [List.mem_singleton.1 h1]; exact he
  · rw [State.push_inactive s e (fun w hw => ha ⟨w, hw⟩)]
    exact setSticky_inv s _ h

theorem start_inv (s : State) (op : Byte) (h : Inv s) : Inv (s.start op) := by
  by_cases ha : ∃ w, s.opst = .active w
  · obtain ⟨w, hw⟩ := ha
    rw [State.start_active s w op hw]
    exact setSticky_inv s _ h
  · have hn : ∀ w, s.opst ≠ .active w := fun w hw => ha ⟨w, hw⟩
    cases hc : Command.ofOpcode op with
    | none =>
      rw [State.start_unknown s op hn hc]
      exact fail_inv _ _ _ ⟨h.paramsLegal, h.outWf, h.outWindow⟩
    | some c =>
      rw [State.start_known s op c hn hc]
      have hf := h.drained hn
      refine active_inv _ (initWork s.reqCode c) ⟨h.paramsLegal, h.outWf, h.outWindow⟩ rfl ?_ ?_
        ⟨rfl, rfl, rfl, rfl, rfl⟩ ⟨rfl, rfl, rfl⟩ (initWork_ok _ _ _)
      · show s.fifo.length ≤ _
        rw [hf]; exact Nat.zero_le _
      · intro e he
        have : e ∈ s.fifo := he
        rw [hf] at this; simp at this

theorem softReset_inv (s : State) (h : Base s) : Inv s.softReset where
  paramsLegal := h.paramsLegal
  fifoDepth := Nat.zero_le _
  entriesWf := by simp
  drained := fun _ => rfl
  resultsZero := fun _ => ⟨rfl, rfl, rfl, rfl, rfl⟩
  errorsZero := fun _ => ⟨rfl, rfl, rfl⟩
  errorListed := by simp
  outLenCap := Nat.zero_le _
  outListed := by simp
  outWf := h.outWf
  outWindow := h.outWindow
  workOk := by simp
  idleClean := fun _ => ⟨rfl, rfl⟩

theorem endEntry_wellFormed (v : Word) : (endEntry v).wellFormed = true := by
  unfold endEntry
  split
  · rfl
  · rename_i h; simpa [Entry.wellFormed] using h

theorem busRead_inv (s : State) (off : Offset) (h : Inv s) : Inv (s.busRead off) := by
  unfold State.busRead
  repeat' split
  all_goals exact aside_inv s _ h rfl rfl rfl rfl rfl rfl rfl rfl rfl rfl rfl rfl rfl rfl

end Sys2Proof.Machine
end

