-- ==== Sys2Proof/Laws/Accept.lean ====
section
/-! SUPPORT. What a stream that a command accepted must have been: a run of bytes that ends in a success
splits at the completing byte, and FRM_DEC has seen exactly the frame up to where it is. -/

namespace Sys2Proof.Machine

/-- Once no command is active, a stream only sets IN_DROP (40_host_actions.md R144). -/
theorem feed_inactive (c : Command) (es : List Entry) (s : State) (hs : ∀ w, s.opst ≠ .active w)
    (he : ∀ e ∈ es, e.wellFormed = true) :
    ∃ sticky, feed c es s = .next { s with sticky := sticky } := by
  induction es generalizing s with
  | nil => exact ⟨s.sticky, rfl⟩
  | cons e es ih =>
    obtain ⟨st, h⟩ := ih (s.setSticky inDrop) hs (fun x hx => he x (List.mem_cons_of_mem _ hx))
    refine ⟨st, ?_⟩
    show andThen (andThen (exec (pushInstr e) s) (exec c.instr)) (feed c es) = _
    rw [exec_pushInstr e s (he e (by simp)), State.push_inactive s e hs]
    show andThen (exec c.instr (s.setSticky inDrop)) (feed c es) = _
    rw [exec_command_inactive (s.setSticky inDrop) c hs]
    exact h

/-- A stream of bytes that ends in DONE_OK has a byte at which the command succeeded; what follows it
only sets IN_DROP (40_host_actions.md R156; 70_reset_and_hazards.md R359). -/
theorem feed_doneOk (c : Command) (bs : List Byte) (s t : State) (w : Work)
    (hs : s.opst = .active w) (hc : w.command = c) (hf : s.fifo = []) (hd : 0 < s.params.inDepth)
    (h : feed c (bs.map .data) s = .next t) (ht : t.opst = .doneOk) :
    ∃ (pre : List Byte) (b : Byte) (rest : List Byte) (w1 w2 : Work) (q : Option Byte) (u : State)
      (sticky : BitVec 3),
      bs = pre ++ b :: rest ∧ stream s.params pre w = some (.go w1) ∧
      workByte s.params w1 b = .done w2 q ∧ t = { u.succeed w2 with sticky := sticky } := by
  induction bs generalizing s w with
  | nil =>
    simp only [List.map_nil, feed_nil, Host.Outcome.next.injEq] at h
    subst h
    rw [hs] at ht
    simp at ht
  | cons b bs ih =>
    rw [List.map_cons, feed_data c b _ s w hs hc hf hd] at h
    have hwf : ∀ e ∈ bs.map Entry.data, e.wellFormed = true := by
      intro e he
      obtain ⟨x, -, rfl⟩ := List.mem_map.1 he
      rfl
    cases hv : workByte s.params w b with
    | go w' =>
      rw [hv, State.settle_go] at h
      obtain ⟨pre, b', rest, w1, w2, q, u, st, h1, h2, h3, h4⟩ :=
        ih ({ s with inPos := s.inPos + 1, opst := .active w' } : State) w' rfl
          ((workByte_go_command s.params w w' b hv).trans hc) hf hd h
      refine ⟨b :: pre, b', rest, w1, w2, q, u, st, by rw [h1, List.cons_append], ?_, h3, h4⟩
      rw [stream_cons, hv]
      exact h2
    | done w' q =>
      rw [hv] at h
      have hin : ∀ x, (({ s with inPos := s.inPos + 1 } : State).settle (.done w' q)).opst ≠ .active x := by
        intro x; cases q <;> simp [State.settle]
      obtain ⟨st, h5⟩ := feed_inactive c (bs.map .data) _ hin hwf
      rw [h5] at h
      injection h with h
      cases q with
      | none => exact ⟨[], b, bs, w, w', none, _, st, rfl, rfl, hv, h.symm⟩
      | some q => exact ⟨[], b, bs, w, w', some q, _, st, rfl, rfl, hv, h.symm⟩
    | bad e =>
      rw [hv] at h
      have hin : ∀ x, (({ s with inPos := s.inPos + 1 } : State).settle (.bad e)).opst ≠ .active x := by
        intro x; simp [State.settle]
      obtain ⟨st, h5⟩ := feed_inactive c (bs.map .data) _ hin hwf
      rw [h5] at h
      injection h with h
      rw [← h] at ht
      simp [State.settle] at ht

/-! FRM_DEC -/

/-- The fixed part of a device-to-host frame with length byte `len`, up to the echo. -/
def deviceHeader (req len : Byte) : List Byte :=
  [0x00, 0x00, 0xFF, len, BitVec.ofNat 8 ((256 - len.toNat) % 256), 0xD5, expectedEcho req]

/-- The checksum byte of a device-to-host frame. -/
def deviceDcs (req : Byte) (data : List Byte) : Byte :=
  BitVec.ofNat 8 ((256 - (0xD5 + (req.toNat + 1) % 256 + sumBytes data) % 256) % 256)

theorem specDeviceFrame_eq (req len : Byte) (data : List Byte) (h : data.length + 2 = len.toNat) :
    specDeviceFrame req data = deviceHeader req len ++ data ++ [deviceDcs req data, 0x00] := by
  have : BitVec.ofNat 8 (data.length + 2) = len := by
    rw [h, BitVec.ofNat_toNat, BitVec.setWidth_eq]
  simp only [specDeviceFrame, deviceHeader, deviceDcs, this, expectedEcho]
  rw [h]

/-- FRM_DEC has consumed exactly `pre`, a prefix of the frame that answers req. -/
def FrmDecW.seen (req : Byte) (pre out : List Byte) (x : FrmDecW) : Prop :=
  x.exp = expectedEcho req ∧
  match x.ph with
  | .hdr => out = [] ∧ pre = (deviceHeader req x.len).take x.i ∧ x.i ≤ 6 ∧
      (5 ≤ x.i → 2 ≤ x.len.toNat) ∧ (x.i = 6 → x.sum = 0xD5)
  | .pay => pre = deviceHeader req x.len ++ out ∧ 0 < x.rem ∧ out.length + x.rem + 2 = x.len.toNat ∧
      x.sum.toNat = (0xD5 + (req.toNat + 1) % 256 + sumBytes out) % 256
  | .dcs => pre = deviceHeader req x.len ++ out ∧ out.length + 2 = x.len.toNat ∧
      x.sum.toNat = (0xD5 + (req.toNat + 1) % 256 + sumBytes out) % 256
  | .post => pre = deviceHeader req x.len ++ out ++ [deviceDcs req out] ∧ out.length + 2 = x.len.toNat

theorem zero_sum_byte (a b : Byte) (h : sumsToZero a b = true) :
    b = BitVec.ofNat 8 ((256 - a.toNat) % 256) := by
  have ha := a.isLt
  have hb := b.isLt
  simp only [sumsToZero, beq_iff_eq] at h
  apply BitVec.eq_of_toNat_eq
  rw [BitVec.toNat_ofNat]
  omega

theorem FrmDecW.seen_step (cap : Nat) (req b : Byte) (pre : List Byte) (w w' : Work) (x : FrmDecW)
    (h : x.seen req pre w.out) (hv : frmDecByte cap w x b = .go w') :
    ∃ x', w'.cmd = .frmDec x' ∧ x'.seen req (pre ++ [b]) w'.out := by
  obtain ⟨hexp, h⟩ := h
  obtain ⟨ph, i, len, sum, exp, rem⟩ := x
  simp only at hexp
  subst hexp
  unfold frmDecByte at hv
  cases ph with
  | hdr =>
    obtain ⟨ho, hp, hi, hlen, hsum⟩ := h
    simp only at ho hp hi hlen hsum
    simp only [frmDecHdr, frmDecNext] at hv
    have : i = 0 ∨ i = 1 ∨ i = 2 ∨ i = 3 ∨ i = 4 ∨ i = 5 ∨ i = 6 := by omega
    rcases this with rfl | rfl | rfl | rfl | rfl | rfl | rfl <;> simp only [ne_eq, ite_not] at hv
    · split at hv
      · rename_i hb
        injection hv with hv; subst hv; subst hb
        exact ⟨_, rfl, rfl, ho, by rw [hp]; rfl, by simp, by simp, by simp⟩
      · simp at hv
    · split at hv
      · rename_i hb
        injection hv with hv; subst hv; subst hb
        exact ⟨_, rfl, rfl, ho, by rw [hp]; rfl, by simp, by simp, by simp⟩
      · simp at hv
    · split at hv
      · rename_i hb
        injection hv with hv; subst hv; subst hb
        exact ⟨_, rfl, rfl, ho, by rw [hp]; rfl, by simp, by simp, by simp⟩
      · simp at hv
    · injection hv with hv; subst hv
      exact ⟨_, rfl, rfl, ho, by rw [hp]; rfl, by simp, by simp, by simp⟩
    · split at hv
      · simp at hv
      · split at hv
        · simp at hv
        · rename_i hz hl
          injection hv with hv; subst hv
          have hb := zero_sum_byte len b (by simpa using hz)
          subst hb
          exact ⟨_, rfl, rfl, ho, by rw [hp]; rfl, by simp, by simp; omega, by simp⟩
    · split at hv
      · rename_i hb
        injection hv with hv; subst hv; subst hb
        exact ⟨_, rfl, rfl, ho, by rw [hp]; rfl, by simp, fun _ => hlen (by omega), by simp⟩
      · simp at hv
    · split at hv
      · rename_i hb
        injection hv with hv; subst hv; subst hb
        have h2 := hlen (by omega)
        have hs : (sumStep sum (expectedEcho req)).toNat = (0xD5 + (req.toNat + 1) % 256) % 256 := by
          rw [hsum rfl, sumStep_toNat]
          simp [expectedEcho]
        by_cases h0 : len.toNat - 2 = 0
        · refine ⟨_, rfl, rfl, ?_⟩
          simp only [phaseAfterHeader, h0, ho]
          exact ⟨by rw [hp]; rfl, by simp only [List.length_nil]; omega, by rw [hs]; simp⟩
        · refine ⟨_, rfl, rfl, ?_⟩
          have : len.toNat - 2 > 0 := by omega
          simp only [phaseAfterHeader, if_pos this, ho]
          exact ⟨by rw [hp]; rfl, by simpa using this, by simp only [List.length_nil]; omega, by rw [hs]; simp⟩
      · simp at hv
  | pay =>
    obtain ⟨hp, hrem, hlen, hsum⟩ := h
    simp only at hp hrem hlen hsum
    simp only [frmDecPay, Work.emit] at hv
    split at hv
    · simp at hv
    · injection hv with hv; subst hv
      have hs : (sumStep sum b).toNat = (0xD5 + (req.toNat + 1) % 256 + sumBytes (w.out ++ [b])) % 256 := by
        rw [sumStep_toNat, hsum, sumBytes_append]
        simp
        omega
      by_cases h0 : rem - 1 = 0
      · refine ⟨_, rfl, rfl, ?_⟩
        simp only [h0, if_true]
        exact ⟨by rw [hp, List.append_assoc], by simp; omega, hs⟩
      · refine ⟨_, rfl, rfl, ?_⟩
        simp only [h0, if_false]
        exact ⟨by rw [hp, List.append_assoc], by omega, by simp; omega, hs⟩
  | dcs =>
    obtain ⟨hp, hlen, hsum⟩ := h
    simp only at hp hlen hsum
    simp only at hv
    split at hv
    · simp at hv
    · rename_i hz
      injection hv with hv; subst hv
      have hb := zero_sum_byte sum b (by simpa using hz)
      rw [hsum] at hb
      exact ⟨_, rfl, rfl, by rw [hp, hb]; rfl, hlen⟩
  | post =>
    simp only at hv
    split at hv <;> simp at hv

theorem FrmDecW.seen_done (cap : Nat) (req b : Byte) (pre : List Byte) (w w' : Work) (q : Option Byte)
    (x : FrmDecW) (h : x.seen req pre w.out) (hv : frmDecByte cap w x b = .done w' q) :
    pre ++ [b] = specDeviceFrame req w'.out ∧ w'.out.length ≤ 253 := by
  obtain ⟨-, h⟩ := h
  obtain ⟨ph, i, len, sum, exp, rem⟩ := x
  have hl := len.isLt
  unfold frmDecByte at hv
  cases ph with
  | hdr =>
    simp only [frmDecHdr, frmDecNext] at hv
    repeat' split at hv
    all_goals simp at hv
  | pay =>
    simp only [frmDecPay, Work.emit] at hv
    split at hv <;> simp at hv
  | dcs =>
    simp only at hv
    split at hv <;> simp at hv
  | post =>
    obtain ⟨hp, hlen⟩ := h
    simp only at hp hlen hv
    split at hv
    · simp at hv
    · rename_i hb
      simp only [Verdict.done.injEq] at hv
      obtain ⟨rfl, -⟩ := hv
      have hb : b = 0x00 := by simpa using hb
      subst hb
      exact ⟨by rw [hp, specDeviceFrame_eq req len w.out hlen]; simp, by omega⟩

theorem FrmDecW.seen_stream (p : Params) (req : Byte) (bs pre : List Byte) (w w' : Work) (x : FrmDecW)
    (hc : w.cmd = .frmDec x) (h : x.seen req pre w.out) (hv : stream p bs w = some (.go w')) :
    ∃ x', w'.cmd = .frmDec x' ∧ x'.seen req (pre ++ bs) w'.out := by
  induction bs generalizing pre w x with
  | nil => simp at hv; subst hv; exact ⟨x, hc, by simpa using h⟩
  | cons b bs ih =>
    rw [stream_cons] at hv
    have hb : workByte p w b = frmDecByte p.outCap w x b := by simp [workByte, hc]
    rw [hb] at hv
    cases hk : frmDecByte p.outCap w x b with
    | go w1 =>
      rw [hk] at hv
      obtain ⟨x1, hc1, h1⟩ := FrmDecW.seen_step _ req b pre w w1 x h hk
      obtain ⟨x2, hc2, h2⟩ := ih (pre ++ [b]) w1 x1 hc1 h1 hv
      exact ⟨x2, hc2, by simpa using h2⟩
    | done w1 q => rw [hk] at hv; simp only [Verdict.andStream] at hv; split at hv <;> simp at hv
    | bad e => rw [hk] at hv; simp only [Verdict.andStream] at hv; split at hv <;> simp at hv

end Sys2Proof.Machine
end

