-- ==== Sys2Proof/Laws/Encode.lean ====
section
/-! SUPPORT. The bits of command words and bus writes: what the decoder's fields read from what the
encoder writes. -/

namespace Sys2Proof

/-- Bits [7:0] of a word, zero-extended, are the word with its ignored bits cleared. -/
theorem low_byte (w : Word) : (w.extractLsb' 0 8).setWidth 32 = w &&& 0xFF := by
  apply BitVec.eq_of_getLsbD_eq
  intro i hi
  have : ∀ i : Fin 32, (0xFF : Word).getLsbD i = decide (i.val < 8) := by decide
  have h := this ⟨i, hi⟩
  simp only at h
  rw [BitVec.getLsbD_and, h]
  simp [hi, Bool.and_comm]

/-- Clearing the ignored bits leaves bits [7:0]. -/
theorem low_byte_and (v : Word) : (v &&& 0xFF).extractLsb' 0 8 = v.extractLsb' 0 8 := by
  apply BitVec.eq_of_getLsbD_eq
  intro i hi
  have : ∀ i : Fin 32, (0xFF : Word).getLsbD i = decide (i.val < 8) := by decide
  have h := this ⟨i, by omega⟩
  simp at h
  simp [hi, h]

/-- Clearing the ignored bits leaves bits [2:0]. -/
theorem low_three_and (v : Word) : (v &&& 0x7).extractLsb' 0 3 = v.extractLsb' 0 3 := by
  apply BitVec.eq_of_getLsbD_eq
  intro i hi
  have : ∀ i : Fin 32, (0x7 : Word).getLsbD i = decide (i.val < 3) := by decide
  have h := this ⟨i, by omega⟩
  simp at h
  simp [hi, h]

@[simp] theorem busWrite_offset (off : Offset) (v : Word) :
    (busWriteBits off v).extractLsb' 0 16 = off := by
  apply BitVec.eq_of_getLsbD_eq
  intro i hi
  rw [BitVec.getLsbD_extractLsb']
  unfold busWriteBits
  rw [BitVec.getLsbD_append]
  simp [hi]

@[simp] theorem busWrite_value (off : Offset) (v : Word) :
    (busWriteBits off v).extractLsb' 16 32 = v := by
  apply BitVec.eq_of_getLsbD_eq
  intro i hi
  rw [BitVec.getLsbD_extractLsb']
  unfold busWriteBits
  rw [BitVec.getLsbD_append]
  simp [hi]

/-- A bus write's bits are its offset and its value, and nothing else. -/
theorem busWriteBits_fields (v : BitVec 48) :
    busWriteBits (v.extractLsb' 0 16) (v.extractLsb' 16 32) = v := by
  apply BitVec.eq_of_getLsbD_eq
  intro i hi
  unfold busWriteBits
  rw [BitVec.getLsbD_append]
  by_cases h : i < 16
  · simp [h]
  · simp [h, show i - 16 < 32 by omega, show 16 + (i - 16) = i by omega]

theorem decode_busWriteBits (off : Offset) (v : Word) :
    decode (.bus (busWriteBits off v)) = decodeBusWrite off v := by
  simp only [decode, busWrite_offset, busWrite_value]

theorem Reg.offset_of_ofOffset (off : Offset) (r : Reg) (h : Reg.ofOffset off = some r) : r.offset = off := by
  have := List.find?_some h
  simpa using this

@[simp] theorem Reg.ofOffset_offset (r : Reg) : Reg.ofOffset r.offset = some r := by
  cases r <;> decide

/-- Past the register file no register is named (20_memory.md R63). -/
theorem Reg.ofOffset_none (off : Offset) (h : 0x04C ≤ off.toNat) : Reg.ofOffset off = none := by
  cases hr : Reg.ofOffset off with
  | none => rfl
  | some r =>
    have := Reg.offset_of_ofOffset off r hr
    subst this
    cases r <;> simp [Reg.offset] at h

/-- An offset is a multiple of 4 exactly when `off[1:0] = 0` (20_memory.md R61). -/
theorem aligned_iff (off : Offset) : aligned off = true ↔ off.extractLsb' 0 2 = 0 := by
  have : ∀ i : Fin 16, (3 : Offset).getLsbD i = decide (i.val < 2) := by decide
  unfold aligned
  rw [beq_iff_eq]
  constructor
  · intro h
    apply BitVec.eq_of_getLsbD_eq
    intro i hi
    have h1 := congrArg (fun x => x.getLsbD i) h
    simp only [BitVec.getLsbD_and] at h1
    have h2 := this ⟨i, by omega⟩
    simp only at h2
    rw [h2] at h1
    simpa [hi] using h1
  · intro h
    apply BitVec.eq_of_getLsbD_eq
    intro i hi
    rw [BitVec.getLsbD_and]
    have h2 := this ⟨i, by omega⟩
    simp only at h2
    rw [h2]
    by_cases hi2 : i < 2
    · have h1 := congrArg (fun x => x.getLsbD i) h
      simpa [hi2] using h1
    · simp [hi2]

/-- What a bus write decodes to is its register's instruction. -/
theorem decodeBusWrite_ok (off : Offset) (v : Word) (i : Instr) (h : decodeBusWrite off v = .ok i) :
    ∃ r : Reg, r.offset = off ∧ decodeRegWrite r v = .ok i := by
  unfold decodeBusWrite at h
  split at h
  · split at h
    · rename_i r hr
      exact ⟨r, Reg.offset_of_ofOffset off r hr, h⟩
    · simp at h
  · simp at h

end Sys2Proof
end

