-- ==== Sys2Proof/Laws/Moves.lean ====
section
/-! SUPPORT. What the agents' moves leave alone: the choice of the agent, the parameters, the FIFO's
room, the places of STATUS's fields, and the URI table's lookup. -/

namespace Sys2Proof.Machine

/-- Choosing the agent uses up only the schedule and the draws (20_memory.md R71). -/
theorem pickAgent_keeps (s : State) :
    ∃ a sched draws, s.pickAgent = (a, { s with sched := sched, draws := draws }) := by
  unfold State.pickAgent
  split
  · exact ⟨_, _, _, rfl⟩
  · split <;> exact ⟨_, _, _, rfl⟩

/-! No move writes the parameters (00_scope.md R8). -/

theorem engineStep_params (s : State) (f : Byte → Verdict) (g : Verdict) :
    (s.engineStep f g).params = s.params := by
  unfold State.engineStep State.settle
  repeat' split
  all_goals rfl

theorem push_params (s : State) (e : Entry) : (s.push e).params = s.params := by
  unfold State.push
  repeat' split
  all_goals rfl

theorem start_params (s : State) (op : Byte) : (s.start op).params = s.params := by
  unfold State.start
  repeat' split
  all_goals rfl

theorem busRead_params (s : State) (off : Offset) : (s.busRead off).params = s.params := by
  unfold State.busRead
  repeat' split
  all_goals rfl

/-- A verdict that leaves the command active keeps the FIFO as the entry's removal left it. -/
theorem settle_active_fifo (s : State) (v : Verdict) (w : Work) (h : (s.settle v).opst = .active w) :
    (s.settle v).fifo = s.fifo := by
  cases v with
  | go w1 => rfl
  | done w1 q => cases q <;> simp [State.settle] at h
  | bad e => simp [State.settle] at h

/-- Whatever the verdict, no entry is added. -/
theorem settle_fifo_length (s : State) (v : Verdict) : (s.settle v).fifo.length ≤ s.fifo.length := by
  cases v with
  | go w => exact Nat.le_refl _
  | done w q => cases q <;> simp [State.settle]
  | bad e => simp [State.settle]

/-- "the engine and completion only remove" entries (20_memory.md R73). -/
theorem engineStep_fifo_le (s : State) (f : Byte → Verdict) (g : Verdict) :
    (s.engineStep f g).fifo.length ≤ s.fifo.length := by
  unfold State.engineStep
  split
  · exact Nat.le_refl _
  · rename_i b rest hf
    refine Nat.le_trans (settle_fifo_length _ _) ?_
    simp [hf]
  · rename_i rest hf
    refine Nat.le_trans (settle_fifo_length _ _) ?_
    simp [hf]
  · simp

/-- A push adds at most its entry. -/
theorem push_fifo_le (s : State) (e : Entry) : (s.push e).fifo.length ≤ s.fifo.length + 1 := by
  unfold State.push
  split
  · split <;> simp
  · simp

/-- START adds no entry. -/
theorem start_fifo_le (s : State) (op : Byte) : (s.start op).fifo.length ≤ s.fifo.length := by
  unfold State.start
  split
  · simp
  · split <;> simp

/-- A read leaves the FIFO. -/
theorem busRead_fifo (s : State) (off : Offset) : (s.busRead off).fifo = s.fifo := by
  unfold State.busRead
  repeat' split
  all_goals rfl

/-- A write of IN_DATA or IN_END is `Push` of its entry (40_host_actions.md R144, R145). -/
theorem hostEvent_pushes (s : State) (ev : HostEvent) (e : Entry) (h : (Move.host ev).pushes = some e) :
    hostEvent s ev = .next (s.push e) := by
  cases ev with
  | write off v =>
    simp only [Move.pushes] at h
    split at h
    · rename_i ho
      injection h with h
      subst ho h
      simp only [hostEvent, decode_busWriteBits]
      rfl
    · split at h
      · rename_i ho
        injection h with h
        subst ho h
        simp only [hostEvent, decode_busWriteBits]
        rfl
      · cases h
  | read off => cases h
  | otherWidth bits off => cases h
  | hardReset => cases h

/-- The engine's turn is the active command's step, or nothing (40_host_actions.md R150, R159). -/
theorem engineTurn_next (s : State) :
    engineTurn s = .next (match s.opst with
      | .active w => s.engineStep (workByte s.params w) (workEnd s.params w)
      | _ => s) := by
  unfold engineTurn
  cases hw : s.opst with
  | active w =>
    have : decode (.cmd (w.op.setWidth 32)) = .ok w.command.instr := decode_word w.command
    simp only [this, exec_command_active s w hw]
  | idle => rfl
  | doneOk => rfl
  | doneErr => rfl

/-- A host event but one of another width answers a next state, which keeps the parameters and has at
most one entry more, and that only for a push. -/
theorem hostEvent_next (s : State) (ev : HostEvent) (hw : ∀ bits off, ev ≠ .otherWidth bits off) :
    ∃ u, hostEvent s ev = .next u ∧ u.params = s.params ∧
      u.fifo.length ≤ s.fifo.length + (if (Move.host ev).pushes.isSome then 1 else 0) := by
  cases hp : (Move.host ev).pushes with
  | some e => exact ⟨_, hostEvent_pushes s ev e hp, push_params s e, push_fifo_le s e⟩
  | none =>
    cases ev with
    | read off => exact ⟨_, rfl, busRead_params s off, by rw [busRead_fifo]; simp⟩
    | otherWidth bits off => exact absurd rfl (hw bits off)
    | hardReset => exact ⟨_, rfl, rfl, by simp⟩
    | write off v =>
      simp only [hostEvent, decode_busWriteBits]
      cases hd : decodeBusWrite off v with
      | error e => exact ⟨_, rfl, rfl, by simp⟩
      | ok i =>
        obtain ⟨r, ho, hr⟩ := decodeBusWrite_ok off v i hd
        subst ho
        cases r <;> simp only [decodeRegWrite, reduceCtorEq, Except.ok.injEq] at hr <;> subst hr
        · exact ⟨_, rfl, start_params s _, by simpa using start_fifo_le s _⟩
        · refine ⟨_, rfl, ?_, ?_⟩ <;> split <;> simp
        · exact ⟨_, rfl, rfl, by simp⟩
        · simp [Move.pushes, Reg.offset] at hp
        · simp [Move.pushes, Reg.offset] at hp
        · simp only [exec, execWReqCode]
          split
          · exact ⟨_, rfl, rfl, by simp⟩
          · exact ⟨_, rfl, rfl, by simp⟩

/-- A move of either agent but an access of another width answers a next state, which keeps the parameters
and has at most one entry more, and that only for a push. -/
theorem Move.run_next (s : State) (m : Move) (hw : ∀ bits off, m ≠ .host (.otherWidth bits off)) :
    ∃ u, m.run s = .next u ∧ u.params = s.params ∧
      u.fifo.length ≤ s.fifo.length + (if m.pushes.isSome then 1 else 0) := by
  cases m with
  | host ev => exact hostEvent_next s ev fun b o h => hw b o (by rw [h])
  | engine =>
    refine ⟨_, engineTurn_next s, ?_, ?_⟩
    · split
      · exact engineStep_params s _ _
      · rfl
    · split
      · exact Nat.le_trans (engineStep_fifo_le s _ _) (Nat.le_add_right _ _)
      · exact Nat.le_add_right _ _

/-- The places of STATUS's fields (10_state.md R27). -/
theorem State.status_bit (s : State) (i : Nat) :
    s.status.getLsbD i = if i < 1 then s.opst.busy.getLsbD i
      else if i < 2 then s.opst.done.getLsbD (i - 1) else if i < 3 then s.opst.err.getLsbD (i - 2)
      else if i < 8 then false else if i < 16 then s.inLevel.getLsbD (i - 8)
      else if i < 24 then s.inFree.getLsbD (i - 16) else false := by
  have hz : ∀ n j, (0 : BitVec n).getLsbD j = false := by simp
  unfold State.status
  simp only [BitVec.getLsbD_append, hz]
  split_ifs <;> first | rfl | omega

/-- A code is found exactly as the least one of its string (43_uri.md R261). -/
theorem codeOf_least (p : Params) (str : List Byte) (c : Nat) (h : p.uriTable[c]? = some str)
    (hl : ∀ d, d < c → p.uriTable[d]? ≠ some str) : codeOf p str = some c := by
  rw [codeOf, List.findIdx?_eq_some_iff_getElem]
  obtain ⟨hlt, he⟩ := List.getElem?_eq_some_iff.1 h
  refine ⟨hlt, by simp [he], fun j hj => ?_⟩
  have := hl j hj
  rw [List.getElem?_eq_getElem (by omega)] at this
  simpa using this

theorem codeOf_absent (p : Params) (str : List Byte) (h : ∀ d : Nat, p.uriTable[d]? ≠ some str) :
    codeOf p str = none := by
  rw [codeOf, List.findIdx?_eq_none_iff]
  intro x hx
  obtain ⟨i, hi, rfl⟩ := List.mem_iff_getElem.1 hx
  have := h i
  rw [List.getElem?_eq_getElem hi] at this
  simpa using this

/-- No string of the table is longer than URI_MAXP (00_scope.md R8). -/
theorem length_le_uriMaxP (p : Params) (str : List Byte) (h : str ∈ p.uriTable) :
    str.length ≤ uriMaxP p := by
  unfold uriMaxP
  generalize p.uriTable = tbl at h
  induction tbl with
  | nil => simp at h
  | cons a t ih =>
    simp only [List.foldr_cons]
    rcases List.mem_cons.1 h with rfl | h
    · omega
    · have := ih h; omega

/-- RESULT with FLAG set, and clear (10_state.md R39). -/
theorem resultOf_found (b : Byte) : resultOf true b = BitVec.ofNat 9 (256 + b.toNat) := by
  revert b; decide

theorem resultOf_unknown (b : Byte) : resultOf false b = BitVec.ofNat 9 b.toNat := by
  revert b; decide

end Sys2Proof.Machine
end

