-- ==== Sys2Proof/Laws/PerInstr.lean ====
section
/-! SUPPORT. Canonical: what clearing the ignored bits of an instruction gives, constructor by
constructor (spec/30_encoding.md R93). -/

namespace Sys2Proof.Laws.Canonical

/-- The canonical form sets no ignored bit, is its own canonical form, and changes no instruction that
sets none. -/
def Statement (i : Instr) : Prop :=
  i.canonical.wellFormed = true ∧ i.canonical.canonical = i.canonical ∧
    (i.wellFormed = true → i.canonical = i)

/-- A value cut to a mask has no bit outside it. -/
theorem cut_outside (v m : Word) : v &&& m &&& ~~~m = 0 := by
  apply BitVec.eq_of_getLsbD_eq
  intro k hk
  cases hv : v.getLsbD k <;> cases hm : m.getLsbD k <;> simp [hk, hv, hm]

theorem cut_twice (v m : Word) : v &&& m &&& m = v &&& m := by
  apply BitVec.eq_of_getLsbD_eq
  intro k hk
  cases hv : v.getLsbD k <;> cases hm : m.getLsbD k <;> simp [hv, hm]

/-- A value with no bit outside a mask is its own cut. -/
theorem cut_of_inside (v m : Word) (h : v &&& ~~~m = 0) : v &&& m = v := by
  apply BitVec.eq_of_getLsbD_eq
  intro k hk
  have h0 : (v &&& ~~~m).getLsbD k = false := by rw [h]; simp
  rw [BitVec.getLsbD_and, BitVec.getLsbD_not, decide_eq_true hk] at h0
  rw [BitVec.getLsbD_and]
  cases hv : v.getLsbD k <;> cases hm : m.getLsbD k <;> rw [hv, hm] at h0 <;> first | rfl | exact absurd h0 (by decide)

theorem frmEnc : Statement .frmEnc := ⟨rfl, rfl, fun _ => rfl⟩
theorem frmDec : Statement .frmDec := ⟨rfl, rfl, fun _ => rfl⟩
theorem ackChk : Statement .ackChk := ⟨rfl, rfl, fun _ => rfl⟩
theorem ndefDec : Statement .ndefDec := ⟨rfl, rfl, fun _ => rfl⟩
theorem ndefEnc : Statement .ndefEnc := ⟨rfl, rfl, fun _ => rfl⟩
theorem tlvParse : Statement .tlvParse := ⟨rfl, rfl, fun _ => rfl⟩
theorem uriExp : Statement .uriExp := ⟨rfl, rfl, fun _ => rfl⟩
theorem uriCmp : Statement .uriCmp := ⟨rfl, rfl, fun _ => rfl⟩

theorem wCmd (v : Word) : Statement (.wCmd v) :=
  ⟨beq_iff_eq.2 (cut_outside v 0xFF), congrArg Instr.wCmd (cut_twice v 0xFF),
    fun h => congrArg Instr.wCmd (cut_of_inside v 0xFF (beq_iff_eq.1 h))⟩

theorem wCtrl (v : Word) : Statement (.wCtrl v) :=
  ⟨beq_iff_eq.2 (cut_outside v 0x1), congrArg Instr.wCtrl (cut_twice v 0x1),
    fun h => congrArg Instr.wCtrl (cut_of_inside v 0x1 (beq_iff_eq.1 h))⟩

theorem wSticky (v : Word) : Statement (.wSticky v) :=
  ⟨beq_iff_eq.2 (cut_outside v 0x7), congrArg Instr.wSticky (cut_twice v 0x7),
    fun h => congrArg Instr.wSticky (cut_of_inside v 0x7 (beq_iff_eq.1 h))⟩

theorem wInData (v : Word) : Statement (.wInData v) :=
  ⟨beq_iff_eq.2 (cut_outside v 0xFF), congrArg Instr.wInData (cut_twice v 0xFF),
    fun h => congrArg Instr.wInData (cut_of_inside v 0xFF (beq_iff_eq.1 h))⟩

theorem wInEnd (v : Word) : Statement (.wInEnd v) :=
  ⟨beq_iff_eq.2 (cut_outside v 0xFF), congrArg Instr.wInEnd (cut_twice v 0xFF),
    fun h => congrArg Instr.wInEnd (cut_of_inside v 0xFF (beq_iff_eq.1 h))⟩

theorem wReqCode (v : Word) : Statement (.wReqCode v) :=
  ⟨beq_iff_eq.2 (cut_outside v 0xFF), congrArg Instr.wReqCode (cut_twice v 0xFF),
    fun h => congrArg Instr.wReqCode (cut_of_inside v 0xFF (beq_iff_eq.1 h))⟩

end Sys2Proof.Laws.Canonical
end

