-- ==== Sys2Proof/Tests/Slice0.lean ====
section
/-! SUPPORT. Tests: ill-formed terms are refused, every constructor's word decodes, single steps of
spec/95_test_vectors.md, and for every statement with hypotheses a state that meets them. -/

namespace Sys2Proof.Tests

open Sys2Proof Sys2Proof.Machine

/-! Well-formedness: each check refuses an ill-formed term -/

theorem test_wellFormed_refuses_ignored_bits :
    (Instr.wCmd 0x100).wellFormed = false ∧ (Instr.wCtrl 0x2).wellFormed = false ∧
    (Instr.wSticky 0x8).wellFormed = false ∧ (Instr.wInData 0x80000000).wellFormed = false ∧
    (Instr.wInEnd 0x100).wellFormed = false ∧ (Instr.wReqCode 0x10002).wellFormed = false := by decide

theorem test_wellFormed_accepts_used_bits :
    (Instr.wCmd 0xFF).wellFormed = true ∧ (Instr.wCtrl 0x1).wellFormed = true ∧
    (Instr.wSticky 0x7).wellFormed = true ∧ Instr.tlvParse.wellFormed = true := by decide

theorem test_wellFormed_refuses_abort_zero : (Entry.abort 0).wellFormed = false := by decide

theorem test_wellFormed_refuses_other_width_32 :
    (HostEvent.otherWidth 32 0x010).wellFormed = false := by decide

theorem test_legal_refuses_inDepth :
    ({ defaultParams with inDepth := 0 } : Params).legal = false ∧
    ({ defaultParams with inDepth := 256 } : Params).legal = false := by decide

theorem test_legal_refuses_outCap :
    ({ defaultParams with outCap := 260 } : Params).legal = false ∧
    ({ defaultParams with outCap := 266 } : Params).legal = false ∧
    ({ defaultParams with outCap := 61444 } : Params).legal = false := by decide

theorem test_legal_refuses_uriTable :
    ({ defaultParams with uriTable := [[], httpWww] } : Params).legal = false ∧
    ({ defaultParams with uriTable := [0x61] :: defaultUriTable.drop 1 } : Params).legal = false := by decide

/-! Tables: the literals of spec/30_encoding.md R116 -/

/-- The parameters of spec/00_scope.md R8 are legal; the witness of InvariantAtReset. -/
theorem test_default_params_legal : defaultParams.legal = true := by decide

/-- R116, R8: 36 entries, none longer than entry 0x07, which has 26 bytes. -/
theorem test_uri_table_lengths :
    defaultUriTable.length = 36 ∧ (defaultUriTable.all fun t => decide (t.length ≤ 26)) = true ∧
    defaultUriTable[7]?.map List.length = some 26 := ⟨rfl, by decide, by decide⟩

/-! Decoding: words written out from spec/30_encoding.md R90, R91, R93 -/

theorem test_decode_frmEnc : decode (.cmd 0b00000000000000000000000000000001) = .ok .frmEnc := by decide
theorem test_decode_frmDec : decode (.cmd 0b00000000000000000000000000000010) = .ok .frmDec := by decide
theorem test_decode_ackChk : decode (.cmd 0b00000000000000000000000000000011) = .ok .ackChk := by decide
theorem test_decode_ndefDec : decode (.cmd 0b00000000000000000000000000010000) = .ok .ndefDec := by decide
theorem test_decode_ndefEnc : decode (.cmd 0b00000000000000000000000000010001) = .ok .ndefEnc := by decide
theorem test_decode_tlvParse : decode (.cmd 0b11111111111111111111111100010010) = .ok .tlvParse := by decide
theorem test_decode_uriExp : decode (.cmd 0b00000000000000000000000000100000) = .ok .uriExp := by decide
theorem test_decode_uriCmp : decode (.cmd 0b00000000000000000000000000100001) = .ok .uriCmp := by decide
theorem test_decode_wCmd : decode (.bus 0x00000312_0010) = .ok (.wCmd 0x312) := by decide
theorem test_decode_wCtrl : decode (.bus 0x00000001_0014) = .ok (.wCtrl 1) := by decide
theorem test_decode_wSticky : decode (.bus 0x00000007_001C) = .ok (.wSticky 7) := by decide
theorem test_decode_wInData : decode (.bus 0x000000FE_0020) = .ok (.wInData 0xFE) := by decide
theorem test_decode_wInEnd : decode (.bus 0x00000041_0024) = .ok (.wInEnd 0x41) := by decide
theorem test_decode_wReqCode : decode (.bus 0x0000004A_0038) = .ok (.wReqCode 0x4A) := by decide

theorem test_decode_rejects :
    decode (.cmd 0x13) = .error (.unassignedOpcode 0x13) ∧
    decode (.bus 0x00000001_0018) = .error (.readOnly .status) ∧
    decode (.bus 0x00000001_0012) = .error (.misaligned 0x012) ∧
    decode (.bus 0x00000001_0050) = .error (.noRegister 0x050) := by decide

/-- Two rows of spec/opcode_table.json as the host asks for them. -/
theorem test_table_words :
    decodeTableWord 32 0x12 = some .tlvParse ∧ decodeTableWord 16 0x14 = some (.wCtrl 0) ∧
    decodeTableWord 8 0x21 = some .uriCmp ∧ decodeTableWord 16 0x18 = none := by decide

/-! States for the tests -/

/-- The working state of a command with nothing pending. -/
def work (out : List Byte) (c : CmdWork) : Work :=
  { out := out, msgs := 0, recs := 0, res := 0, echo := 0, cmd := c }

/-- A block with an active command and a FIFO. -/
def busy (w : Work) (es : List Entry) : State :=
  { State.reset with opst := .active w, lastOp := w.op, fifo := es }

/-- The next state of an outcome. -/
def nextOf (o : Host.Outcome State Fault Refusal) : Option State :=
  match o with
  | .next s => some s
  | .fault _ => none
  | .refused _ => none

/-- A started command with entries pushed to it. -/
def fed (c : Command) (es : List Entry) : State :=
  es.foldl State.push (State.reset.softReset.start c.opcode)

theorem inv_pushes (es : List Entry) (s : State) (h : Inv s) (he : ∀ e ∈ es, e.wellFormed = true) :
    Inv (es.foldl State.push s) := by
  induction es generalizing s with
  | nil => exact h
  | cons e es ih =>
    exact ih (s.push e) (push_inv s e h (he e (by simp))) fun x hx => he x (List.mem_cons_of_mem _ hx)

theorem inv_fed (c : Command) (es : List Entry) (he : ∀ e ∈ es, e.wellFormed = true) : Inv (fed c es) :=
  inv_pushes es _ (start_inv _ _ (softReset_inv _ ⟨by decide, by decide, by decide⟩)) he

/-- FRM_ENC after one payload byte, with `End` queued. -/
def encReady : State :=
  ((fed .frmEnc [.data 0x2C]).engineStep
    (workByte defaultParams (initWork 0 .frmEnc)) (workEnd defaultParams (initWork 0 .frmEnc))).push .endMark

theorem inv_encReady : Inv encReady :=
  push_inv _ _ (engineStep_inv _ _ (inv_fed .frmEnc _ (by decide)) rfl) rfl

/-! Single steps (spec/95_test_vectors.md; at most two for an instruction) -/

/-- E3: payload `2C` gives DCS 0x00 and REQ_CODE 0x2C. -/
theorem test_frmEnc_frame :
    (nextOf (exec .frmEnc encReady)).map (fun t => (t.reqCode, t.outLen, t.outByte 7, t.opst)) =
      some (0x2C, 9, some 0x00, .doneOk) := by decide

/-- E6: `End` with no payload is ENC_EMPTY. -/
theorem test_frmEnc_empty :
    (nextOf (exec .frmEnc (fed .frmEnc [.endMark]))).map (fun t => (t.errCode, t.errPos)) = some (0x20, 0) := by
  decide

/-- D24: LEN = 1 with a correct LCS is FRM_BAD_LEN, at byte 5. -/
theorem test_frmDec_bad_len :
    (nextOf (exec .frmDec { busy (work [] (.frmDec
        { ph := .hdr, i := 4, len := 0x01, sum := 0, exp := 0x03, rem := 0 })) [.data 0xFF] with
      inPos := 4 })).map (fun t => (t.errCode, t.errPos)) = some (0x13, 5) := by decide

/-- D5: REQ_CODE 0xFF expects the echo 0x00. -/
theorem test_frmDec_echo_wraps : (initWork 0xFF .frmDec).cmd =
    .frmDec { ph := .hdr, i := 0, len := 0, sum := 0, exp := 0x00, rem := 0 } := by decide

/-- A4: the sixth ACK byte must be 0x00. -/
theorem test_ackChk_last :
    (nextOf (exec .ackChk (busy (work [] (.ackChk 5)) [.data 0x01]))).map (·.errCode) = some 0x30 ∧
    (nextOf (exec .ackChk (busy (work [] (.ackChk 5)) [.data 0x00]))).map (·.opst) = some .doneOk := by decide

/-- N5: a record without fields is done at its third byte, with a 7-byte RD. -/
theorem test_ndefDec_empty_record :
    (nextOf (exec .ndefDec (busy (work [] (.ndefDec
        { ph := .plen, flags := 0xD0, tlen := 0, plen := 0, idlen := 0, k := 0, cnt := 0 }))
      [.data 0x00]))).map (fun t => (t.opst, t.outLen, t.outByte 0, t.recCount, t.msgCount)) =
      some (.doneOk, 7, some 0xD0, 1, 1) := by decide

/-- C4: IL is set in the wire header because the id is not empty. -/
theorem test_ndefEnc_sets_il :
    (nextOf (exec .ndefEnc (busy (work [] (.ndefEnc
        { ph := .pl, flags := 0xD1, tlen := 1, idlen := 2, plen := 0, k := 3, cnt := 0 }))
      [.data 0x01]))).map (·.opst) =
      some (.active (work [0xD9, 0x01, 0x01, 0x02] (.ndefEnc
        { ph := .type, flags := 0xD1, tlen := 1, idlen := 2, plen := 1, k := 4, cnt := 1 }))) := by decide

/-- C5: an RD without fields is done at its seventh byte, as three wire bytes. -/
theorem test_ndefEnc_empty_record :
    (nextOf (exec .ndefEnc (busy (work [] (.ndefEnc
        { ph := .pl, flags := 0xD0, tlen := 0, idlen := 0, plen := 0, k := 3, cnt := 0 }))
      [.data 0x00]))).map (fun t => (t.opst, t.outLen, t.outByte 0, t.recCount)) =
      some (.doneOk, 3, some 0xD0, 1) := by decide

/-- T24: tag 0x02 is TLV_BAD_TAG. -/
theorem test_tlvParse_bad_tag :
    (nextOf (exec .tlvParse (fed .tlvParse [.data 0x02]))).map (fun t => (t.errCode, t.errPos, t.fifo)) =
      some (0x40, 1, []) := by decide

/-- T12: an NDEF Message TLV of length 0 is NDEF_TRUNCATED. -/
theorem test_tlvParse_empty_message :
    (nextOf (exec .tlvParse (busy (work [] (.tlvParse { ph := .l0, tag := 0x03, hi := 0, rem := 0 } recInit))
      [.data 0x00]))).map (·.errCode) = some 0x50 := by decide

/-- U1: code 0x01 expands to "http://www." with FLAG. -/
theorem test_uriExp_code :
    (nextOf (exec .uriExp (fed .uriExp [.data 0x01]))).map (·.opst) =
      some (.active { work httpWww (.uriExp .suf) with res := 0x101 }) := by decide

/-- U8: code 0xFF is unknown: no prefix, FLAG clear. -/
theorem test_uriExp_unknown :
    (nextOf (exec .uriExp (fed .uriExp [.data 0xFF]))).map (·.opst) =
      some (.active { work [] (.uriExp .suf) with res := 0x0FF }) := by decide

/-- K3: "urn:" is code 0x13. -/
theorem test_uriCmp_urn :
    (nextOf (exec .uriCmp (busy (work [] (.uriCmp { buf := [0x75, 0x72, 0x6E, 0x3A], long := false }))
      [.endMark]))).map (·.result) = some 0x113 := by decide

/-- K7: one byte too many leaves RESULT 0. -/
theorem test_uriCmp_long :
    (nextOf (exec .uriCmp (busy (work [] (.uriCmp { buf := [0x75, 0x72, 0x6E, 0x3A], long := true }))
      [.endMark]))).map (·.result) = some 0 := by decide

/-- H5, H6: an unassigned opcode fails at once; bits [31:8] are ignored. -/
theorem test_wCmd_start :
    (nextOf (exec (.wCmd 0x7F) State.reset)).map (fun t => (t.status, t.errCode, t.lastOp)) =
      some (0x00100006, 0x01, 0x7F) ∧
    (nextOf (exec (.wCmd 0x00000312) State.reset)).map (fun t => (t.status, t.lastOp)) =
      some (0x00100001, 0x12) := by decide

/-- H17: a soft reset of a busy block. -/
theorem test_wCtrl_reset :
    (nextOf (exec (.wCtrl 1) (fed .frmEnc [.data 1, .data 2]))).map (fun t => (t.status, t.lastOp, t.fifo)) =
      some (0x00100000, 0, []) := by decide

/-- H14: STICKY = 0x5, write 0x4. -/
theorem test_wSticky_clear :
    (nextOf (exec (.wSticky 0x4) { State.reset with sticky := 5 })).map (·.sticky) = some 1 := by decide

/-- H9: a push into an idle block is dropped. -/
theorem test_wInData_idle :
    (nextOf (exec (.wInData 0x55) State.reset)).map (fun t => (t.sticky, t.fifo)) = some (2, []) := by decide

/-- H16: the seventeenth entry overflows. -/
theorem test_wInData_full :
    (nextOf (exec (.wInData 0xAB) (fed .frmEnc (List.replicate 16 (.data 0))))).map
      (fun t => (t.errCode, t.errPos, t.fifo, t.opst)) = some (0x02, 0, [], .doneErr) := by decide

/-- 40_host_actions.md R145's example: 0x41 pushes `Abort(0x41)`, 0 pushes `End`. -/
theorem test_wInEnd_entries :
    (nextOf (exec (.wInEnd 0x41) (fed .frmEnc []))).map (·.fifo) = some [.abort 0x41] ∧
    (nextOf (exec (.wInEnd 0x100) (fed .frmEnc []))).map (·.fifo) = some [.endMark] := by decide

/-- H8 and 40_host_actions.md R147's example. -/
theorem test_wReqCode :
    (nextOf (exec (.wReqCode 5) (fed .frmEnc []))).map (fun t => (t.sticky, t.reqCode)) = some (1, 0) ∧
    (nextOf (exec (.wReqCode 2) State.reset)).map (·.reqCode) = some 2 := by decide

/-- H15: ACTIVE with 3 entries reads STATUS 0x000D0301. -/
theorem test_status_read :
    (nextOf (hostEvent (fed .frmEnc [.data 1, .data 2, .endMark]) (.read 0x018))).map (·.readLog) =
      some [0x000D0301] := by decide

/-- A block whose last command left four output bytes, as vector D1 does. -/
def shown : State :=
  { State.reset with
    opst := .doneOk
    outLen := 4
    out := [(0x1000, 0x32), (0x1001, 0x01), (0x1002, 0x06), (0x1003, 0x07)] }

/-- H18: the output of D1 reads as 0x07060132. -/
theorem test_outBuf_read :
    (nextOf (hostEvent shown (.read 0x1000))).map (·.readLog) = some [0x07060132] := by decide

/-- H10, H11, H12: bad accesses. -/
theorem test_bad_accesses :
    (nextOf (hostEvent State.reset (.read 0x012))).map (fun t => (t.readLog, t.sticky)) = some ([0], 4) ∧
    (nextOf (hostEvent State.reset (.write 0x018 1))).map (·.sticky) = some 4 ∧
    (nextOf (hostEvent State.reset (.read 0x050))).map (fun t => (t.readLog, t.sticky)) = some ([0], 4) := by
  decide

/-- 70_reset_and_hazards.md R340: the reset input has soft reset's effect. -/
theorem test_hardReset :
    (nextOf (hostEvent (fed .frmEnc [.data 1]) .hardReset)).map (fun t => (t.status, t.lastOp)) =
      some (0x00100000, 0) := by decide

/-- 20_memory.md R60: another width is refused, by name. -/
theorem test_other_width_refused :
    hostEvent State.reset (.otherWidth 8 0x010) = .refused (.accessWidth 8) := rfl

/-- A placed row runs as the first instruction after reset. -/
theorem test_withFetchWord :
    step (State.reset.withFetchWord 16 0x14) = exec (.wCtrl 0) State.reset ∧
    (nextOf (step (State.reset.withFetchWord 32 0x12))).map (fun t => (t.lastOp, t.inPos)) = some (0x12, 1) :=
  ⟨rfl, by decide⟩

/-! Witnesses: for each statement with hypotheses, states and operands that meet them, clause by clause,
at boundary values -/

theorem witness_DecodeInvertsEncode :
    decode (.cmd 0xFFFFFF21) = .ok .uriCmp ∧ decode (.bus 0xFFFFFFFF_0038) = .ok (.wReqCode 0xFFFFFFFF) := by
  decide

theorem witness_UnassignedOpcodesFail :
    (∀ w, State.reset.opst ≠ .active w) ∧ (opcodeOf 0xFFFFFF00).toNat = 0x00 ∧
    (opcodeOf 0x04).toNat = 0x04 ∧ (opcodeOf 0x0F).toNat = 0x0F ∧ (opcodeOf 0x13).toNat = 0x13 ∧
    (opcodeOf 0x1F).toNat = 0x1F ∧ (opcodeOf 0x22).toNat = 0x22 ∧ (opcodeOf 0xFF).toNat = 0xFF ∧
    (opcodeOf 0x03).toNat = 0x03 ∧ (opcodeOf 0x21).toNat = 0x21 :=
  ⟨(fun _ h => nomatch h), by decide⟩

/-- A block with one queued bus write and, where it is busy, one entry. -/
def queued (s : State) (off : Offset) (v : Word) (sched : List Agent) : State :=
  { s with host := [.write off v], sched := sched }

theorem witness_StepRunsDecodedInstruction :
    (queued State.reset 0x014 1 [.host]).host = .write 0x014 1 :: [] ∧
    decode (.bus (busWriteBits 0x014 1)) = .ok (.wCtrl 1) ∧
    (queued (fed .ackChk [.data 0]) 0x014 1 [.engine]).opst = .active (work [] (.ackChk 0)) ∧
    decode (.cmd ((work [] (.ackChk 0)).op.setWidth 32)) = .ok .ackChk ∧
    (queued State.reset 0x014 1 []).sched = [] ∧ (queued (fed .ackChk []) 0x014 1 []).fifo = [] ∧
    (fed .ackChk [.data 0]).host = [] ∧ (fed .ackChk [.data 0]).fifo ≠ [] ∧
    (queued (fed .ackChk [.data 0]) 0x014 1 []).fifo ≠ [] ∧
    (queued (fed .ackChk [.data 0]) 0x014 1 []).opst = .active (work [] (.ackChk 0)) := by
  decide

theorem witness_PlacedInstructionRunsNext :
    decode (.bus (busWriteBits 0x024 0xFF)) = .ok (.wInEnd 0xFF) ∧ 65535 < 65536 := by decide

theorem witness_StartRule :
    (fed .frmEnc []).opst = .active (work [] (.frmEnc { n := 0, sum := 0, buf := [] })) ∧
    State.reset.opst = .idle ∧ Command.opcode .uriCmp = opcodeOf 0xFFFFFF21 ∧
    (∀ c : Command, c.opcode ≠ opcodeOf 0x22) :=
  ⟨by decide, rfl, by decide, fun c => by cases c <;> decide⟩

theorem witness_SoftResetRule :
    (0xFFFFFFFF : Word).getLsbD 0 = true ∧ (0xFFFFFFFE : Word).getLsbD 0 = false := by decide

theorem witness_PushRule :
    pushedEntry (.wInData 0x1FF) = some (.data 0xFF) ∧ pushedEntry (.wInEnd 1) = some (.abort 1) ∧
    State.reset.opst = .idle ∧
    (fed .frmEnc (List.replicate 16 (.data 0))).opst =
      .active (work [] (.frmEnc { n := 0, sum := 0, buf := [] })) ∧
    (fed .frmEnc (List.replicate 16 (.data 0))).fifo.length = defaultParams.inDepth ∧
    (fed .frmEnc (List.replicate 15 (.data 0))).fifo.length ≠ defaultParams.inDepth ∧
    (0xFFFFFF00 : Word).extractLsb' 0 8 = 0x00 ∧ (0x01 : Word).extractLsb' 0 8 ≠ 0x00 := by decide

theorem witness_ReqCodeRule :
    (fed .frmDec []).opst ≠ .idle ∧ (∃ w, (fed .frmDec []).opst = .active w) ∧ State.reset.opst = .idle :=
  ⟨by decide, ⟨_, rfl⟩, rfl⟩

theorem witness_StatusFields :
    ({ State.reset with params := { defaultParams with inDepth := 255 } } : State).params.inDepth ≤ 255 ∧
    (fed .frmEnc (List.replicate 16 (.data 0))).fifo.length ≤ 16 := by decide

/-- The last word of the window, a defined byte, and a byte past OUT_LEN. -/
theorem witness_OutBufRead :
    shown.params.legal = true ∧ 4 * 1023 < shown.params.outCap ∧ shown.opst = .doneOk ∧
    4 * 0 + 3 < shown.outLen.toNat ∧ Memory.read shown.out (0x1000 + 4 * 0 + 3) = some 0x07 ∧
    shown.outLen.toNat ≤ 4 * 1 + 0 := by decide

theorem witness_MisalignedAccess :
    (0x001 : Offset).extractLsb' 0 2 ≠ 0 ∧ (0xFFFF : Offset).extractLsb' 0 2 ≠ 0 := by decide

theorem witness_UnmappedAccess :
    State.reset.params.legal = true ∧ (0x04C : Offset).extractLsb' 0 2 = 0 ∧
    0x04C ≤ (0x04C : Offset).toNat ∧ (0xFFC : Offset).toNat ≤ 0xFFC ∧
    0x1000 + State.reset.params.outCap ≤ (0x2000 : Offset).toNat ∧
    (0xFFFC : Offset).extractLsb' 0 2 = 0 := by decide

theorem witness_ReadOnlyAndWriteOnly :
    (0x1000 : Offset).extractLsb' 0 2 = 0 ∧ (0x1FFC : Offset).extractLsb' 0 2 = 0 ∧
    (0x1FFC : Offset).toNat < 0x1000 + State.reset.params.outCap ∧
    (0x048 : Offset) ∈ ([0x044, 0x048] : List Offset) := by decide

theorem witness_OtherHostEvents :
    ({ State.reset with host := [.otherWidth 16 0], sched := [.host] } : State).sched = .host :: [] ∧
    ({ State.reset with host := [.hardReset], sched := [.host] } : State).host = .hardReset :: [] ∧
    (0xFFF : Nat) < ({ defaultParams with fncBase := 0x1000 } : Params).fncBase ∧
    ({ defaultParams with fncBase := 0x1000 } : Params).fncBase + 0x10000 ≤ 0x11000 :=
  ⟨rfl, rfl, by decide, by decide⟩

/-- The last address of a window at 0x40000000 is the last offset; the next is outside (R65). -/
theorem test_window_last_address :
    platformRead { defaultParams with fncBase := 0x40000000 } 0x4000FFFF = some (.read 0xFFFF) ∧
    platformRead { defaultParams with fncBase := 0x40000000 } 0x40010000 = none ∧
    platformWrite { defaultParams with fncBase := 0x40000000 } 0x40000010 1 = some (.write 0x010 1) := by
  decide

/-- One offset of each kind, at the ends of the ranges: bad ones, and ones that read. -/
theorem witness_ReadsKeepBlockState :
    (0x012 : Offset).extractLsb' 0 2 ≠ 0 ∧ 0x04C ≤ (0x04C : Offset).toNat ∧ (0xFFC : Offset).toNat < 0x1000 ∧
    0x1000 + State.reset.params.outCap ≤ (0x2000 : Offset).toNat ∧
    (0x014 : Offset).extractLsb' 0 2 = 0 ∧ (0x048 : Offset).toNat < 0x04C ∧
    (0x1FFC : Offset).extractLsb' 0 2 = 0 ∧ (0x1FFC : Offset).toNat < 0x1000 + State.reset.params.outCap := by
  decide

/-- Its clauses on one byte of OUT: a copied one, and the one after the last. -/
theorem witness_SucceedRule :
    (work [0x32, 0x01] (.uriExp .suf)).out[1]? = some 0x01 ∧ 0x1000 + 2 ≤ 0x1002 := by decide

theorem witness_AbortEndsEveryCommand :
    (busy (work [] (.ackChk 5)) [.abort 0xFF]).opst = .active (work [] (.ackChk 5)) ∧
    (busy (work [] (.ackChk 5)) [.abort 0xFF]).fifo = .abort 0xFF :: [] := ⟨rfl, rfl⟩

theorem witness_WaitingCommandStays :
    (fed .ackChk []).opst = .active (work [] (.ackChk 0)) ∧ (fed .ackChk []).fifo = [] ∧
    (work [] (.ackChk 0)).command ≠ .frmEnc ∧ (fed .ackChk []).sched = [] ∧ (fed .ackChk []).host = [] := by
  decide

theorem witness_EndBeforeCompletionFails :
    (∀ x, (busy (work [] (.frmDec x)) [.endMark]).fifo = .endMark :: []) ∧
    (fed .ackChk [.endMark]).opst = .active (work [] (.ackChk 0)) ∧
    (fed .ndefDec [.endMark]).opst = .active (work [] (.ndefDec recInit)) ∧
    (fed .ndefEnc [.endMark]).opst = .active (work [] (.ndefEnc encInit)) ∧
    (fed .tlvParse [.endMark]).opst =
      .active (work [] (.tlvParse { ph := .tag, tag := 0, hi := 0, rem := 0 } recInit)) ∧
    (TlvW.mk .nskip 0x03 0 1).ph ≠ .tag :=
  ⟨fun _ => rfl, by decide⟩

theorem witness_EngineStepConsumesOneEntry :
    (busy (work [] (.ackChk 5)) [.data 0]).opst = .active (work [] (.ackChk 5)) ∧
    (busy (work [] (.ackChk 5)) [.data 0]).fifo = .data 0 :: [] ∧
    (busy (work [] (.ackChk 5)) [.endMark, .data 0]).fifo = .endMark :: [.data 0] := ⟨rfl, rfl, rfl⟩

/-- URI_EXP at `End`: the invariant, the completion. -/
theorem witness_ResultsOfEachCommand :
    Inv (fed .uriExp [.endMark]) ∧ (fed .uriExp [.endMark]).opst = .active (work [] (.uriExp .code)) ∧
    (nextOf (exec .uriExp (fed .uriExp [.endMark]))).map (·.opst) = some .doneOk :=
  ⟨inv_fed _ _ (by decide), by decide, by decide⟩

theorem witness_EngineFrame :
    Inv encReady ∧ exec .frmEnc encReady = .next (encReady.engineStep
      (workByte defaultParams (work [] (.frmEnc { n := 1, sum := 0x2C, buf := [0x2C] })))
      (workEnd defaultParams (work [] (.frmEnc { n := 1, sum := 0x2C, buf := [0x2C] })))) :=
  ⟨inv_encReady, rfl⟩

theorem witness_HostWriteFrame :
    (∀ c : Command, Instr.wCtrl 2 ≠ c.instr) ∧ exec (.wCtrl 2) State.reset = .next State.reset ∧
    (2 : Word).getLsbD 0 = false ∧ pushedEntry (.wInEnd 0) = some .endMark :=
  ⟨fun c => by cases c <;> decide, rfl, by decide, by decide⟩

theorem witness_FrmEncByteRule :
    (fed .frmEnc [.data 0x2C]).opst = .active (work [] (.frmEnc { n := 0, sum := 0, buf := [] })) ∧
    (busy (work [] (.frmEnc { n := 254, sum := 0, buf := [] })) [.data 1]).fifo = .data 1 :: [] ∧
    (FrmEncW.mk 254 0 []).n = 254 ∧ (FrmEncW.mk 253 0 []).n ≠ 254 := by decide

theorem witness_FrmEncEndRule :
    Inv (fed .frmEnc [.endMark]) ∧
    (fed .frmEnc [.endMark]).opst = .active (work [] (.frmEnc { n := 0, sum := 0, buf := [] })) ∧
    Inv encReady ∧
    encReady.opst = .active (work [] (.frmEnc { n := 1, sum := 0x2C, buf := [0x2C] })) ∧
    encReady.fifo = .endMark :: [] :=
  ⟨inv_fed _ _ (by decide), by decide, inv_encReady, by decide, by decide⟩

theorem witness_FrameChecksumInvariant :
    Inv encReady ∧ (nextOf (exec .frmEnc encReady)).map (·.opst) = some .doneOk ∧
    (work [] (.frmEnc { n := 1, sum := 0x2C, buf := [0x2C] })).command = .frmEnc :=
  ⟨inv_encReady, by decide, rfl⟩

/-- Every whole-command statement starts here: the parameters are legal and the command is started. -/
theorem witness_started :
    (∀ c : Command, (fed c []).params.legal = true) ∧ ∀ c : Command, (fed c []).started c :=
  ⟨fun c => by cases c <;> decide, fun c => by cases c <;> exact ⟨rfl, rfl, rfl⟩⟩

/-- 254 payload bytes, the longest. -/
theorem witness_FrmEncBuildsFrame :
    (fed .frmEnc []).started .frmEnc ∧ (List.replicate 253 (0x41 : Byte)).length < 254 :=
  ⟨witness_started.2 _, by rw [List.length_replicate]; decide⟩

theorem witness_FrmDecHeaderRule :
    ∀ i ∈ [0, 1, 2, 3, 4, 5, 6],
      (busy (work [] (.frmDec { ph := .hdr, i := i, len := 2, sum := 0, exp := 3, rem := 0 })) [.data 3]).fifo =
        .data 3 :: [] ∧
      (0x01 : Byte).toNat < 2 ∧ 2 ≤ (0x02 : Byte).toNat ∧
      ((0x02 : Byte).toNat + (0xFE : Byte).toNat) % 256 = 0 ∧
      ((0x01 : Byte).toNat + (0xFF : Byte).toNat) % 256 = 0 ∧
      ((0x02 : Byte).toNat + (0xFF : Byte).toNat) % 256 ≠ 0 := by decide

theorem witness_FrmDecTrailerRule :
    (∀ ph ∈ [FrmDecPhase.pay, .dcs, .post],
      (busy (work [] (.frmDec { ph := ph, i := 6, len := 3, sum := 0xD8, exp := 3, rem := 1 })) [.data 0]).fifo =
        .data 0 :: []) ∧
    (work [] (.ackChk 0)).out.length < defaultParams.outCap ∧
    ({ State.reset with params := { defaultParams with outCap := 0 } } : State).params.outCap ≤ ([] : List Byte).length ∧
    ((0xD8 : Byte).toNat + (0x28 : Byte).toNat) % 256 = 0 ∧
    ((0xD8 : Byte).toNat + (0x00 : Byte).toNat) % 256 ≠ 0 := by decide

theorem witness_FrmDecAcceptsFrame :
    (fed .frmDec []).started .frmDec ∧ (List.replicate 253 (0x00 : Byte)).length ≤ 253 :=
  ⟨witness_started.2 _, by rw [List.length_replicate]⟩

/-- Vector D5: the shortest frame, `00 00 FF 02 FE D5 00 2B 00` for REQ_CODE 0xFF. -/
theorem witness_FrmDecAcceptsOnlyFrames :
    ({ fed .frmDec [] with
      reqCode := 0xFF
      opst := .active (initWork 0xFF .frmDec) } : State).started .frmDec ∧
    (nextOf (feed .frmDec (List.map Entry.data [0x00, 0x00, 0xFF, 0x02, 0xFE, 0xD5, 0x00, 0x2B, 0x00])
      { fed .frmDec [] with
        reqCode := 0xFF
        opst := .active (initWork 0xFF .frmDec) })).map (·.opst) = some .doneOk :=
  ⟨⟨rfl, rfl, rfl⟩, by decide⟩

theorem witness_AckByteRule :
    (busy (work [] (.ackChk 5)) [.data 0]).opst = .active (work [] (.ackChk 5)) ∧
    (busy (work [] (.ackChk 5)) [.data 0]).fifo = .data 0 :: [] ∧
    ackPattern[5]? = some 0x00 ∧ ackPattern[4]? = some 0xFF ∧ ackPattern[0]? ≠ some 0x01 := by decide

theorem witness_AckAcceptsExactlyTheLiteral :
    (fed .ackChk []).started .ackChk ∧ ([0, 0, 0, 0, 0, 0] : List Byte).length = 6 :=
  ⟨witness_started.2 _, rfl⟩

/-- Every phase, both ends of PL, IL set and clear, empty and non-empty fields, the last byte of a field,
room and none. -/
theorem witness_NdefDecByteRule :
    (∀ ph ∈ [RecPhase.hdr, .tlen, .plen, .idlen, .type, .id, .pay],
      (busy (work [] (.ndefDec { recInit with ph := ph, cnt := 1 })) [.data 0]).opst =
        .active (work [] (.ndefDec { recInit with ph := ph, cnt := 1 }))) ∧
    (0xD1 : Byte).getLsbD 4 = true ∧ (0xC1 : Byte).getLsbD 4 = false ∧ (0xD9 : Byte).getLsbD 3 = true ∧
    (0xD1 : Byte).getLsbD 3 = false ∧ (0x91 : Byte).getLsbD 6 = false ∧ (0xD1 : Byte).getLsbD 6 = true ∧
    0 + 1 = (if (0xD1 : Byte).getLsbD 4 then 1 else 4) ∧ 3 + 1 = (if (0xC1 : Byte).getLsbD 4 then 1 else 4) ∧
    0 + 1 ≠ (if (0xC1 : Byte).getLsbD 4 then 1 else 4) ∧
    ([] : List Byte).length + 7 ≤ defaultParams.outCap ∧
    (({ State.reset with params := { defaultParams with outCap := 0 } } : State).params.outCap <
      ([] : List Byte).length + 7) ∧
    recInit.tlen = 0 ∧ recInit.idlen = 0 ∧ recInit.plen = 0 ∧
    ({ recInit with tlen := 1, idlen := 1, plen := 1 } : RecW).tlen ≠ 0 ∧
    ({ recInit with idlen := 1 } : RecW).idlen ≠ 0 ∧ ({ recInit with plen := 1 } : RecW).plen ≠ 0 ∧
    (2 : Word) ≠ 1 := by decide

/-- A TYPE field's last byte goes on to an empty payload's end: D1 01 00 55 (R214, R221). -/
theorem test_record_ends_at_type :
    recByte 4096 (work [] (.ackChk 0)) { recInit with flags := 0xD1, tlen := 1, ph := .type, cnt := 1 } 0x55 =
      .msgDone { work [0x55] (.ackChk 0) with recs := 1, msgs := 1 } recInit := by decide

/-- A record of the source's end-to-end scenario: D1 01 02 55 01 61. -/
def uriRecord : NdefRecord := { flags := 0xD1, type := [0x55], ident := [], payload := [0x01, 0x61] }

theorem uriRecord_fits : uriRecord.fits ∧ uriRecord.describes ∧ uriRecord.canonical ∧
    isMessage [uriRecord] :=
  ⟨⟨by decide, by decide, by decide, by decide, by decide⟩, ⟨by decide, by decide, by decide⟩,
    ⟨by decide, by decide⟩, (by decide : flagME 0xD1 = true)⟩

theorem witness_NdefDecMessage :
    (fed .ndefDec []).started .ndefDec ∧ isMessage [uriRecord] ∧ (∀ r ∈ [uriRecord], r.fits) ∧
    (rdBytes [uriRecord]).length ≤ (fed .ndefDec []).params.outCap :=
  ⟨witness_started.2 _, uriRecord_fits.2.2.2, by simpa using uriRecord_fits.1, by decide⟩

theorem witness_NdefEncByteRule :
    (∀ ph ∈ [EncPhase.flg, .tl, .idl, .pl, .type, .id, .pay],
      (busy (work [] (.ndefEnc { encInit with ph := ph, cnt := 1 })) [.data 0]).opst =
        .active (work [] (.ndefEnc { encInit with ph := ph, cnt := 1 }))) ∧
    2 + 1 ≠ 4 ∧ (work [] (.ackChk 0)).out.length < defaultParams.outCap ∧
    ({ State.reset with params := { defaultParams with outCap := 0 } } : State).params.outCap ≤ ([] : List Byte).length ∧
    encInit.idlen = 0 ∧ encInit.plen = 0 ∧ ({ encInit with idlen := 1 } : EncW).idlen ≠ 0 ∧
    ({ encInit with plen := 1 } : EncW).plen ≠ 0 ∧
    (0x91 : Byte).getLsbD 6 = false ∧ (0xD1 : Byte).getLsbD 6 = true := by decide

/-- PL 254 (short), 255 (long), an RD without any field, and a header of three bytes at the end of a
264-byte output: two bytes of room overflow, three do not. -/
theorem witness_EncoderHeader :
    (busy (work [] (.ndefEnc { encInit with ph := .pl, k := 3 })) [.data 0xFE]).opst =
      .active (work [] (.ndefEnc { encInit with ph := .pl, k := 3 })) ∧
    (busy (work [] (.ndefEnc { encInit with ph := .pl, k := 3 })) [.data 0xFE]).fifo = .data 0xFE :: [] ∧
    (0xFE : Word) = (encInit.plen <<< 8) ||| (0xFE : Byte).setWidth 32 ∧ (0xFE : Word).toNat < 255 ∧
    (0xFF : Word) = (encInit.plen <<< 8) ||| (0xFF : Byte).setWidth 32 ∧ ¬ (0xFF : Word).toNat < 255 ∧
    (0x00 : Word) = (encInit.plen <<< 8) ||| (0x00 : Byte).setWidth 32 ∧
    264 < 262 + (wireHeader 0xD0 0 0 0).length ∧ 261 + (wireHeader 0xD0 0 0 0).length ≤ 264 := by decide

/-- An RD of three empty fields is done at its seventh byte: output D0 00 00 (R242). -/
theorem test_empty_rd_done :
    ndefEncByte 4096 (work [] (.ackChk 0)) { encInit with flags := 0xD0, ph := .pl, k := 3 } 0x00 =
      .done { work [0xD0, 0x00, 0x00] (.ndefEnc { encInit with flags := 0xD0, ph := .pl, k := 4 }) with
        recs := 1, msgs := 1 } none := by decide

theorem witness_NdefEncMessage :
    (fed .ndefEnc []).started .ndefEnc ∧ isMessage [uriRecord] ∧ (∀ r ∈ [uriRecord], r.describes) ∧
    (wireBytes ([uriRecord].map NdefRecord.canonize)).length ≤ (fed .ndefEnc []).params.outCap :=
  ⟨witness_started.2 _, uriRecord_fits.2.2.2, by simpa using uriRecord_fits.2.1, by decide⟩

theorem witness_NdefRoundTrip :
    (fed .ndefEnc []).started .ndefEnc ∧ (fed .ndefDec []).started .ndefDec ∧
    (∀ r ∈ [uriRecord], r.describes ∧ r.canonical) ∧ (∀ r ∈ [uriRecord], r.fits) ∧
    (wireBytes [uriRecord]).length ≤ defaultParams.outCap ∧ (rdBytes [uriRecord]).length ≤ defaultParams.outCap ∧
    (wireBytes ([uriRecord].map NdefRecord.canonize)).length ≤ defaultParams.outCap :=
  ⟨witness_started.2 _, witness_started.2 _, by simpa using ⟨uriRecord_fits.2.1, uriRecord_fits.2.2.1⟩,
    by simpa using uriRecord_fits.1, by decide⟩

theorem witness_TlvTagRule :
    (∀ b ∈ ([0xFE, 0x00, 0x03, 0xFD, 0x01, 0x02, 0x04, 0xFC, 0xFF] : List Byte),
      (fed .tlvParse [.data b]).fifo = .data b :: []) ∧
    (fed .tlvParse []).opst =
      .active (work [] (.tlvParse { ph := .tag, tag := 0, hi := 0, rem := 0 } recInit)) := by decide

/-- Every phase and tag, the last and not the last value byte, and each answer of the record machine. -/
theorem witness_TlvLengthAndValueRules :
    (∀ (ph : TlvPhase) (tag b : Byte) (rem : BitVec 16),
      (busy (work [] (.tlvParse { ph := ph, tag := tag, hi := 0, rem := rem } recInit)) [.data b]).opst =
        .active (work [] (.tlvParse { ph := ph, tag := tag, hi := 0, rem := rem } recInit)) ∧
      (busy (work [] (.tlvParse { ph := ph, tag := tag, hi := 0, rem := rem } recInit)) [.data b]).fifo =
        .data b :: []) ∧
    (0xFF : Byte).toNat * 256 + (0xFF : Byte).toNat ≠ 0 ∧
    (TlvW.mk .lx2 0xFD 0x00 0).ph = .lx2 ∧ (TlvW.mk .lx2 0xFD 0x00 0).tag = 0xFD ∧
    recByte 4096 (work [] (.tlvParse (TlvW.mk .nval 3 0 1) recInit)) recInit 0xD0 =
      .more (work [] (.tlvParse (TlvW.mk .nval 3 0 1) recInit)) { recInit with flags := 0xD0, ph := .tlen } ∧
    recByte 4096 (work [] (.ackChk 0)) { recInit with flags := 0xD0, ph := .plen } 0 =
      .msgDone { work [0xD0, 0, 0, 0, 0, 0, 0] (.ackChk 0) with recs := 1, msgs := 1 } recInit ∧
    recByte 0 (work [] (.ackChk 0)) { recInit with flags := 0xD0, ph := .plen } 0 = .over :=
  ⟨fun _ _ _ _ => ⟨rfl, rfl⟩, by decide, rfl, rfl, by decide, by decide, by decide⟩

/-- The stream of vector L1.6: NDEF, NULL, Proprietary. -/
theorem witness_TlvStreams :
    (fed .tlvParse []).started .tlvParse ∧
    (∀ x ∈ [Tlv.ndef false [uriRecord] [], Tlv.null 0x05, Tlv.proprietary true [0x99]], x.valid) ∧
    (rdBytes ([Tlv.ndef false [uriRecord] [], Tlv.null 0x05, Tlv.proprietary true [0x99]].flatMap
      Tlv.records)).length ≤ defaultParams.outCap :=
  ⟨witness_started.2 _, by
    intro x hx
    simp only [List.mem_cons, List.not_mem_nil, or_false] at hx
    rcases hx with rfl | rfl | rfl
    · exact ⟨by decide, uriRecord_fits.2.2.2, by simpa using uriRecord_fits.1⟩
    · trivial
    · show (1 : Nat) < 65536
      decide, by decide⟩

/-- A legal table with a string that does not fit the least legal OUT_CAP. -/
def longTable : Params :=
  { defaultParams with
    outCap := 264
    uriTable := [[], httpWww, List.replicate 265 0x61] ++ List.replicate 33 [] }

theorem witness_UriExpRule :
    (fed .uriExp [.data 0x23]).opst = .active (work [] (.uriExp .code)) ∧
    (fed .uriExp [.data 0x23]).fifo = .data 0x23 :: [] ∧
    defaultParams.uriTable[(0x01 : Byte).toNat]? = some httpWww ∧
    longTable.legal = true ∧ longTable.uriTable[(0x02 : Byte).toNat]? = some (List.replicate 265 0x61) ∧
    longTable.outCap < ([] : List Byte).length + (List.replicate 265 (0x61 : Byte)).length ∧
    defaultParams.uriTable.length ≤ (0x24 : Byte).toNat ∧
    (busy (work [] (.uriExp .suf)) [.data 0x61]).opst = .active (work [] (.uriExp .suf)) ∧
    (work [] (.uriExp .suf)).out.length < defaultParams.outCap ∧
    ({ State.reset with params := { defaultParams with outCap := 0 } } : State).params.outCap ≤ ([] : List Byte).length ∧
    (fed .uriExp [.endMark]).fifo = .endMark :: [] :=
  ⟨by decide, by decide, rfl, by decide, rfl, by rw [List.length_replicate]; decide, by decide, by decide, by decide, by decide, by decide⟩

theorem witness_UriExpExpands :
    (fed .uriExp []).started .uriExp ∧
    ((defaultParams.uriTable[(0xFF : Byte).toNat]?.getD []) ++ [0x61, 0x62]).length ≤ defaultParams.outCap :=
  ⟨witness_started.2 _, by decide⟩

/-- The empty string is the table's entry 0; "a" is no entry. -/
theorem witness_UriCmpRule :
    (fed .uriCmp [.data 0x61]).opst = .active (work [] (.uriCmp { buf := [], long := false })) ∧
    (CmpW.mk [] false).buf.length < uriMaxP ({ defaultParams with uriTable := [[], httpWww] }) ∧
    uriMaxP ({ defaultParams with uriTable := [[]] }) ≤ (CmpW.mk [] false).buf.length ∧
    defaultParams.uriTable[0]? = some (CmpW.mk [] false).buf ∧
    (∀ d : Nat, d < 0 → defaultParams.uriTable[d]? ≠ some (CmpW.mk [] false).buf) ∧
    (∀ d : Nat, ([[]] : List (List Byte))[d]? ≠ some [0x61]) ∧ (CmpW.mk [] true).long = true :=
  ⟨by decide, by decide, by decide, rfl, fun _ h => absurd h (Nat.not_lt_zero _),
    fun d => by cases d <;> simp, rfl⟩

theorem witness_UriCmpFindsLeastCode :
    (fed .uriCmp []).started .uriCmp ∧ (fed .uriCmp []).params.uriTable[0]? = some [] ∧
    (fed .uriCmp []).params.uriTable[1]? = some httpWww := ⟨witness_started.2 _, rfl, rfl⟩

/-- A state with the invariant whose step is an engine step. -/
theorem witness_InvariantPreserved :
    Inv (fed .ackChk [.data 0]) ∧ (nextOf (step (fed .ackChk [.data 0]))).map (·.inPos) = some 1 :=
  ⟨inv_fed _ _ (by decide), by decide⟩

theorem witness_RegisterInvariants :
    Inv encReady ∧ encReady.opst ≠ .doneOk ∧ encReady.opst ≠ .doneErr ∧
    Inv State.reset.softReset ∧ State.reset.softReset.opst = .idle :=
  ⟨inv_encReady, by decide, by decide, softReset_inv _ ⟨by decide, by decide, by decide⟩, rfl⟩

/-- One instruction for each target status. -/
theorem witness_OpstTransitions :
    (nextOf (exec (.wCtrl 1) (fed .ackChk []))).map (·.opst) = some .idle ∧
    (nextOf (exec (.wCmd 0x03) State.reset)).map (·.opst) = some (.active (work [] (.ackChk 0))) ∧
    (nextOf (exec .uriExp (fed .uriExp [.endMark]))).map (·.opst) = some .doneOk ∧
    (nextOf (exec (.wCmd 0x00) State.reset)).map (·.opst) = some .doneErr := by decide

/-- A completed block whose host writes REQ_CODE, and one whose host reads. -/
theorem witness_ResultsStandAfterDone :
    shown.opst = .doneOk ∧
    (∀ ev evs, (queued shown 0x038 7 []).host = ev :: evs → ev ≠ .hardReset ∧ (∀ v, ev ≠ .write 0x010 v) ∧
      ∀ v : Word, v.getLsbD 0 = true → ev ≠ .write 0x014 v) ∧
    (nextOf (step (queued shown 0x038 7 []))).map (·.reqCode) = some 7 := by
  refine ⟨rfl, ?_, by decide⟩
  intro ev evs h
  have h : [HostEvent.write 0x038 7] = ev :: evs := h
  injection h with h _
  subst h
  refine ⟨by decide, fun v h => ?_, fun v _ h => ?_⟩ <;>
    (injection h with h _; exact absurd h (by decide))

/-- IN_FREE = 1: one push fits, after a rejected START, a read, an engine step and a soft reset. -/
theorem witness_RoomGuarantee :
    Inv (fed .ackChk (List.replicate 15 (.data 0))) ∧
    (fed .ackChk (List.replicate 15 (.data 0))).status.getLsbD 0 = true ∧
    (∀ m ∈ [Move.host (.write 0x010 1), .host (.read 0x018), .engine, .host (.write 0x014 1)],
      m.pushes = none ∧ (match m with | .host (.otherWidth _ _) => false | _ => true) = true) ∧
    (([Move.host (.write 0x010 1), .host (.read 0x018), .engine, .host (.write 0x014 1)]).filter
        fun m => m.pushes.isSome).length <
      ((fed .ackChk (List.replicate 15 (.data 0))).status.extractLsb' 16 8).toNat ∧
    (Move.host (.write 0x020 0)).pushes = some (.data 0) ∧
    (Move.host (.write 0x024 0)).pushes = some .endMark :=
  ⟨inv_fed _ _ (by decide), by decide, by decide, by decide, by decide, by decide⟩

theorem witness_PushCommutesWithEngineStep :
    (fed .ackChk (List.replicate 15 (.data 0))).opst = .active (work [] (.ackChk 0)) ∧
    (fed .ackChk (List.replicate 15 (.data 0))).fifo ≠ [] ∧
    (fed .ackChk (List.replicate 15 (.data 0))).fifo.length <
      (fed .ackChk (List.replicate 15 (.data 0))).params.inDepth ∧
    pushedEntry (.wInEnd 0) = some .endMark ∧
    (nextOf (exec .ackChk (fed .ackChk (List.replicate 15 (.data 0))))).map (·.opst) =
      some (.active (work [] (.ackChk 1))) := by decide

end Sys2Proof.Tests
end

section
/-! PROOFS. Registers (10_state.md R21 to R39): reads, the fields of STATUS and ERR, and the register
invariants of R51 and R300. -/

namespace Sys2Proof.Machine

/-- A field of a word is what its bits are at the field's place. -/
theorem extractLsb'_eq_of_bits {m n : Nat} {x : BitVec m} {lo : Nat} {f : BitVec n}
    (h : ∀ i < n, x.getLsbD (lo + i) = f.getLsbD i) : x.extractLsb' lo n = f := by
  apply BitVec.eq_of_getLsbD_eq
  intro i hi
  rw [BitVec.getLsbD_extractLsb', h i hi]
  simp [hi]

/-! Reads -/

theorem Reg.aligned_offset (r : Reg) : aligned r.offset = true := by
  cases r <;> decide

/-- A read at a register's offset returns the register and changes nothing else (40_host_actions.md
R149). -/
theorem hostEvent_read_reg (s : State) (r : Reg) :
    hostEvent s (.read r.offset) = .next (s.returnValue (s.readReg r)) := by
  simp [hostEvent, State.busRead, Reg.aligned_offset]

/-! The fields of ERR (10_state.md R31) -/

theorem readReg_err_bit (s : State) (i : Nat) (hi : i < 32) :
    (s.readReg .err).getLsbD i = if i < 8 then s.errCode.getLsbD i else s.errHost.getLsbD (i - 8) := by
  simp only [State.readReg, BitVec.getLsbD_setWidth, BitVec.getLsbD_append]
  simp [hi]

theorem readReg_err_or (s : State) :
    s.readReg .err = s.errCode.setWidth 32 ||| (s.errHost.setWidth 32) <<< 8 := by
  apply BitVec.eq_of_getLsbD_eq
  intro i hi
  rw [readReg_err_bit s i hi]
  by_cases h8 : i < 8
  · simp [hi, h8]
  · have hz : s.errCode.getLsbD i = false := BitVec.getLsbD_of_ge _ _ (by omega)
    simp [hi, h8, hz]

theorem readReg_err_code (s : State) : (s.readReg .err).extractLsb' 0 8 = s.errCode := by
  refine extractLsb'_eq_of_bits fun i hi => ?_
  rw [Nat.zero_add, readReg_err_bit s i (by omega), if_pos hi]

/-- The codes of 60_exceptions.md R300, and 0 for no error. -/
theorem ErrCode.code_listed (e : ErrCode) :
    e.code ∈ ([0x00, 0x01, 0x02, 0x03, 0x04, 0x10, 0x11, 0x12, 0x13, 0x14, 0x15,
      0x16, 0x17, 0x18, 0x20, 0x21, 0x30, 0x31, 0x40, 0x41, 0x42, 0x50, 0x51] : List Byte) := by
  cases e <;> decide

/-! The fields of STATUS (10_state.md R27, R41) -/

theorem status_busy_iff (s : State) : s.status.getLsbD 0 = true ↔ ∃ w, s.opst = .active w := by
  rw [State.status_bit]
  cases s.opst <;> simp [OpSt.busy]

theorem status_done_iff (s : State) :
    s.status.getLsbD 1 = true ↔ s.opst = .doneOk ∨ s.opst = .doneErr := by
  rw [State.status_bit]
  cases s.opst <;> simp [OpSt.done]

theorem status_err_iff (s : State) : s.status.getLsbD 2 = true ↔ s.opst = .doneErr := by
  rw [State.status_bit]
  cases s.opst <;> simp [OpSt.err]

theorem status_reserved_low (s : State) : s.status.extractLsb' 3 5 = 0 := by
  refine extractLsb'_eq_of_bits fun i hi => ?_
  simp (disch := omega) only [State.status_bit, if_neg, if_pos, BitVec.ofNat_eq_ofNat,
    BitVec.getLsbD_zero]

theorem status_inLevel (s : State) : s.status.extractLsb' 8 8 = s.inLevel := by
  refine extractLsb'_eq_of_bits fun i hi => ?_
  simp (disch := omega) only [State.status_bit, if_neg, if_pos, Nat.add_sub_cancel_left]

theorem status_inFree (s : State) : s.status.extractLsb' 16 8 = s.inFree := by
  refine extractLsb'_eq_of_bits fun i hi => ?_
  simp (disch := omega) only [State.status_bit, if_neg, if_pos, Nat.add_sub_cancel_left]

theorem status_reserved_high (s : State) : s.status.extractLsb' 24 8 = 0 := by
  refine extractLsb'_eq_of_bits fun i hi => ?_
  simp (disch := omega) only [State.status_bit, if_neg, BitVec.ofNat_eq_ofNat, BitVec.getLsbD_zero]

theorem inLevel_toNat (s : State) (hd : s.params.inDepth ≤ 255) (hf : s.fifo.length ≤ s.params.inDepth) :
    s.inLevel.toNat = s.fifo.length := by
  simp only [State.inLevel, BitVec.toNat_ofNat]
  omega

theorem inFree_toNat (s : State) (hd : s.params.inDepth ≤ 255) :
    s.inFree.toNat = s.params.inDepth - s.fifo.length := by
  simp only [State.inFree, BitVec.toNat_ofNat]
  omega

/-! The obligations about registers -/

/-- Settles O14: every register by the one rule for a read at a register's offset. -/
theorem registerReads : Obligations.RegisterReads := by
  intro s
  have reads := hostEvent_read_reg s
  refine ⟨reads .id, reads .version, reads .paramInDepth, reads .paramOutCap, reads .cmd, reads .ctrl,
    reads .status, reads .sticky, reads .inData, reads .inEnd, ?_, reads .errPos, reads .inPos,
    reads .outLen, reads .reqCode, reads .respCode, reads .msgCount, reads .recCount, reads .result⟩
  rw [← readReg_err_or]
  exact reads .err

/-- Settles O15, field by field. -/
theorem statusFields : Obligations.StatusFields := by
  intro s hd hf
  refine ⟨status_busy_iff s, status_done_iff s, status_err_iff s, status_reserved_low s, ?_, ?_,
    status_reserved_high s⟩
  · rw [status_inLevel, inLevel_toNat s hd hf]
  · rw [status_inFree, inFree_toNat s hd]

/-- In every state with the invariant ERR.CODE is 0 or listed (60_exceptions.md R300). -/
theorem Inv.errCode_listed {s : State} (h : Inv s) :
    s.errCode = 0 ∨ ∃ e : ErrCode, s.errCode = e.code := by
  by_cases hs : s.opst = .doneErr
  · obtain ⟨⟨e, he, -⟩, -⟩ := h.errorListed hs
    exact Or.inr ⟨e, he⟩
  · exact Or.inl (h.errorsZero hs).1

/-- Settles O56: each clause is a field of the invariant, read through its register. -/
theorem registerInvariants : Obligations.RegisterInvariants := by
  intro s h
  have hd := (Params.inDepth_le _ h.paramsLegal).2
  have hf := h.fifoDepth
  refine ⟨?_, h.drained, ?_, ?_, h.outLenCap, ?_⟩
  · rw [status_inLevel, status_inFree, inLevel_toNat s hd hf, inFree_toNat s hd]
    omega
  · intro hs
    obtain ⟨hlen, hmsg, hrec, hres, hresp⟩ := h.resultsZero hs
    simp [State.readReg, hlen, hmsg, hrec, hres, hresp]
  · intro hs
    obtain ⟨hcode, hhost, hpos⟩ := h.errorsZero hs
    exact ⟨by simp [readReg_err_or, hcode, hhost], hpos⟩
  · rw [readReg_err_code]
    obtain hz | ⟨e, he⟩ := h.errCode_listed
    · simp [hz]
    · rw [he]
      exact e.code_listed

end Sys2Proof.Machine
end

section
/-! PROOFS. Steps (10_state.md R41, R51): what one instruction can do to the command status, what a
success reports, and the invariant along every step. -/

namespace Sys2Proof.Machine

/-- An instruction is a command's or one of the six host writes. -/
theorem Instr.command_or_write {motive : Instr → Prop} (command : ∀ c : Command, motive c.instr)
    (wCmd : ∀ v, motive (.wCmd v)) (wCtrl : ∀ v, motive (.wCtrl v)) (wSticky : ∀ v, motive (.wSticky v))
    (wInData : ∀ v, motive (.wInData v)) (wInEnd : ∀ v, motive (.wInEnd v))
    (wReqCode : ∀ v, motive (.wReqCode v)) (i : Instr) : motive i := by
  cases i with
  | frmEnc => exact command .frmEnc
  | frmDec => exact command .frmDec
  | ackChk => exact command .ackChk
  | ndefDec => exact command .ndefDec
  | ndefEnc => exact command .ndefEnc
  | tlvParse => exact command .tlvParse
  | uriExp => exact command .uriExp
  | uriCmp => exact command .uriCmp
  | wCmd v => exact wCmd v
  | wCtrl v => exact wCtrl v
  | wSticky v => exact wSticky v
  | wInData v => exact wInData v
  | wInEnd v => exact wInEnd v
  | wReqCode v => exact wReqCode v

/-- An outcome that is a next state has only that one. -/
theorem next_inj {s t : State} (h : (.next s : Host.Outcome State Fault Refusal) = .next t) : t = s := by
  injection h with h
  exact h.symm

/-! The verdicts of an active command -/

/-- v is what the active command's rule answers: its OpEnd's verdict, or its OpByte's for some byte
(40_host_actions.md R159). -/
def Work.answers (p : Params) (w : Work) (v : Verdict) : Prop :=
  v = workEnd p w ∨ ∃ b, v = workByte p w b

theorem workEnd_within (p : Params) (w : Work) : (workEnd p w).within w.command := by
  unfold workEnd
  split <;> rename_i hcmd
  · unfold frmEncEnd
    split
    · trivial
    · exact Work.emit_within _ _ _ _ _ fun _ => rfl
  · trivial
  · trivial
  · trivial
  · trivial
  · unfold tlvEnd
    split <;> trivial
  · rfl
  · simp [Verdict.within, Work.command, hcmd]

theorem Work.answers_within {p : Params} {w : Work} {v : Verdict} (h : w.answers p v) :
    v.within w.command := by
  obtain rfl | ⟨b, rfl⟩ := h
  · exact workEnd_within p w
  · exact workByte_within p w b

theorem Work.answers_ok {p : Params} {lastOp : Byte} {w : Work} {v : Verdict} (h : w.answers p v)
    (hw : w.ok p lastOp) : v.ok p lastOp := by
  obtain rfl | ⟨b, rfl⟩ := h
  · exact workEnd_ok p lastOp w hw
  · exact workByte_ok p lastOp w b hw

/-- An engine step waits, fails by an abort, or carries out a verdict of the active command. -/
theorem engineStep_cases (s : State) (w : Work) :
    s.engineStep (workByte s.params w) (workEnd s.params w) = s ∨
    (∃ u c, s.engineStep (workByte s.params w) (workEnd s.params w) = State.fail u .hostAbort c) ∨
    ∃ u v, w.answers s.params v ∧
      s.engineStep (workByte s.params w) (workEnd s.params w) = State.settle u v := by
  unfold State.engineStep
  split
  · exact Or.inl rfl
  · exact Or.inr (Or.inr ⟨_, _, Or.inr ⟨_, rfl⟩, rfl⟩)
  · exact Or.inr (Or.inr ⟨_, _, Or.inl rfl, rfl⟩)
  · exact Or.inr (Or.inl ⟨_, _, rfl⟩)

/-! The command status -/

/-- The command status an instruction can leave from s: the transitions of 10_state.md R41. -/
inductive OpstStep (i : Instr) (s : State) : OpSt → Prop where
  | stays : OpstStep i s s.opst
  | reset (v : Word) : i = .wCtrl v → v.getLsbD 0 = true → OpstStep i s .idle
  | starts (v : Word) (c : Command) : (∀ w, s.opst ≠ .active w) → i = .wCmd v → c.opcode = opcodeOf v →
      OpstStep i s (.active (initWork s.reqCode c))
  | rejects (v : Word) : (∀ w, s.opst ≠ .active w) → i = .wCmd v →
      (∀ c : Command, c.opcode ≠ opcodeOf v) → OpstStep i s .doneErr
  | overflows (w : Work) (e : Entry) : s.opst = .active w → pushedEntry i = some e → OpstStep i s .doneErr
  | goesOn (w w' : Work) : s.opst = .active w → w'.command = w.command → OpstStep i s (.active w')
  | succeeds (w : Work) : s.opst = .active w → i = w.command.instr → OpstStep i s .doneOk
  | fails (w : Work) : s.opst = .active w → i = w.command.instr → OpstStep i s .doneErr

theorem opstStep_of_opst_eq {i : Instr} {s t : State} (h : t.opst = s.opst) : OpstStep i s t.opst :=
  h ▸ .stays

theorem engineStep_opstStep (s : State) (w : Work) (ha : s.opst = .active w) :
    OpstStep w.command.instr s (s.engineStep (workByte s.params w) (workEnd s.params w)).opst := by
  obtain h | ⟨u, c, h⟩ | ⟨u, v, hv, h⟩ := engineStep_cases s w <;> rw [h]
  · exact .stays
  · exact .fails w ha rfl
  · have hin := Work.answers_within hv
    cases v with
    | go w' => exact .goesOn w w' ha hin
    | done w' q => cases q <;> exact .succeeds w ha rfl
    | bad e => exact .fails w ha rfl

theorem start_opstStep (s : State) (v : Word) : OpstStep (.wCmd v) s (s.start (opcodeOf v)).opst := by
  by_cases ha : ∃ w, s.opst = .active w
  · obtain ⟨w, hw⟩ := ha
    rw [State.start_active s w _ hw]
    exact opstStep_of_opst_eq rfl
  · have hn : ∀ w, s.opst ≠ .active w := fun w hw => ha ⟨w, hw⟩
    cases hc : Command.ofOpcode (opcodeOf v) with
    | some c =>
      rw [State.start_known s _ c hn hc]
      exact .starts v c hn rfl (Command.opcode_of_ofOpcode _ c hc)
    | none =>
      rw [State.start_unknown s _ hn hc]
      refine .rejects v hn rfl fun c hop => ?_
      rw [← hop, Command.ofOpcode_opcode] at hc
      cases hc

theorem push_opstStep (i : Instr) (s : State) (e : Entry) (h : pushedEntry i = some e) :
    OpstStep i s (s.push e).opst := by
  by_cases ha : ∃ w, s.opst = .active w
  · obtain ⟨w, hw⟩ := ha
    by_cases hf : s.fifo.length = s.params.inDepth
    · rw [State.push_full s w e hw hf]
      exact .overflows w e hw h
    · rw [State.push_active s w e hw hf]
      exact opstStep_of_opst_eq rfl
  · rw [State.push_inactive s e fun w hw => ha ⟨w, hw⟩]
    exact opstStep_of_opst_eq rfl

/-- Every instruction moves the command status by a transition of 10_state.md R41. -/
theorem exec_opstStep (i : Instr) (s t : State) (h : exec i s = .next t) : OpstStep i s t.opst := by
  induction i using Instr.command_or_write with
  | command c =>
    obtain rfl | ⟨w, ha, rfl, rfl⟩ := exec_command_cases s t c h
    · exact .stays
    · exact engineStep_opstStep s w ha
  | wCmd v =>
    obtain rfl := next_inj h
    exact start_opstStep s v
  | wCtrl v =>
    obtain rfl := next_inj h
    split
    · rename_i hv
      exact .reset v rfl hv
    · exact .stays
  | wSticky v =>
    obtain rfl := next_inj h
    exact opstStep_of_opst_eq rfl
  | wInData v =>
    obtain rfl := next_inj h
    exact push_opstStep _ s _ rfl
  | wInEnd v =>
    obtain rfl := next_inj h
    exact push_opstStep _ s _ rfl
  | wReqCode v =>
    simp only [exec, execWReqCode] at h
    split at h <;> obtain rfl := next_inj h <;> exact opstStep_of_opst_eq rfl

/-- Settles O57: each transition of R41 ends in the status its clause names. -/
theorem opstTransitions : Obligations.OpstTransitions := by
  intro i s t h
  have hs := exec_opstStep i s t h
  generalize t.opst = o at hs
  cases hs with
  | stays => exact ⟨.inl, fun w' hw => .inl ⟨w', hw, rfl⟩, .inl, .inl⟩
  | reset v hi hv => exact ⟨fun _ => .inr ⟨v, hi, hv⟩, nofun, nofun, nofun⟩
  | starts v c hn hi hc =>
    refine ⟨nofun, ?_, nofun, nofun⟩
    rintro _ ⟨⟩
    exact .inr ⟨hn, v, c, hi, hc, rfl⟩
  | rejects v hn hi hc => exact ⟨nofun, nofun, nofun, fun _ => .inr (.inr ⟨hn, v, hi, hc⟩)⟩
  | overflows w e ha he => exact ⟨nofun, nofun, nofun, fun _ => .inr (.inl ⟨w, ha, .inr ⟨e, he⟩⟩)⟩
  | goesOn w w' ha hc =>
    refine ⟨nofun, ?_, nofun, nofun⟩
    rintro _ ⟨⟩
    exact .inl ⟨w, ha, hc⟩
  | succeeds w ha hi => exact ⟨nofun, nofun, fun _ => .inr ⟨w, ha, hi⟩, nofun⟩
  | fails w ha hi => exact ⟨nofun, nofun, nofun, fun _ => .inr (.inl ⟨w, ha, .inl hi⟩)⟩

/-! Results at a success -/

/-- The result registers of a success are those of the working state handed over
(40_host_actions.md R153). -/
theorem settle_done_results (u : State) (w : Work) (q : Option Byte) :
    (u.settle (.done w q)).respCode = w.echo ∧ (u.settle (.done w q)).result = w.res ∧
    (u.settle (.done w q)).msgCount = w.msgs ∧ (u.settle (.done w q)).recCount = w.recs := by
  cases q <;> exact ⟨rfl, rfl, rfl, rfl⟩

/-- An engine step that succeeds reports a working state of the command, with results that are its own. -/
theorem engineStep_success (s : State) (w : Work) (h : Inv s) (ha : s.opst = .active w)
    (hok : (s.engineStep (workByte s.params w) (workEnd s.params w)).opst = .doneOk) :
    ∃ u w' q, s.engineStep (workByte s.params w) (workEnd s.params w) = State.settle u (.done w' q) ∧
      w'.command = w.command ∧ w'.reports := by
  obtain he | ⟨u, c, he⟩ | ⟨u, v, hv, he⟩ := engineStep_cases s w <;> rw [he] at hok ⊢
  · rw [ha] at hok
    cases hok
  · cases hok
  · have hin := Work.answers_within hv
    have hvok := Work.answers_ok hv (h.workOk w ha)
    cases v with
    | go w' => cases hok
    | bad e => cases hok
    | done w' q => exact ⟨u, w', q, rfl, hin, hvok.2⟩

/-- Settles O30: a success reports what its working state holds, and that belongs to the command. -/
theorem resultsOfEachCommand : Obligations.ResultsOfEachCommand := by
  intro s t w h ha he hok
  rw [exec_command_active s w ha] at he
  obtain rfl := next_inj he
  obtain ⟨u, w', q, hs, hc, hecho, hres, hcounts, hmsgs⟩ := engineStep_success s w h ha hok
  obtain ⟨respEq, resultEq, msgEq, recEq⟩ := settle_done_results u w' q
  rw [hs, respEq, resultEq, msgEq, recEq, ← hc]
  exact ⟨hecho, fun h1 h2 => hres ⟨h1, h2⟩, fun h1 h2 h3 => (hcounts ⟨h1, h2, h3⟩).symm, hmsgs⟩

/-! The invariant -/

/-- The invariant says nothing of REQ_CODE, STICKY and the model's own fields. -/
theorem Inv.aside {s : State} (h : Inv s) {req : Byte} {sticky : BitVec 3} {host : List HostEvent}
    {sched : List Agent} {readLog : List Word} {draws : Nat} :
    Inv { s with
      reqCode := req, sticky := sticky, host := host, sched := sched, readLog := readLog, draws := draws } :=
  aside_inv s _ h rfl rfl rfl rfl rfl rfl rfl rfl rfl rfl rfl rfl rfl rfl

/-- Every instruction keeps the invariant. -/
theorem exec_inv (i : Instr) (s t : State) (h : Inv s) (he : exec i s = .next t) : Inv t := by
  induction i using Instr.command_or_write with
  | command c =>
    obtain rfl | ⟨w, ha, -, rfl⟩ := exec_command_cases s t c he
    · exact h
    · exact engineStep_inv s w h ha
  | wCmd v =>
    obtain rfl := next_inj he
    exact start_inv s _ h
  | wCtrl v =>
    obtain rfl := next_inj he
    split
    · exact softReset_inv s h.base
    · exact h
  | wSticky v =>
    obtain rfl := next_inj he
    exact h.aside
  | wInData v =>
    obtain rfl := next_inj he
    exact push_inv s _ h rfl
  | wInEnd v =>
    obtain rfl := next_inj he
    exact push_inv s _ h (endEntry_wellFormed v)
  | wReqCode v =>
    simp only [exec, execWReqCode] at he
    split at he <;> obtain rfl := next_inj he
    · exact setSticky_inv s _ h
    · exact h.aside

/-- Every host event keeps the invariant. -/
theorem hostEvent_inv (s t : State) (ev : HostEvent) (h : Inv s) (he : hostEvent s ev = .next t) : Inv t := by
  cases ev with
  | read off =>
    obtain rfl := next_inj he
    exact busRead_inv s off h
  | write off v =>
    simp only [hostEvent] at he
    split at he
    · exact exec_inv _ s t h he
    · obtain rfl := next_inj he
      exact setSticky_inv s _ h
  | otherWidth bits off => cases he
  | hardReset =>
    obtain rfl := next_inj he
    exact softReset_inv s h.base

/-- No host event writes the parameters (00_scope.md R8). -/
theorem hostEvent_params (s t : State) (ev : HostEvent) (he : hostEvent s ev = .next t) :
    t.params = s.params := by
  have hw : ∀ bits off, ev ≠ .otherWidth bits off := by
    rintro bits off rfl
    cases he
  obtain ⟨u, hu, hp, -⟩ := hostEvent_next s ev hw
  rw [he] at hu
  exact next_inj hu ▸ hp

theorem hostTurn_inv (s t : State) (h : Inv s) (he : hostTurn s = .next t) :
    Inv t ∧ t.params = s.params := by
  unfold hostTurn at he
  split at he
  · obtain rfl := next_inj he
    exact ⟨h, rfl⟩
  · have hp := hostEvent_params _ t _ he
    exact ⟨hostEvent_inv _ t _ h.aside he, hp⟩

theorem engineTurn_inv (s t : State) (h : Inv s) (he : engineTurn s = .next t) :
    Inv t ∧ t.params = s.params := by
  rw [engineTurn_next] at he
  obtain rfl := next_inj he
  split
  · rename_i w ha
    exact ⟨engineStep_inv s w h ha, engineStep_params s _ _⟩
  · exact ⟨h, rfl⟩

/-- Settles O54: choosing the agent touches only the model's own fields, and either agent's turn keeps
the invariant and the parameters. -/
theorem invariantPreserved : Obligations.InvariantPreserved := by
  intro s t h he
  obtain ⟨a, sched, draws, hpick⟩ := pickAgent_keeps s
  have hs : Inv { s with sched := sched, draws := draws } := h.aside
  rw [step, advance, hpick] at he
  match a with
  | none =>
    obtain rfl := next_inj he
    exact ⟨hs, rfl⟩
  | some .host =>
    have hturn := hostTurn_inv _ t hs he
    exact hturn
  | some .engine =>
    have hturn := engineTurn_inv _ t hs he
    exact hturn

end Sys2Proof.Machine
end

section
/-! PROOFS. The bus (20_memory.md R60 to R65, R70): accesses that find no register, reads and writes of
registers and of OUT_BUF, and the window's place. -/

namespace Sys2Proof.Machine

/-! Offsets -/

theorem extractLsb'_two_eq_zero_iff (off : Offset) : off.extractLsb' 0 2 = 0 ↔ off.toNat % 4 = 0 := by
  rw [← BitVec.toNat_inj]
  simp [BitVec.extractLsb'_toNat]

theorem aligned_eq_false (off : Offset) (h : off.extractLsb' 0 2 ≠ 0) : aligned off = false :=
  Bool.eq_false_iff.2 fun ha => h ((aligned_iff off).1 ha)

/-- Every register has an aligned offset, so a misaligned one names none (20_memory.md R62). -/
theorem Reg.ofOffset_misaligned (off : Offset) (h : off.extractLsb' 0 2 ≠ 0) :
    Reg.ofOffset off = none := by
  cases hr : Reg.ofOffset off with
  | none => rfl
  | some r =>
    rw [← Reg.offset_of_ofOffset off r hr] at h
    exact absurd ((aligned_iff _).1 (Reg.aligned_offset r)) h

/-- The register file has no gap: each of its 19 words is a register (10_state.md section 2). -/
theorem Reg.ofOffset_word : ∀ k : Fin 19, (Reg.ofOffset (BitVec.ofNat 16 (4 * k))).isSome = true := by
  decide

theorem Reg.exists_offset (off : Offset) (ha : off.extractLsb' 0 2 = 0) (hlt : off.toNat < 0x04C) :
    ∃ r : Reg, r.offset = off := by
  have hmod := (extractLsb'_two_eq_zero_iff off).1 ha
  have hword : off = BitVec.ofNat 16 (4 * (off.toNat / 4)) := by
    rw [Nat.mul_div_cancel' (Nat.dvd_of_mod_eq_zero hmod), BitVec.ofNat_toNat, BitVec.setWidth_eq]
  obtain ⟨r, hr⟩ := Option.isSome_iff_exists.1 (Reg.ofOffset_word ⟨off.toNat / 4, by omega⟩)
  exact ⟨r, hword ▸ Reg.offset_of_ofOffset _ r hr⟩

theorem inOutBuf_eq_false (s : State) (off : Offset)
    (h : off.toNat < outBase ∨ outBase + s.params.outCap ≤ off.toNat) : s.inOutBuf off = false := by
  rw [State.inOutBuf, decide_eq_false_iff_not]
  omega

/-! Accesses that find nothing -/

/-- The offsets at which an access has no effect but BAD_ACC: misaligned (20_memory.md R62) or
unmapped (R63). -/
def badOffset (p : Params) (off : Offset) : Prop :=
  off.extractLsb' 0 2 ≠ 0 ∨ (0x04C ≤ off.toNat ∧ off.toNat < 0x1000) ∨ 0x1000 + p.outCap ≤ off.toNat

theorem badOffset.no_register {p : Params} {off : Offset} (h : badOffset p off) :
    Reg.ofOffset off = none := by
  obtain hm | ⟨hlo, -⟩ | hhi := h
  · exact Reg.ofOffset_misaligned off hm
  · exact Reg.ofOffset_none off hlo
  · exact Reg.ofOffset_none off (by omega)

theorem badOffset.no_outBuf {s : State} {off : Offset} (h : badOffset s.params off) :
    aligned off = false ∨ s.inOutBuf off = false := by
  obtain hm | ⟨-, hlt⟩ | hhi := h
  · exact .inl (aligned_eq_false off hm)
  · exact .inr (inOutBuf_eq_false s off (.inl hlt))
  · exact .inr (inOutBuf_eq_false s off (.inr hhi))

theorem hostEvent_read_bad (s : State) (off : Offset) (h : badOffset s.params off) :
    hostEvent s (.read off) =
      .next { s with sticky := s.sticky ||| 0b100, readLog := s.readLog ++ [0] } := by
  have hread : s.busRead off = (s.setSticky badAcc).returnValue 0 := by
    obtain ha | hb := h.no_outBuf
    · simp [State.busRead, ha]
    · simp [State.busRead, h.no_register, hb]
  rw [hostEvent, hread]
  rfl

/-- A write where no register is only sets BAD_ACC: misaligned, unmapped and OUT_BUF offsets
(20_memory.md R62 to R64). -/
theorem hostEvent_write_no_register (s : State) (off : Offset) (v : Word)
    (h : Reg.ofOffset off = none) :
    hostEvent s (.write off v) = .next { s with sticky := s.sticky ||| 0b100 } := by
  cases ha : aligned off <;> simp only [hostEvent, decode_busWriteBits, decodeBusWrite, h, ha] <;> rfl

/-! Registers and OUT_BUF -/

theorem decodeBusWrite_reg (r : Reg) (v : Word) : decodeBusWrite r.offset v = decodeRegWrite r v := by
  simp [decodeBusWrite, Reg.aligned_offset]

/-- The registers that take no write (20_memory.md R64). -/
def readOnlyRegs : List Reg :=
  [.id, .version, .paramInDepth, .paramOutCap, .status, .err, .errPos, .inPos, .outLen, .respCode,
   .msgCount, .recCount, .result]

/-- The registers that read as 0 (20_memory.md R64). -/
def writeOnlyRegs : List Reg :=
  [.ctrl, .inData, .inEnd]

theorem decodeRegWrite_readOnly (r : Reg) (v : Word) (h : r ∈ readOnlyRegs) :
    decodeRegWrite r v = .error (.readOnly r) := by
  fin_cases h <;> rfl

theorem readReg_writeOnly (s : State) (r : Reg) (h : r ∈ writeOnlyRegs) : s.readReg r = 0 := by
  fin_cases h <;> rfl

theorem hostEvent_write_readOnly (s : State) (r : Reg) (v : Word) (h : r ∈ readOnlyRegs) :
    hostEvent s (.write r.offset v) = .next { s with sticky := s.sticky ||| 0b100 } := by
  simp only [hostEvent, decode_busWriteBits, decodeBusWrite_reg, decodeRegWrite_readOnly r v h]
  rfl

theorem hostEvent_read_outBuf (s : State) (off : Offset) (ha : off.extractLsb' 0 2 = 0)
    (hlo : 0x1000 ≤ off.toNat) (hhi : off.toNat < 0x1000 + s.params.outCap) :
    hostEvent s (.read off) = .next { s with
      readLog := s.readLog ++ [s.readOutWord (off.toNat - outBase)], draws := s.draws + 4 } := by
  have hal : aligned off = true := (aligned_iff off).2 ha
  have hin : s.inOutBuf off = true := decide_eq_true ⟨hlo, hhi⟩
  simp only [hostEvent, State.busRead, hal, hin, Reg.ofOffset_none off (by omega)]
  rfl

/-! The window (20_memory.md R65) -/

theorem windowOffset_inside (p : Params) (off : Offset) :
    windowOffset p (p.fncBase + off.toNat) = some off := by
  have hlt := off.isLt
  rw [windowOffset, if_pos (by omega), Nat.add_sub_cancel_left, BitVec.ofNat_toNat, BitVec.setWidth_eq]

theorem windowOffset_outside (p : Params) (addr : Nat)
    (h : addr < p.fncBase ∨ p.fncBase + 0x10000 ≤ addr) : windowOffset p addr = none :=
  if_neg (by omega)

/-! The obligations about accesses -/

/-- Settles O17: a misaligned offset is one of those where an access finds nothing. -/
theorem misalignedAccess : Obligations.MisalignedAccess := by
  intro s off v hm
  exact ⟨hostEvent_read_bad s off (.inl hm),
    hostEvent_write_no_register s off v (Reg.ofOffset_misaligned off hm)⟩

/-- Settles O18: an unmapped offset is one of those where an access finds nothing. -/
theorem unmappedAccess : Obligations.UnmappedAccess := by
  intro s off v _ _ hu
  have hbad : badOffset s.params off := .inr (hu.imp_left fun ⟨hlo, hhi⟩ => ⟨hlo, by omega⟩)
  exact ⟨hostEvent_read_bad s off hbad, hostEvent_write_no_register s off v hbad.no_register⟩

/-- Settles O19: the listed offsets are those of the read-only and of the write-only registers. -/
theorem readOnlyAndWriteOnly : Obligations.ReadOnlyAndWriteOnly := by
  intro s off v
  refine ⟨?_, fun hw => ?_⟩
  · rintro (hro | ⟨-, hlo, -⟩)
    · have hmem : off ∈ readOnlyRegs.map Reg.offset := hro
      obtain ⟨r, hr, rfl⟩ := List.mem_map.1 hmem
      exact hostEvent_write_readOnly s r v hr
    · exact hostEvent_write_no_register s off v (Reg.ofOffset_none off (by omega))
  · have hmem : off ∈ writeOnlyRegs.map Reg.offset := hw
    obtain ⟨r, hr, rfl⟩ := List.mem_map.1 hmem
    rw [hostEvent_read_reg, readReg_writeOnly s r hr]
    rfl

/-- Settles O21: an offset that is not bad is a register's or in OUT_BUF. -/
theorem readsKeepBlockState : Obligations.ReadsKeepBlockState := by
  intro s off bad
  refine ⟨hostEvent_read_bad s off, fun hnot => ?_⟩
  obtain ⟨ha, hgap, hend⟩ : off.extractLsb' 0 2 = 0 ∧ ¬ (0x04C ≤ off.toNat ∧ off.toNat < 0x1000) ∧
      ¬ 0x1000 + s.params.outCap ≤ off.toNat := by
    simpa only [bad, not_or, not_not] using hnot
  by_cases hreg : off.toNat < 0x04C
  · obtain ⟨r, rfl⟩ := Reg.exists_offset off ha hreg
    exact ⟨s.readReg r, s.draws, hostEvent_read_reg s r, fun _ => rfl⟩
  · exact ⟨_, _, hostEvent_read_outBuf s off ha (by omega) (by omega), fun hlt => by omega⟩

end Sys2Proof.Machine
end

section
/-! PROOFS. Turns (20_memory.md R71 to R73): which agent moves and what its turn runs, what stands after
DONE, and the room a STATUS read promises. -/

namespace Sys2Proof.Machine

/-! The choice of the agent (20_memory.md R71) -/

theorem engineEnabled_active (s : State) (w : Work) (ha : s.opst = .active w) (hf : s.fifo ≠ []) :
    s.engineEnabled = true := by
  simp [State.engineEnabled, ha, hf]

theorem engineEnabled_waiting (s : State) (h : (∀ w, s.opst ≠ .active w) ∨ s.fifo = []) :
    s.engineEnabled = false := by
  unfold State.engineEnabled
  split
  · rename_i w ha
    obtain hn | hf := h
    · exact absurd ha (hn w)
    · simp [hf]
  · rfl

theorem pickAgent_forced (s : State) (a : Agent) (rest : List Agent) (h : s.sched = a :: rest) :
    s.pickAgent = (some a, { s with sched := rest }) := by
  simp only [State.pickAgent, h]

theorem pickAgent_host (s : State) (ev : HostEvent) (evs : List HostEvent) (hs : s.sched = [])
    (hh : s.host = ev :: evs) (he : s.engineEnabled = false) : s.pickAgent = (some .host, s) := by
  simp only [State.pickAgent, hs, hh, he]

theorem pickAgent_engine (s : State) (hs : s.sched = []) (hh : s.host = [])
    (he : s.engineEnabled = true) : s.pickAgent = (some .engine, s) := by
  simp only [State.pickAgent, hs, hh, he]

theorem pickAgent_free (s : State) (ev : HostEvent) (evs : List HostEvent) (hs : s.sched = [])
    (hh : s.host = ev :: evs) (he : s.engineEnabled = true) :
    s.pickAgent = (some (if Config.engineFirst s.draws then .engine else .host),
      { s with draws := s.draws + 1 }) := by
  simp only [State.pickAgent, hs, hh, he]

/-! What a turn runs -/

theorem step_of_host (s u : State) (h : s.pickAgent = (some .host, u)) : step s = hostTurn u := by
  simp only [step, advance, h]

theorem step_of_engine (s u : State) (h : s.pickAgent = (some .engine, u)) : step s = engineTurn u := by
  simp only [step, advance, h]

theorem hostTurn_cons (s : State) (ev : HostEvent) (evs : List HostEvent) (h : s.host = ev :: evs) :
    hostTurn s = hostEvent { s with host := evs } ev := by
  simp only [hostTurn, h]

theorem hostTurn_write (s : State) (off : Offset) (v : Word) (evs : List HostEvent) (i : Instr)
    (hh : s.host = .write off v :: evs) (hd : decode (.bus (busWriteBits off v)) = .ok i) :
    hostTurn s = exec i { s with host := evs } := by
  rw [hostTurn_cons s _ evs hh]
  simp only [hostEvent, hd]

theorem engineTurn_active (s : State) (w : Work) (i : Instr) (ha : s.opst = .active w)
    (hd : decode (.cmd (w.op.setWidth 32)) = .ok i) : engineTurn s = exec i s := by
  simp only [engineTurn, ha, hd]

theorem hostTurn_nil (s : State) (h : s.host = []) : hostTurn s = .next s := by
  simp only [hostTurn, h]

theorem engineTurn_inactive (s : State) (hn : ∀ w, s.opst ≠ .active w) : engineTurn s = .next s := by
  simp only [engineTurn]

/-- Settles O6: by which agent the schedule, the enabled agents or the free choice picks. -/
theorem stepRunsDecodedInstruction : Obligations.StepRunsDecodedInstruction := by
  intro s
  refine ⟨?hostForced, ?engineForced, ?hostOnly, ?engineOnly, ?free, fun w _ => decode_word w.command⟩
  case hostForced =>
    intro rest off v evs i hs hh hd
    have hpick := pickAgent_forced s _ rest hs
    exact (step_of_host s _ hpick).trans (hostTurn_write _ off v evs i hh hd)
  case engineForced =>
    intro rest w i hs ha hd
    have hpick := pickAgent_forced s _ rest hs
    exact (step_of_engine s _ hpick).trans (engineTurn_active _ w i ha hd)
  case hostOnly =>
    intro off v evs i hs hh hwait hd
    have hpick := pickAgent_host s _ evs hs hh (engineEnabled_waiting s hwait)
    exact (step_of_host s _ hpick).trans (hostTurn_write s off v evs i hh hd)
  case engineOnly =>
    intro w i hs hh ha hf hd
    have hpick := pickAgent_engine s hs hh (engineEnabled_active s w ha hf)
    exact (step_of_engine s _ hpick).trans (engineTurn_active s w i ha hd)
  case free =>
    intro off v evs w i j hs hh ha hf hdi hdj
    have hpick := pickAgent_free s _ evs hs hh (engineEnabled_active s w ha hf)
    split
    · rename_i hfirst
      rw [if_pos hfirst] at hpick
      exact (step_of_engine s _ hpick).trans (engineTurn_active _ w j ha hdj)
    · rename_i hfirst
      rw [if_neg hfirst] at hpick
      exact (step_of_host s _ hpick).trans (hostTurn_write _ off v evs i hh hdi)

/-- The reset input and SRST are the same `Reset()` (70_reset_and_hazards.md R340). -/
theorem hostEvent_hardReset (s : State) : hostEvent s .hardReset = exec (.wCtrl 1) s := rfl

/-- Settles O20: a forced host turn is the event's own effect, and an address is in the window by its
distance from FNC_BASE. -/
theorem otherHostEvents : Obligations.OtherHostEvents := by
  refine ⟨fun s evs rest hs => ?_, fun p off v => ?_, fun p addr v hout => ?_⟩
  · have hstep : ∀ ev, s.host = ev :: evs → step s = hostEvent { s with sched := rest, host := evs } ev :=
      fun ev hh => (step_of_host s _ (pickAgent_forced s _ rest hs)).trans (hostTurn_cons _ ev evs hh)
    exact ⟨fun bits off hh => hstep _ hh, fun hh => (hstep _ hh).trans (hostEvent_hardReset _)⟩
  · simp only [platformRead, platformWrite, windowOffset_inside, Option.map_some, and_self]
  · simp only [platformRead, platformWrite, windowOffset_outside p addr hout, Option.map_none, and_self]

/-! What stands after DONE (20_memory.md R72) -/

/-- t is s but for REQ_CODE, STICKY and the model's own fields, and REQ_CODE changed only by a write
of it. -/
def State.standsIn (s t : State) (reqWritten : Prop) : Prop :=
  ∃ req sticky host sched readLog draws, t = { s with
    reqCode := req, sticky := sticky, host := host, sched := sched, readLog := readLog, draws := draws } ∧
    (req ≠ s.reqCode → reqWritten)

theorem State.standsIn_aside (s : State) (reqWritten : Prop) {sticky : BitVec 3} {host : List HostEvent}
    {sched : List Agent} {readLog : List Word} {draws : Nat} :
    s.standsIn { s with sticky := sticky, host := host, sched := sched, readLog := readLog, draws := draws }
      reqWritten :=
  ⟨_, _, _, _, _, _, rfl, fun hne => absurd rfl hne⟩

theorem busRead_stands (s : State) (off : Offset) (reqWritten : Prop) :
    s.standsIn (s.busRead off) reqWritten := by
  unfold State.busRead
  repeat' split
  all_goals exact s.standsIn_aside _

/-- While no command is active, everything stands through an instruction that is no START and no
reset. -/
theorem exec_inactive_stands (i : Instr) (s t : State) (hn : ∀ w, s.opst ≠ .active w)
    (hstart : ∀ v, i ≠ .wCmd v) (hreset : ∀ v : Word, v.getLsbD 0 = true → i ≠ .wCtrl v)
    (he : exec i s = .next t) : s.standsIn t (∃ v, i = .wReqCode v) := by
  induction i using Instr.command_or_write with
  | command c =>
    rw [exec_command_inactive s c hn] at he
    obtain rfl := next_inj he
    exact t.standsIn_aside _
  | wCmd v => exact absurd rfl (hstart v)
  | wCtrl v =>
    obtain rfl := next_inj he
    rw [if_neg fun hv => hreset v hv rfl]
    exact s.standsIn_aside _
  | wSticky v =>
    obtain rfl := next_inj he
    exact s.standsIn_aside _
  | wInData v =>
    obtain rfl := next_inj he
    rw [State.push_inactive s _ hn]
    exact s.standsIn_aside _
  | wInEnd v =>
    obtain rfl := next_inj he
    rw [State.push_inactive s _ hn]
    exact s.standsIn_aside _
  | wReqCode v =>
    simp only [exec, execWReqCode] at he
    obtain rfl := next_inj he
    exact ⟨_, _, _, _, _, _, rfl, fun _ => ⟨v, rfl⟩⟩

/-- A bus write that decodes is the one its instruction is encoded as (30_encoding.md R93). -/
theorem encode_of_decodeBusWrite (off : Offset) (v : Word) (i : Instr)
    (h : decodeBusWrite off v = .ok i) : encode i = .bus (busWriteBits off v) := by
  obtain ⟨r, rfl, hr⟩ := decodeBusWrite_ok off v i h
  cases r <;> simp only [decodeRegWrite, reduceCtorEq, Except.ok.injEq] at hr <;> subst hr <;> rfl

theorem write_eq_of_encode {off off' : Offset} {v v' : Word} {i : Instr}
    (hd : decodeBusWrite off v = .ok i) (hi : encode i = .bus (busWriteBits off' v')) :
    HostEvent.write off v = .write off' v' := by
  have hbits : busWriteBits off v = busWriteBits off' v' :=
    Packet.bus.inj ((encode_of_decodeBusWrite off v i hd).symm.trans hi)
  have hoff := congrArg (BitVec.extractLsb' 0 16) hbits
  have hval := congrArg (BitVec.extractLsb' 16 32) hbits
  rw [busWrite_offset, busWrite_offset] at hoff
  rw [busWrite_value, busWrite_value] at hval
  rw [hoff, hval]

/-- The host events that disturb no completed command: no START and no reset (20_memory.md R72). -/
def HostEvent.harmless (ev : HostEvent) : Prop :=
  ev ≠ .hardReset ∧ (∀ v, ev ≠ .write 0x010 v) ∧ (∀ v : Word, v.getLsbD 0 = true → ev ≠ .write 0x014 v)

theorem hostEvent_inactive_stands {s t : State} {ev : HostEvent} (he : hostEvent s ev = .next t)
    (hn : ∀ w, s.opst ≠ .active w) (hev : HostEvent.harmless ev) :
    s.standsIn t (∃ v, ev = .write 0x038 v) := by
  obtain ⟨hnoReset, hnoStart, hnoSrst⟩ := hev
  cases ev with
  | read off =>
    obtain rfl := next_inj he
    exact busRead_stands s off _
  | otherWidth bits off => cases he
  | hardReset => exact absurd rfl hnoReset
  | write off v =>
    simp only [hostEvent, decode_busWriteBits] at he
    split at he
    · rename_i i hd
      obtain ⟨req, sticky, host, sched, readLog, draws, ht, hreq⟩ := exec_inactive_stands i s t hn
        (fun u hi => hnoStart u (write_eq_of_encode hd (hi ▸ rfl)))
        (fun u hu hi => hnoSrst u hu (write_eq_of_encode hd (hi ▸ rfl))) he
      refine ⟨req, sticky, host, sched, readLog, draws, ht, fun hne => ?_⟩
      obtain ⟨u, hi⟩ := hreq hne
      exact ⟨u, write_eq_of_encode hd (hi ▸ rfl)⟩
    · obtain rfl := next_inj he
      exact s.standsIn_aside _

/-- While no command is active, everything stands through a host's turn on a harmless event. -/
theorem hostTurn_inactive_stands {s t : State} (he : hostTurn s = .next t)
    (hn : ∀ w, s.opst ≠ .active w)
    (hev : ∀ ev evs, s.host = ev :: evs → HostEvent.harmless ev) :
    s.standsIn t (∃ v evs, s.host = .write 0x038 v :: evs) := by
  cases hh : s.host with
  | nil =>
    rw [hostTurn_nil s hh] at he
    obtain rfl := next_inj he
    exact t.standsIn_aside _
  | cons ev evs =>
    rw [hostTurn_cons s ev evs hh] at he
    obtain ⟨req, sticky, host, sched, readLog, draws, ht, hreq⟩ :=
      hostEvent_inactive_stands he hn (hev ev evs hh)
    refine ⟨req, sticky, host, sched, readLog, draws, ht, fun hne => ?_⟩
    obtain ⟨v, rfl⟩ := hreq hne
    exact ⟨v, evs, rfl⟩

theorem step_inactive_stands (s t : State) (hn : ∀ w, s.opst ≠ .active w)
    (hev : ∀ ev evs, s.host = ev :: evs → HostEvent.harmless ev) (he : step s = .next t) :
    s.standsIn t (∃ v evs, s.host = .write 0x038 v :: evs) := by
  obtain ⟨a, sched, draws, hpick⟩ := pickAgent_keeps s
  rw [step, advance, hpick] at he
  match a with
  | none =>
    obtain rfl := next_inj he
    exact s.standsIn_aside _
  | some .host =>
    have hturn := hostTurn_inactive_stands he hn hev
    exact hturn
  | some .engine =>
    have hidle := engineTurn_inactive { s with sched := sched, draws := draws } hn
    obtain rfl := next_inj (hidle.symm.trans he)
    exact s.standsIn_aside _

/-- Settles O58: in DONE_OK and DONE_ERR no command is active. -/
theorem resultsStandAfterDone : Obligations.ResultsStandAfterDone := by
  intro s t hdone hev he
  have hn : ∀ w, s.opst ≠ .active w := by
    intro w ha
    simp [ha] at hdone
  obtain ⟨req, sticky, host, sched, readLog, draws, rfl, hreq⟩ := step_inactive_stands s t hn hev he
  exact ⟨rfl, rfl, rfl, rfl, rfl, rfl, rfl, rfl, rfl, rfl, rfl, hreq, fun _ => rfl⟩

/-! The room a STATUS read promises (20_memory.md R73) -/

/-- Moves but accesses of another width all answer next states, keep the parameters, and fill the FIFO by
at most one entry for each push among them. -/
theorem runMoves_next (ms : List Move) (s : State)
    (hw : ∀ bits off, Move.host (.otherWidth bits off) ∉ ms) :
    ∃ u, runMoves ms s = .next u ∧ u.params = s.params ∧
      u.fifo.length ≤ s.fifo.length + (ms.filter fun m => m.pushes.isSome).length := by
  induction ms generalizing s with
  | nil => exact ⟨s, rfl, rfl, Nat.le_refl _⟩
  | cons m ms ih =>
    obtain ⟨t, ht, htp, htf⟩ := Move.run_next s m fun bits off hm =>
      hw bits off (hm ▸ List.mem_cons_self)
    obtain ⟨u, hu, hup, huf⟩ := ih t fun bits off hm => hw bits off (List.mem_cons_of_mem _ hm)
    refine ⟨u, by simp only [runMoves, ht, andThen, hu], hup.trans htp, ?_⟩
    cases hp : m.pushes.isSome <;>
      simp only [List.filter_cons, hp, ↓reduceIte, Bool.false_eq_true, List.length_cons] at htf ⊢ <;>
      omega

/-- Settles O59: fewer than IN_FREE pushes leave the FIFO a free slot. -/
theorem roomGuarantee : Obligations.RoomGuarantee := by
  intro s before ev e h _ hw hroom hpush
  obtain ⟨u, hu, hup, huf⟩ := runMoves_next before s hw
  rw [status_inFree, inFree_toNat s (Params.inDepth_le _ h.paramsLegal).2] at hroom
  have hfree : u.fifo.length ≠ u.params.inDepth := by
    rw [hup]
    omega
  refine ⟨u, hu, ?_⟩
  rw [hostEvent_pushes u ev e hpush]
  by_cases ha : ∃ w, u.opst = .active w
  · obtain ⟨w, hwk⟩ := ha
    exact .inl ⟨w, hwk, by rw [State.push_active u w e hwk hfree]⟩
  · have hn : ∀ w, u.opst ≠ .active w := fun w hwk => ha ⟨w, hwk⟩
    exact .inr ⟨hn, by rw [State.push_inactive u e hn]; rfl⟩

end Sys2Proof.Machine
end

section
/-! PROOFS. Encodings (30_encoding.md R90 to R93): command words, bus writes, the bits the tables do not
list, and where a table row's bits are placed. -/

namespace Sys2Proof.Machine

/-! Command words (30_encoding.md R90 to R92) -/

/-- The opcodes of no command (30_encoding.md R92). -/
def illegalOpcode (op : Byte) : Prop :=
  op.toNat = 0x00 ∨ (0x04 ≤ op.toNat ∧ op.toNat ≤ 0x0F) ∨ (0x13 ≤ op.toNat ∧ op.toNat ≤ 0x1F) ∨
    0x22 ≤ op.toNat

theorem Command.opcode_legal (c : Command) : ¬ illegalOpcode c.opcode := by
  unfold illegalOpcode
  cases c <;> decide

theorem Command.exists_opcode (op : Byte) (h : ¬ illegalOpcode op) : ∃ c : Command, c.opcode = op := by
  have named : op.toNat = 0x01 ∨ op.toNat = 0x02 ∨ op.toNat = 0x03 ∨ op.toNat = 0x10 ∨ op.toNat = 0x11 ∨
      op.toNat = 0x12 ∨ op.toNat = 0x20 ∨ op.toNat = 0x21 := by
    unfold illegalOpcode at h
    omega
  have of_toNat (c : Command) (hc : op.toNat = c.opcode.toNat) : ∃ c : Command, c.opcode = op :=
    ⟨c, BitVec.eq_of_toNat_eq hc.symm⟩
  obtain h | h | h | h | h | h | h | h := named
  · exact of_toNat .frmEnc h
  · exact of_toNat .frmDec h
  · exact of_toNat .ackChk h
  · exact of_toNat .ndefDec h
  · exact of_toNat .ndefEnc h
  · exact of_toNat .tlvParse h
  · exact of_toNat .uriExp h
  · exact of_toNat .uriCmp h

theorem Command.ofOpcode_illegal (op : Byte) (h : illegalOpcode op) : Command.ofOpcode op = none := by
  cases hc : Command.ofOpcode op with
  | none => rfl
  | some c => exact absurd (Command.opcode_of_ofOpcode op c hc ▸ h) (Command.opcode_legal c)

theorem decode_command {w : Word} (c : Command) (h : c.opcode = opcodeOf w) :
    decode (.cmd w) = .ok c.instr := by
  simp only [decode, decodeCommand, ← h, Command.ofOpcode_opcode]

theorem decode_command_illegal (w : Word) (h : illegalOpcode (opcodeOf w)) :
    decode (.cmd w) = .error (.unassignedOpcode (opcodeOf w)) := by
  simp only [decode, decodeCommand, Command.ofOpcode_illegal _ h]

theorem command_of_decode {w : Word} {i : Instr} (h : decode (.cmd w) = .ok i) :
    ∃ c : Command, c.opcode = opcodeOf w ∧ c.instr = i := by
  simp only [decode, decodeCommand] at h
  split at h
  · rename_i c hc
    exact ⟨c, Command.opcode_of_ofOpcode _ c hc, Except.ok.inj h⟩
  · cases h

theorem encode_command (c : Command) : encode c.instr = .cmd c.word := by
  cases c <;> rfl

/-- A command's word is any of its words with the ignored bits cleared (30_encoding.md R90). -/
theorem Command.word_eq {c : Command} {w : Word} (h : c.opcode = opcodeOf w) : c.word = w &&& 0xFF := by
  rw [Command.word, h, opcodeOf, low_byte]

/-! Bus writes (30_encoding.md R93) -/

theorem decode_write_reg (r : Reg) (v : Word) :
    decode (.bus (busWriteBits r.offset v)) = decodeRegWrite r v := by
  rw [decode_busWriteBits, decodeBusWrite_reg]

/-- Settles O1: the commands by their words, the host writes by their registers' offsets. -/
theorem decodeInvertsEncode : Obligations.DecodeInvertsEncode := by
  refine ⟨fun i => ?_, fun v i h => ?_, fun v i h => ?_⟩
  · induction i using Instr.command_or_write with
    | command c => rw [encode_command, decode_word]
    | wCmd v => exact decode_write_reg .cmd v
    | wCtrl v => exact decode_write_reg .ctrl v
    | wSticky v => exact decode_write_reg .sticky v
    | wInData v => exact decode_write_reg .inData v
    | wInEnd v => exact decode_write_reg .inEnd v
    | wReqCode v => exact decode_write_reg .reqCode v
  · obtain ⟨c, hop, rfl⟩ := command_of_decode h
    rw [encode_command, Command.word_eq hop]
  · rw [encode_of_decodeBusWrite _ _ i h, busWriteBits_fields]

/-- Settles O2: an illegal opcode names no command, so its START fails at once; every other opcode is
one of the eight. -/
theorem unassignedOpcodesFail : Obligations.UnassignedOpcodesFail := by
  refine ⟨fun v s hn hill => ⟨decode_command_illegal v hill, ?_⟩, fun v hleg => ?_⟩
  · show Host.Outcome.next (s.start (opcodeOf v)) = _
    rw [State.start_unknown s _ hn (Command.ofOpcode_illegal _ hill)]
    rfl
  · obtain ⟨c, hop⟩ := Command.exists_opcode _ hleg
    exact ⟨c, hop, decode_command c hop⟩

/-- Settles O3: the register at the offset decides. -/
theorem sideEffectWritesDecode : Obligations.SideEffectWritesDecode := by
  intro off v i
  constructor
  · intro h
    rw [decode_busWriteBits] at h
    obtain ⟨r, rfl, hr⟩ := decodeBusWrite_ok off v i h
    cases r <;> simp only [decodeRegWrite, reduceCtorEq, Except.ok.injEq] at hr <;> subst hr <;>
      simp [Reg.offset]
  · rintro (⟨rfl, rfl⟩ | ⟨rfl, rfl⟩ | ⟨rfl, rfl⟩ | ⟨rfl, rfl⟩ | ⟨rfl, rfl⟩ | ⟨rfl, rfl⟩)
    · exact decode_write_reg .cmd v
    · exact decode_write_reg .ctrl v
    · exact decode_write_reg .sticky v
    · exact decode_write_reg .inData v
    · exact decode_write_reg .inEnd v
    · exact decode_write_reg .reqCode v

/-! Ignored bits (30_encoding.md R93) -/

theorem canonical_command (c : Command) : c.instr.canonical = c.instr := by
  cases c <;> rfl

theorem opcodeOf_canonical (v : Word) : opcodeOf (v &&& 0xFF) = opcodeOf v := low_byte_and v

theorem byteOf_canonical (v : Word) : byteOf (v &&& 0xFF) = byteOf v := low_byte_and v

theorem stickyBitsOf_canonical (v : Word) : stickyBitsOf (v &&& 0x7) = stickyBitsOf v := low_three_and v

theorem endEntry_canonical (v : Word) : endEntry (v &&& 0xFF) = endEntry v := by
  simp only [endEntry, byteOf_canonical]

/-- Settles O5: each host write uses its value only through the field its mask keeps. -/
theorem ignoredBitsHaveNoEffect : Obligations.IgnoredBitsHaveNoEffect := by
  intro i s
  induction i using Instr.command_or_write with
  | command c => rw [canonical_command]
  | wCmd v => simp only [Instr.canonical, exec, execWCmd, opcodeOf_canonical]
  | wCtrl v => simp [Instr.canonical, exec, execWCtrl]
  | wSticky v => simp only [Instr.canonical, exec, execWSticky, stickyBitsOf_canonical]
  | wInData v => simp only [Instr.canonical, exec, execWInData, byteOf_canonical]
  | wInEnd v => simp only [Instr.canonical, exec, execWInEnd, endEntry_canonical]
  | wReqCode v => simp only [Instr.canonical, exec, execWReqCode, byteOf_canonical]

/-- Settles O4: each word has its row's opcode, or its row's offset below the value. -/
theorem specWordsDecode : Obligations.SpecWordsDecode :=
  ⟨decode_command .frmEnc rfl, decode_command .frmDec rfl, decode_command .ackChk rfl,
    decode_command .ndefDec rfl, decode_command .ndefEnc rfl, decode_command .tlvParse rfl,
    decode_command .uriExp rfl, decode_command .uriCmp rfl, decode_write_reg .cmd 0x12,
    decode_write_reg .ctrl 0x1, decode_write_reg .sticky 0x4, decode_write_reg .inData 0xAB,
    decode_write_reg .inEnd 0x41, decode_write_reg .reqCode 0x02⟩

/-! Placing a table row's bits (log 9) -/

theorem initWork_command (req : Byte) (c : Command) : (initWork req c).command = c := by
  cases c <;> rfl

theorem step_placeWrite (s : State) (off : Offset) (v : Word) (i : Instr)
    (h : decode (.bus (busWriteBits off v)) = .ok i) : step (s.placeWrite off v) = exec i s := by
  have hpick := pickAgent_forced (s.placeWrite off v) .host s.sched rfl
  exact (step_of_host _ _ hpick).trans (hostTurn_write _ off v s.host i rfl h)

theorem step_placeCommand (s : State) (c : Command) :
    step (s.placeCommand c) = exec c.instr { s.accept c with fifo := [.data 0x00] } := by
  have hpick := pickAgent_forced (s.placeCommand c) .engine s.sched rfl
  have hdec := decode_word (initWork s.reqCode c).command
  rw [initWork_command] at hdec
  have hop : (initWork s.reqCode c).op.setWidth 32 = c.word := by
    rw [Work.op, initWork_command, Command.word]
  exact (step_of_engine _ _ hpick).trans (engineTurn_active _ _ c.instr rfl (hop ▸ hdec))

/-- A 16-bit row's number is the offset, with no value bits above it. -/
theorem busWriteBits_ofNat (off : Nat) (h : off < 65536) :
    busWriteBits (BitVec.ofNat 16 off) 0 = BitVec.ofNat 48 off := by
  apply BitVec.eq_of_toNat_eq
  have h16 : off % 2 ^ 16 = off := Nat.mod_eq_of_lt h
  have h48 : off % 2 ^ 48 = off := Nat.mod_eq_of_lt (by omega)
  rw [busWriteBits, BitVec.toNat_append, BitVec.toNat_ofNat, BitVec.toNat_ofNat, h16, h48]
  simp

theorem Command.word_ofNat (c : Command) : BitVec.ofNat 32 c.opcode.toNat = c.word := by
  cases c <;> rfl

/-- Settles O7: the placed agent's turn is forced, and it finds exactly the placed instruction. -/
theorem placedInstructionRunsNext : Obligations.PlacedInstructionRunsNext := by
  refine ⟨step_placeWrite, step_placeCommand, fun s off hoff => ?_, fun s c => ?_⟩
  · show s.place (.bus (BitVec.ofNat 48 off)) = _
    rw [← busWriteBits_ofNat off hoff, State.place, busWrite_offset, busWrite_value]
  · show s.place (.cmd (BitVec.ofNat 32 c.opcode.toNat)) = _
    rw [Command.word_ofNat, State.place, opcodeOf_word, Command.ofOpcode_opcode]

end Sys2Proof.Machine
end

section
/-! PROOFS. Frames (30_encoding.md R94 to R99): whole streams through FRM_ENC, FRM_DEC and ACK_CHK. -/

namespace Sys2Proof.Machine

/-! A started command -/

/-- A started command that takes all of a run of bytes and succeeds at its last one. -/
theorem feed_started_done {c : Command} {bs : List Byte} {s : State} {w : Work}
    (hl : s.params.legal = true) (hs : s.started c)
    (h : stream s.params bs (initWork s.reqCode c) = some (.done w none)) :
    feed c (bs.map .data) s =
      .next (({ s with inPos := BitVec.ofNat 32 bs.length } : State).succeed w) := by
  obtain ⟨hact, hempty, hpos⟩ := hs
  have hne : bs ≠ [] := by
    rintro rfl
    cases h
  have hfed := feed_done c bs s _ w hact (initWork_command _ c) hempty (Params.inDepth_le _ hl).1 h hne
  simpa only [hpos, BitVec.ofNat_eq_ofNat, BitVec.zero_add] using hfed

/-! FRM_ENC (30_encoding.md R94, R95) -/

/-- The payload's bytes leave its length, its byte sum and itself (41_frame.md R172). -/
theorem stream_frmEnc_started (p : Params) (req : Byte) (payload : List Byte) (hl : payload.length ≤ 254) :
    ∃ sum : Byte, sum.toNat = sumBytes payload % 256 ∧
      stream p payload (initWork req .frmEnc) = some (.go { initWork req .frmEnc with
        cmd := .frmEnc { n := payload.length, sum := sum, buf := payload } }) := by
  obtain ⟨sum, hsum, hst⟩ := stream_frmEnc p payload (initWork req .frmEnc) { n := 0, sum := 0, buf := [] }
    (by simpa using hl)
  simp only [Nat.zero_add, List.nil_append] at hst
  exact ⟨sum, by simpa using hsum, hst⟩

/-- `End` after a payload that fits appends its frame and latches its first byte (41_frame.md R173,
R174). -/
theorem workEnd_frmEnc (p : Params) (w : Work) (b sum : Byte) (bs : List Byte)
    (hcmd : w.cmd = .frmEnc { n := (b :: bs).length, sum := sum, buf := b :: bs }) (hout : w.out = [])
    (hl : bs.length < 254) (hsum : sum.toNat = sumBytes (b :: bs) % 256) (hcap : 264 ≤ p.outCap) :
    workEnd p w = .done { w with out := specHostFrame (b :: bs) } (some b) := by
  have hframe := hostFrame_spec (b :: bs) sum (by simpa using hl) hsum
  have hfits : w.out.length + (specHostFrame (b :: bs)).length ≤ p.outCap := by
    simp only [hout, specHostFrame_length, List.length_nil, List.length_cons]
    omega
  simp only [workEnd, hcmd, frmEncEnd, hframe]
  rw [if_neg (by simp), Work.emit_fits _ _ _ _ hfits, hout, hcmd]
  rfl

/-- Settles O34: the payload is collected, and `End` builds its frame. -/
theorem frmEncBuildsFrame : Obligations.FrmEncBuildsFrame := by
  intro s b bs hl ⟨hact, hempty, hpos⟩ hlen
  obtain ⟨sum, hsum, hst⟩ := stream_frmEnc_started s.params s.reqCode (b :: bs) (by simpa using hlen)
  have hfed := feed_go_end .frmEnc (b :: bs) s _ _ hact rfl hempty (Params.inDepth_le _ hl).1 hst
  rw [workEnd_frmEnc s.params _ b sum bs rfl rfl hlen hsum (Params.outCap_le _ hl).1,
    State.settle_done_req] at hfed
  refine ⟨_, hfed, rfl, State.succeed_output _ _ ?_, ?_, rfl, ?_, rfl, rfl, rfl, rfl⟩
  · simp only [specHostFrame_length, List.length_cons]
    omega
  · simp
  · simp [State.took, hpos]

/-! FRM_DEC (30_encoding.md R96, R97) -/

/-- Settles O37: the frame is one run of bytes that ends in success. -/
theorem frmDecAcceptsFrame : Obligations.FrmDecAcceptsFrame := by
  intro s data hl hs hlen
  have hcap := (Params.outCap_le _ hl).1
  obtain ⟨x, hst⟩ := stream_frmDec s.params s.reqCode data hlen (by omega)
  refine ⟨_, feed_started_done hl hs hst, rfl, State.succeed_output _ _ ?_, rfl, rfl, ?_, rfl, rfl, rfl, rfl⟩
  · simp only
    omega
  · simp

/-- Before its first byte FRM_DEC has seen nothing of the frame. -/
theorem FrmDecW.seen_started (req : Byte) :
    FrmDecW.seen req [] [] (FrmDecW.mk .hdr 0 0 0 (expectedEcho req) 0) := by
  simp [FrmDecW.seen]

/-- Settles O38: up to the byte that completed, exactly a frame was seen. -/
theorem frmDecAcceptsOnlyFrames : Obligations.FrmDecAcceptsOnlyFrames := by
  intro s t bs hl ⟨hact, hempty, _⟩ hfed hok
  obtain ⟨pre, b, rest, w, w', q, u, sticky, rfl, hst, hdone, rfl⟩ :=
    feed_doneOk .frmDec bs s t _ hact rfl hempty (Params.inDepth_le _ hl).1 hfed hok
  obtain ⟨x, hcmd, hseen⟩ :=
    FrmDecW.seen_stream s.params s.reqCode pre [] _ w _ rfl (FrmDecW.seen_started s.reqCode) hst
  simp only [workByte, hcmd] at hdone
  obtain ⟨hframe, hlen⟩ := FrmDecW.seen_done _ s.reqCode b _ w w' q x hseen hdone
  refine ⟨w'.out, rest, ?_, hlen, ?_⟩
  · rw [← hframe]
    simp
  · have hout := State.succeed_output u w' (by omega)
    exact hout

/-! ACK_CHK (30_encoding.md R99) -/

theorem cons_eq_drop_iff {α : Type} {b : α} {bs l : List α} {i : Nat} :
    b :: bs = l.drop i ↔ l[i]? = some b ∧ bs = l.drop (i + 1) := by
  rw [← List.head?_drop, ← List.tail_drop]
  cases l.drop i <;> simp [eq_comm]

/-- How ACK_CHK ended: accepted exactly the literal, or failed with ACK_MISMATCH (41_frame.md R190). -/
def State.ackEnded (t : State) (literal : Prop) : Prop :=
  (literal ∧ t.opst = .doneOk) ∨ (¬ literal ∧ t.opst = .doneErr ∧ t.errCode = 0x30)

/-- ACK_CHK on as many bytes as the literal has left: it accepts exactly the rest of the literal. -/
theorem feed_ackChk (bs : List Byte) (i : Nat) (s : State) (w : Work) (hact : s.opst = .active w)
    (hcmd : w.cmd = .ackChk i) (hempty : s.fifo = []) (hd : 0 < s.params.inDepth) (hi : i < 6)
    (hlen : i + bs.length = 6) :
    ∃ t, feed .ackChk (bs.map .data) s = .next t ∧ t.ackEnded (bs = ackPattern.drop i) := by
  induction bs generalizing i s w with
  | nil =>
    simp only [List.length_nil] at hlen
    omega
  | cons b bs ih =>
    simp only [List.length_cons] at hlen
    have hcommand : w.command = .ackChk := by simp only [Work.command, hcmd]
    have hbyte : workByte s.params w b = ackByte w i b := by simp only [workByte, hcmd]
    rw [List.map_cons, feed_data .ackChk b _ s w hact hcommand hempty hd, hbyte, ackByte]
    by_cases hb : ackPattern[i]? = some b
    · rw [if_neg (not_not.2 hb)]
      by_cases hlast : i + 1 = 6
      · obtain rfl : bs = [] := List.length_eq_zero_iff.1 (by omega)
        obtain rfl : i = 5 := by omega
        exact ⟨_, rfl, .inl ⟨cons_eq_drop_iff.2 ⟨hb, rfl⟩, rfl⟩⟩
      · rw [if_neg hlast, State.settle_go]
        obtain ⟨t, ht, hend⟩ := ih (i + 1)
          { s with inPos := s.inPos + 1, opst := .active { w with cmd := .ackChk (i + 1) } }
          _ rfl rfl hempty hd (by omega) (by omega)
        exact ⟨t, ht, by simpa only [cons_eq_drop_iff, hb, true_and] using hend⟩
    · rw [if_pos hb, State.settle_bad]
      obtain ⟨sticky, ht⟩ := feed_inactive .ackChk (bs.map .data)
        (({ s with inPos := s.inPos + 1 } : State).fail .ackMismatch 0) nofun (by simp [Entry.wellFormed])
      exact ⟨_, ht, .inr ⟨fun h => hb (cons_eq_drop_iff.1 h).1, rfl, rfl⟩⟩

/-- Settles O40: from the start, the rest of the literal is the literal. -/
theorem ackAcceptsExactlyTheLiteral : Obligations.AckAcceptsExactlyTheLiteral := by
  intro s bs hl ⟨hact, hempty, _⟩ hlen
  obtain ⟨t, ht, hend⟩ := feed_ackChk bs 0 s _ hact rfl hempty (Params.inDepth_le _ hl).1 (by omega)
    (by omega)
  refine ⟨t, ht, ?_⟩
  obtain ⟨hlit, hok⟩ | ⟨hlit, herr, hcode⟩ := hend
  · exact ⟨⟨fun _ => hlit, fun _ => hok⟩, fun hnot => absurd hok hnot⟩
  · exact ⟨⟨fun hok => by simp [herr] at hok, fun h => absurd h hlit⟩, fun _ => ⟨herr, hcode⟩⟩

end Sys2Proof.Machine
end

section
/-! PROOFS. NDEF records (30_encoding.md R104 to R112): a whole message through NDEF_DEC, and NDEF_ENC's
wire header. -/

namespace Sys2Proof.Machine

/-! NDEF_DEC (30_encoding.md R104, R109, R112) -/

/-- NDEF_DEC takes a message's wire bytes and leaves its RDs, counted (42_ndef.md R230). -/
theorem stream_ndefDec_message (p : Params) (req : Byte) (rs : List NdefRecord) (hm : isMessage rs)
    (hf : ∀ r ∈ rs, r.fits) (hcap : (rdBytes rs).length ≤ p.outCap) :
    stream p (wireBytes rs) (initWork req .ndefDec) =
      some (.done (Work.mk (rdBytes rs) 1 (BitVec.ofNat 32 rs.length) 0 0 (.ndefDec recInit)) none) := by
  have hrec := recStream_message p.outCap (initWork req .ndefDec) rs hm hf (by simpa [initWork] using hcap)
  have hst := stream_ndefDec p _ _ recInit _ hrec
  simpa [RecOut.verdict, initWork, initCmd] using hst

/-- Settles O42: the message is one run of bytes that ends in success. -/
theorem ndefDecMessage : Obligations.NdefDecMessage := by
  intro s rs hl hs hm hf hcap
  have hst := stream_ndefDec_message s.params s.reqCode rs hm hf hcap
  have hwin := (Params.outCap_le _ hl).2
  refine ⟨_, feed_started_done hl hs hst, rfl, State.succeed_output _ _ ?_, rfl, rfl, rfl, rfl, rfl, rfl⟩
  simp only
  omega

/-! NDEF_ENC's wire header (30_encoding.md R110, R111; 42_ndef.md R236, R237) -/

theorem bitAt_other (f : Bool) {n i : Nat} (h : i ≠ n) : (bitAt f n).getLsbD i = false := by
  cases f with
  | false => simp [bitAt]
  | true =>
    have hshift : i < n ∨ i - n ≠ 0 := by omega
    obtain hlt | hgt := hshift
    · simp [bitAt, hlt]
    · simp [bitAt, BitVec.getLsbD_one, hgt]

theorem wireFlags_sr (flags idlen : Byte) (plen : Word) :
    (wireFlags flags idlen plen).getLsbD 4 = srOf plen := by
  cases hs : srOf plen <;> cases hi : ilOf idlen <;> simp [wireFlags, bitAt, hs, hi]

theorem wireFlags_il (flags idlen : Byte) (plen : Word) :
    (wireFlags flags idlen plen).getLsbD 3 = ilOf idlen := by
  cases hs : srOf plen <;> cases hi : ilOf idlen <;> simp [wireFlags, bitAt, hs, hi]

/-- The header byte copies every flag but SR and IL (42_ndef.md R237). -/
theorem wireFlags_other (flags idlen : Byte) (plen : Word) (i : Nat) (hi : i < 8) (h3 : i ≠ 3) (h4 : i ≠ 4) :
    (wireFlags flags idlen plen).getLsbD i = flags.getLsbD i := by
  have hmask : (0xE7 : Byte).getLsbD i = true := by
    have kept : ∀ k : Fin 8, k.val ≠ 3 → k.val ≠ 4 → (0xE7 : Byte).getLsbD k = true := by decide
    exact kept ⟨i, hi⟩ h3 h4
  simp only [wireFlags, BitVec.getLsbD_or, BitVec.getLsbD_and, bitAt_other _ h3, bitAt_other _ h4,
    hmask, Bool.and_true, Bool.or_false]

theorem wireHeader_eq (flags tlen idlen : Byte) (plen : Word) :
    wireHeader flags tlen idlen plen = [wireFlags flags idlen plen, tlen]
      ++ (if plen.toNat < 255 then [plen.extractLsb' 0 8]
          else [plen.extractLsb' 24 8, plen.extractLsb' 16 8, plen.extractLsb' 8 8, plen.extractLsb' 0 8])
      ++ (if idlen ≠ 0 then [idlen] else []) := by
  simp only [wireHeader, srOf, ilOf, be32, decide_eq_true_eq, bne_iff_ne]

/-! The first field after the wire header (42_ndef.md R236, R240) -/

section firstField
variable (w : Work) (e : EncW)

theorem encNext_flg_type (ht : e.tlen ≠ 0) : encNext w e .flg =
    .go { w with cmd := .ndefEnc { e with ph := .type, cnt := e.tlen.setWidth 32 } } := by
  rw [encNext, if_pos ⟨rfl, ht⟩]

theorem encNext_flg_id (ht : e.tlen = 0) (hi : e.idlen ≠ 0) : encNext w e .flg =
    .go { w with cmd := .ndefEnc { e with ph := .id, cnt := e.idlen.setWidth 32 } } := by
  rw [encNext, if_neg fun h => h.2 ht, if_pos ⟨.inl rfl, hi⟩]

theorem encNext_flg_pay (ht : e.tlen = 0) (hi : e.idlen = 0) (hp : e.plen ≠ 0) : encNext w e .flg =
    .go { w with cmd := .ndefEnc { e with ph := .pay, cnt := e.plen } } := by
  rw [encNext, if_neg fun h => h.2 ht, if_neg fun h => h.2 hi, if_pos ⟨.inl rfl, hp⟩]

theorem encNext_flg_more (ht : e.tlen = 0) (hi : e.idlen = 0) (hp : e.plen = 0)
    (hme : e.flags.getLsbD 6 = false) : encNext w e .flg =
    .go { w with recs := w.recs + 1, cmd := .ndefEnc encInit } := by
  rw [encNext, if_neg fun h => h.2 ht, if_neg fun h => h.2 hi, if_neg fun h => h.2 hp, encRecordDone,
    flagME, hme, if_neg Bool.false_ne_true]

theorem encNext_flg_last (ht : e.tlen = 0) (hi : e.idlen = 0) (hp : e.plen = 0)
    (hme : e.flags.getLsbD 6 = true) : encNext w e .flg =
    .done { w with recs := w.recs + 1, msgs := 1, cmd := .ndefEnc e } none := by
  rw [encNext, if_neg fun h => h.2 ht, if_neg fun h => h.2 hi, if_neg fun h => h.2 hp, encRecordDone,
    flagME, hme, if_pos rfl]

end firstField

/-- The fourth PAYLOAD_LEN byte emits the wire header and chooses the first field (42_ndef.md R236,
R237). -/
theorem workByte_encHeader (p : Params) (w : Work) (e : EncW) (b : Byte) (plen : Word)
    (hcmd : w.cmd = .ndefEnc e) (hph : e.ph = .pl) (hk : e.k = 3) (hp : plen = be32Step e.plen b) :
    workByte p w b = w.emit p.outCap (wireHeader e.flags e.tlen e.idlen plen) fun w =>
      encNext w { e with plen := plen, k := 4 } .flg := by
  have hbyte : workByte p w b = encPlen p.outCap w e b := by simp only [workByte, hcmd, ndefEncByte, hph]
  simp [hbyte, encPlen, hk, hp]

/-- Settles O44: the header's bits, its capacity, and the first field that is not empty. -/
theorem encoderHeader : Obligations.EncoderHeader := by
  intro s w e b rest plen ha hcmd hph hk hf hplen go done fromPay fromId fromType
  refine ⟨wireFlags e.flags e.idlen plen, ?sr, ?il, wireFlags_other _ _ _, ?emit⟩
  case sr => rw [wireFlags_sr, srOf, decide_eq_true_eq]
  case il => rw [wireFlags_il, ilOf, bne_iff_ne]
  case emit =>
    intro head
    have hhead : head = wireHeader e.flags e.tlen e.idlen plen := (wireHeader_eq _ _ _ _).symm
    have hcommand : w.command = .ndefEnc := by simp only [Work.command, hcmd]
    have hexec : exec .ndefEnc s = .next ((s.afterByte rest).settle (workByte s.params w b)) :=
      exec_takes_byte s w .ndefEnc b rest ha hcommand hf
    rw [workByte_encHeader _ w e b plen hcmd hph hk hplen, ← hhead] at hexec
    refine ⟨fun hover => ?_, fun hfits => ?_⟩
    · rw [hexec, Work.emit_over _ _ _ _ hover]
      rfl
    · rw [Work.emit_fits _ _ _ _ hfits] at hexec
      refine ⟨fun ht => ?type, fun ht => ⟨fun hi => ?id, fun hi => ⟨fun hp => ?pay, fun hp =>
        ⟨fun hme => ?more, fun hme => ?last⟩⟩⟩⟩
      case type => rwa [encNext_flg_type _ _ ht] at hexec
      case id => rwa [encNext_flg_id _ _ ht hi] at hexec
      case pay => rwa [encNext_flg_pay _ _ ht hi hp] at hexec
      case more => rwa [encNext_flg_more _ _ ht hi hp hme] at hexec
      case last => rwa [encNext_flg_last _ _ ht hi hp hme] at hexec

end Sys2Proof.Machine
end

section
/-! PROOFS. Host writes (40_host_actions.md R142 to R147, R158): START and its initial working state, the
pushes, soft reset, STICKY and REQ_CODE, and what each of the six leaves alone. -/

namespace Sys2Proof.Machine

/-! START (40_host_actions.md R142) -/

theorem Command.ofOpcode_eq_none {op : Byte} (h : ∀ c : Command, c.opcode ≠ op) :
    Command.ofOpcode op = none := by
  cases hc : Command.ofOpcode op with
  | none => rfl
  | some c => exact absurd (Command.opcode_of_ofOpcode op c hc) (h c)

/-- START is rejected while a command is active; otherwise it is accepted or fails at once. -/
theorem State.start_cases (s : State) (op : Byte) :
    ((∃ w, s.opst = .active w) ∧ s.start op = s.setSticky cmdRej) ∨
    ((∀ w, s.opst ≠ .active w) ∧ ∃ c : Command, c.opcode = op ∧ s.start op = s.accept c) ∨
    ((∀ w, s.opst ≠ .active w) ∧ s.start op = (s.clearResults op).fail .illegalOp 0) := by
  by_cases ha : ∃ w, s.opst = .active w
  · obtain ⟨w, hw⟩ := ha
    exact .inl ⟨⟨w, hw⟩, State.start_active s w op hw⟩
  · have hn : ∀ w, s.opst ≠ .active w := fun w hw => ha ⟨w, hw⟩
    cases hc : Command.ofOpcode op with
    | some c =>
      exact .inr (.inl ⟨hn, c, Command.opcode_of_ofOpcode op c hc, State.start_known s op c hn hc⟩)
    | none => exact .inr (.inr ⟨hn, State.start_unknown s op hn hc⟩)

/-- Settles O8: one clause per end of START. -/
theorem startRule : Obligations.StartRule := by
  intro v s
  refine ⟨fun w ha => ?rejected, fun hn => ⟨fun c hop => ?accepted, fun hop => ?failed⟩⟩
  case rejected => exact congrArg _ (State.start_active s w _ ha)
  case accepted =>
    rw [exec, execWCmd, ← hop, State.start_known s _ c hn (Command.ofOpcode_opcode c)]
    rfl
  case failed => exact congrArg _ (State.start_unknown s _ hn (Command.ofOpcode_eq_none hop))

/-- Settles O9: the common fields for any command, then each command's own. -/
theorem initialWorkingState : Obligations.InitialWorkingState := by
  refine ⟨fun req c => ⟨?_, rfl, rfl, rfl, rfl, rfl⟩, fun req => ⟨rfl, rfl, rfl, rfl, rfl, rfl, rfl, rfl⟩⟩
  rw [Work.op, initWork_command]

/-! Soft reset, STICKY, REQ_CODE (40_host_actions.md R143, R146, R147) -/

theorem exec_wCtrl_set (v : Word) (s : State) (hv : v.getLsbD 0 = true) :
    exec (.wCtrl v) s = .next s.softReset :=
  congrArg _ (if_pos hv)

theorem exec_wCtrl_clear (v : Word) (s : State) (hv : v.getLsbD 0 = false) :
    exec (.wCtrl v) s = .next s :=
  congrArg _ (if_neg (ne_true_of_eq_false hv))

/-- Settles O10: bit 0 decides between `Reset()` and nothing. -/
theorem softResetRule : Obligations.SoftResetRule :=
  fun v s => ⟨exec_wCtrl_set v s, exec_wCtrl_clear v s⟩

theorem stickyBitsOf_bit (v : Word) (i : Nat) (hi : i < 3) : (stickyBitsOf v).getLsbD i = v.getLsbD i := by
  simp [stickyBitsOf, hi]

/-- Settles O11: the new STICKY is the old one without the bits of the written value. -/
theorem stickyClearRule : Obligations.StickyClearRule := by
  intro v s
  refine ⟨s.sticky &&& ~~~ stickyBitsOf v, rfl, fun i hi => ?_⟩
  rw [BitVec.getLsbD_and, BitVec.getLsbD_not, stickyBitsOf_bit v i hi, decide_eq_true hi, Bool.true_and]

theorem exec_wReqCode_active (v : Word) (s : State) (w : Work) (ha : s.opst = .active w) :
    exec (.wReqCode v) s = .next (s.setSticky cmdRej) := by
  simp only [exec, execWReqCode, ha]

theorem exec_wReqCode_inactive (v : Word) (s : State) (hn : ∀ w, s.opst ≠ .active w) :
    exec (.wReqCode v) s = .next { s with reqCode := byteOf v } := by
  simp only [exec, execWReqCode]

/-- A write of REQ_CODE is rejected or stored. -/
theorem exec_wReqCode_cases (v : Word) (s t : State) (h : exec (.wReqCode v) s = .next t) :
    t = s.setSticky cmdRej ∨ t = { s with reqCode := byteOf v } := by
  by_cases ha : ∃ w, s.opst = .active w
  · obtain ⟨w, hw⟩ := ha
    exact .inl (next_inj ((exec_wReqCode_active v s w hw).symm.trans h))
  · have hn : ∀ w, s.opst ≠ .active w := fun w hw => ha ⟨w, hw⟩
    exact .inr (next_inj ((exec_wReqCode_inactive v s hn).symm.trans h))

/-- Settles O13: rejected while a command is active, stored otherwise. -/
theorem reqCodeRule : Obligations.ReqCodeRule :=
  fun v s => ⟨exec_wReqCode_active v s, exec_wReqCode_inactive v s⟩

/-! Pushes (40_host_actions.md R144, R145) -/

/-- A push is dropped while no command is active; otherwise it overflows or appends. -/
theorem State.push_cases (s : State) (e : Entry) :
    ((∀ w, s.opst ≠ .active w) ∧ s.push e = s.setSticky inDrop) ∨
    ((∃ w, s.opst = .active w) ∧ s.push e = s.fail .inOverflow 0) ∨
    ((∃ w, s.opst = .active w) ∧ s.push e = { s with fifo := s.fifo ++ [e] }) := by
  by_cases ha : ∃ w, s.opst = .active w
  · obtain ⟨w, hw⟩ := ha
    by_cases hfull : s.fifo.length = s.params.inDepth
    · exact .inr (.inl ⟨⟨w, hw⟩, State.push_full s w e hw hfull⟩)
    · exact .inr (.inr ⟨⟨w, hw⟩, State.push_active s w e hw hfull⟩)
  · have hn : ∀ w, s.opst ≠ .active w := fun w hw => ha ⟨w, hw⟩
    exact .inl ⟨hn, State.push_inactive s e hn⟩

theorem endEntry_of_ne_zero (v : Word) (h : v.extractLsb' 0 8 ≠ 0) :
    endEntry v = .abort (v.extractLsb' 0 8) :=
  if_neg h

theorem endEntry_of_zero (v : Word) (h : v.extractLsb' 0 8 = 0) : endEntry v = .endMark :=
  if_pos h

/-- Settles O12: both pushing writes are `Push` of their entry, with its three ends. -/
theorem pushRule : Obligations.PushRule := by
  refine ⟨fun i e s he => ?_, fun v => rfl, fun v hv => congrArg some (endEntry_of_zero v hv),
    fun v hv => congrArg some (endEntry_of_ne_zero v hv)⟩
  rw [exec_pushed i e s he]
  exact ⟨fun hn => congrArg _ (State.push_inactive s e hn),
    fun w ha hfull => congrArg _ (State.push_full s w e ha hfull),
    fun w ha hroom => congrArg _ (State.push_active s w e ha hroom)⟩

/-! What a host write leaves alone -/

/-- What no host write changes: the parameters, the model's own fields and OUT. -/
structure State.KeptByWrite (s t : State) : Prop where
  params : t.params = s.params
  host : t.host = s.host
  sched : t.sched = s.sched
  readLog : t.readLog = s.readLog
  draws : t.draws = s.draws
  out : t.out = s.out

theorem start_kept (s : State) (op : Byte) : s.KeptByWrite (s.start op) := by
  obtain ⟨-, h⟩ | ⟨-, c, -, h⟩ | ⟨-, h⟩ := s.start_cases op <;> rw [h] <;> constructor <;> rfl

theorem push_kept (s : State) (e : Entry) : s.KeptByWrite (s.push e) := by
  obtain ⟨-, h⟩ | ⟨-, h⟩ | ⟨-, h⟩ := s.push_cases e <;> rw [h] <;> constructor <;> rfl

theorem exec_write_kept (i : Instr) (s t : State) (hi : ∀ c : Command, i ≠ c.instr)
    (h : exec i s = .next t) : s.KeptByWrite t := by
  induction i using Instr.command_or_write with
  | command c => exact absurd rfl (hi c)
  | wCmd v =>
    obtain rfl := next_inj h
    exact start_kept s _
  | wCtrl v =>
    obtain rfl := next_inj h
    split <;> constructor <;> rfl
  | wSticky v =>
    obtain rfl := next_inj h
    constructor <;> rfl
  | wInData v =>
    obtain rfl := next_inj h
    exact push_kept s _
  | wInEnd v =>
    obtain rfl := next_inj h
    exact push_kept s _
  | wReqCode v => obtain rfl | rfl := exec_wReqCode_cases v s t h <;> constructor <;> rfl

/-- START keeps REQ_CODE, and where it changes STICKY it changes nothing else. -/
theorem start_frame (s : State) (op : Byte) :
    (s.start op).reqCode = s.reqCode ∧
    ((s.start op).sticky ≠ s.sticky → s.start op = { s with sticky := (s.start op).sticky }) := by
  obtain ⟨-, h⟩ | ⟨-, c, -, h⟩ | ⟨-, h⟩ := s.start_cases op <;> rw [h]
  · exact ⟨rfl, fun _ => rfl⟩
  · exact ⟨rfl, fun hne => absurd rfl hne⟩
  · exact ⟨rfl, fun hne => absurd rfl hne⟩

/-- A push that keeps the status touches FIFO and STICKY only; one that ends the command is IN_OVERFLOW
and touches no STICKY bit. -/
theorem push_frame (s : State) (e : Entry) :
    (s.push e).lastOp = s.lastOp ∧ (s.push e).reqCode = s.reqCode ∧ (s.push e).inPos = s.inPos ∧
    ((s.push e).opst = s.opst → s.push e = { s with fifo := (s.push e).fifo, sticky := (s.push e).sticky }) ∧
    ((s.push e).opst ≠ s.opst → (s.push e).sticky = s.sticky ∧ (s.push e).errCode = 0x02) := by
  obtain ⟨-, h⟩ | ⟨⟨w, ha⟩, h⟩ | ⟨-, h⟩ := s.push_cases e <;> rw [h]
  · exact ⟨rfl, rfl, rfl, fun _ => rfl, fun hne => absurd rfl hne⟩
  · refine ⟨rfl, rfl, rfl, fun heq => ?_, fun _ => ⟨rfl, rfl⟩⟩
    rw [State.fail_opst, ha] at heq
    cases heq
  · exact ⟨rfl, rfl, rfl, fun _ => rfl, fun hne => absurd rfl hne⟩

/-- Settles O29: what every host write keeps, then each rule's own frame. -/
theorem hostWriteFrame : Obligations.HostWriteFrame := by
  intro i s t hi h
  obtain ⟨hparams, hhost, hsched, hlog, hdraws, hout⟩ := exec_write_kept i s t hi h
  refine ⟨hparams, hhost, hsched, hlog, hdraws, fun a => congrArg (Memory.read · a) hout, ?start, ?reset,
    ?sticky, ?reqCode, ?push⟩
  case start =>
    rintro v rfl
    obtain rfl := next_inj h
    exact start_frame s _
  case reset =>
    rintro v rfl hv
    exact next_inj ((exec_wCtrl_clear v s hv).symm.trans h)
  case sticky =>
    rintro v rfl
    obtain rfl := next_inj h
    rfl
  case reqCode =>
    rintro v rfl
    obtain rfl | rfl := exec_wReqCode_cases v s t h <;> rfl
  case push =>
    intro e he
    obtain rfl := next_inj ((exec_pushed i e s he).symm.trans h)
    exact push_frame s e

end Sys2Proof.Machine
end

section
/-! PROOFS. Completed output (40_host_actions.md R148, R153): what a success copies to OUT, and what a read
of an OUT_BUF word returns. -/

namespace Sys2Proof.Machine

theorem Memory.read_writeBytes_getElem? (m : Memory) (a i : Nat) (bs : List Byte) (b : Byte)
    (h : bs[i]? = some b) : Memory.read (Memory.writeBytes m a bs) (a + i) = some b := by
  obtain ⟨hi, hb⟩ := List.getElem?_eq_some_iff.1 h
  rw [Memory.read_writeBytes_inside m a i bs hi, hb]

/-- Settles O22: the run of bytes a success writes from OUT[0] up. -/
theorem succeedRule : Obligations.SucceedRule := fun s w =>
  ⟨Memory.writeBytes s.out outBase w.out, rfl,
    fun i b => Memory.read_writeBytes_getElem? s.out outBase i w.out b,
    fun a => Memory.read_writeBytes_outside s.out outBase a w.out⟩

/-! Reads of OUT_BUF (10_state.md R40, 20_memory.md R66) -/

theorem readOutByte_defined (s : State) (i n : Nat) (b : Byte) (hok : s.opst = .doneOk)
    (hi : i < s.outLen.toNat) (hb : Memory.read s.out (outBase + i) = some b) : s.readOutByte i n = b := by
  rw [State.readOutByte, State.outByte, if_pos ⟨hok, hi⟩, hb, Option.getD_some]

theorem readOutByte_free (s : State) (i n : Nat) (h : s.opst ≠ .doneOk ∨ s.outLen.toNat ≤ i) :
    s.readOutByte i n = Config.unspecifiedByte n := by
  have hundef : ¬ (s.opst = .doneOk ∧ i < s.outLen.toNat) := by
    rintro ⟨hok, hi⟩
    obtain hno | hle := h
    · exact hno hok
    · omega
  rw [State.readOutByte, State.outByte, if_neg hundef, Option.getD_none]

/-- Byte j of a word packed little-endian. -/
theorem readOutWord_byte (s : State) (i j : Nat) (hj : j < 4) :
    (s.readOutWord i).extractLsb' (8 * j) 8 = s.readOutByte (i + j) (s.draws + j) := by
  refine extractLsb'_eq_of_bits fun k hk => ?_
  have hplace : j = 0 ∨ j = 1 ∨ j = 2 ∨ j = 3 := by omega
  obtain rfl | rfl | rfl | rfl := hplace <;>
    simp (disch := omega) only [State.readOutWord, BitVec.getLsbD_append, if_pos, if_neg] <;>
    congr 1 <;> omega

/-- Settles O16: the word read, byte by byte. -/
theorem outBufRead : Obligations.OutBufRead := by
  intro s k hl hk
  obtain ⟨-, hcap⟩ := Params.outCap_le _ hl
  have hoff : (BitVec.ofNat 16 (0x1000 + 4 * k)).toNat = 0x1000 + 4 * k := by
    rw [BitVec.toNat_ofNat, Nat.mod_eq_of_lt (by omega)]
  have halign : (BitVec.ofNat 16 (0x1000 + 4 * k)).extractLsb' 0 2 = 0 := by
    rw [extractLsb'_two_eq_zero_iff, hoff]
    omega
  have hread := hostEvent_read_outBuf s _ halign (by omega) (by omega)
  rw [hoff, outBase, Nat.add_sub_cancel_left] at hread
  refine ⟨_, hread, fun j hj => ?_⟩
  rw [readOutWord_byte s _ j hj]
  exact ⟨fun b hok hi hb => readOutByte_defined s _ _ b hok hi (by rwa [outBase, ← Nat.add_assoc]),
    readOutByte_free s _ _⟩

end Sys2Proof.Machine
end

section
/-! PROOFS. The engine step (40_host_actions.md R150 to R156, 60_exceptions.md R310, R311): waiting, the
ends of taking one entry, what they leave alone, and the order of a push and a step. -/

namespace Sys2Proof.Machine

/-! Waiting (40_host_actions.md R150) -/

theorem exec_command_waiting (s : State) (w : Work) (ha : s.opst = .active w) (hf : s.fifo = []) :
    exec w.command.instr s = .next s := by
  rw [exec_command_active s w ha, State.engineStep_empty s _ _ hf]

theorem pickAgent_none (s : State) (hs : s.sched = []) (hh : s.host = []) (he : s.engineEnabled = false) :
    s.pickAgent = (none, s) := by
  simp only [State.pickAgent, hs, hh, he]

theorem step_of_none (s u : State) (h : s.pickAgent = (none, u)) : step s = .next u := by
  simp only [step, advance, h]

/-- Settles O25: no entry, no active command of that name, no agent that can move. -/
theorem waitingCommandStays : Obligations.WaitingCommandStays := by
  refine ⟨exec_command_waiting, fun s c hother => ?_, fun s hs hh hf => ?_⟩
  · by_cases ha : ∃ w, s.opst = .active w
    · obtain ⟨w, hw⟩ := ha
      exact exec_command_other s w c hw (hother w hw)
    · exact exec_command_inactive s c fun w hw => ha ⟨w, hw⟩
  · exact step_of_none s s (pickAgent_none s hs hh (engineEnabled_waiting s (.inr hf)))

/-- Settles O24: whatever the command and its phase, `Abort` is the one failure HOST_ABORT. -/
theorem abortEndsEveryCommand : Obligations.AbortEndsEveryCommand :=
  fun s w c rest ha hf => exec_takes_abort s w w.command c rest ha rfl hf

/-! Taking one entry (40_host_actions.md R150, R151) -/

/-- IN_POS once the entry is taken: only a Data entry counts (40_host_actions.md R151). -/
def State.posAfter (s : State) : Entry → Word
  | .data _ => s.inPos + 1
  | .endMark => s.inPos
  | .abort _ => s.inPos

/-- The state once the engine has taken the entry off the FIFO and counted it. -/
def State.afterEntry (s : State) (rest : List Entry) (e : Entry) : State :=
  { s with fifo := rest, inPos := s.posAfter e }

/-- The active command's rule for the entry taken, carried out in u (40_host_actions.md R150). -/
def Work.processes (p : Params) (w : Work) (u : State) : Entry → State
  | .data b => u.settle (workByte p w b)
  | .endMark => u.settle (workEnd p w)
  | .abort c => u.fail .hostAbort c

/-- The active command's instruction takes the entry at the head and processes it. -/
theorem exec_takes_entry (s : State) (w : Work) (e : Entry) (rest : List Entry)
    (ha : s.opst = .active w) (hf : s.fifo = e :: rest) :
    exec w.command.instr s = .next (w.processes s.params (s.afterEntry rest e) e) := by
  cases e with
  | data b => exact exec_takes_byte s w w.command b rest ha rfl hf
  | endMark => exact exec_takes_end s w w.command rest ha rfl hf
  | abort c => exact exec_takes_abort s w w.command c rest ha rfl hf

/-- How the active command's rule for an entry can end, from the state u in which the entry is taken. -/
inductive EngineEnd (p : Params) (w : Work) (u : State) : State → Prop where
  | goesOn (w' : Work) : w'.command = w.command → EngineEnd p w u { u with opst := .active w' }
  | succeeds (w' : Work) (q : Option Byte) : w.answers p (.done w' q) →
      EngineEnd p w u ({ u with reqCode := q.getD u.reqCode }.succeed w')
  | fails (e : ErrCode) (c : Byte) : EngineEnd p w u (u.fail e c)

theorem settle_engineEnd {p : Params} {w : Work} {v : Verdict} (u : State) (h : w.answers p v) :
    EngineEnd p w u (u.settle v) := by
  cases v with
  | go w' => exact .goesOn w' (Work.answers_within h)
  | done w' q => cases q <;> exact .succeeds w' _ h
  | bad e => exact .fails e 0

theorem processes_engineEnd (p : Params) (w : Work) (u : State) (e : Entry) :
    EngineEnd p w u (w.processes p u e) := by
  cases e with
  | data b => exact settle_engineEnd u (.inr ⟨b, rfl⟩)
  | endMark => exact settle_engineEnd u (.inl rfl)
  | abort c => exact .fails .hostAbort c

theorem EngineEnd.inPos {p : Params} {w : Work} {u t : State} (h : EngineEnd p w u t) :
    t.inPos = u.inPos := by
  cases h <;> rfl

/-- Settles O27: the entry is taken and counted, and its processing has three ends. -/
theorem engineStepConsumesOneEntry : Obligations.EngineStepConsumesOneEntry := by
  intro s w e rest ha hf
  refine ⟨_, exec_takes_entry s w e rest ha hf, ?_⟩
  have hend := processes_engineEnd s.params w (s.afterEntry rest e) e
  refine ⟨hend.inPos.trans (by cases e <;> rfl), ?_⟩
  generalize w.processes s.params (s.afterEntry rest e) e = t at hend
  cases hend with
  | goesOn w' hc => exact .inl ⟨w', rfl, hc, rfl⟩
  | succeeds w' q _ => exact .inr (.inl ⟨rfl, rfl, rfl, rfl⟩)
  | fails err c => exact .inr (.inr ⟨rfl, rfl, rfl, err, rfl⟩)

/-! What an engine step leaves alone -/

/-- A command's instruction leaves the state as it is, or takes an entry of its active command. -/
theorem exec_command_ends (s t : State) (c : Command) (h : exec c.instr s = .next t) :
    t = s ∨ ∃ w e rest, s.opst = .active w ∧ w.command = c ∧
      EngineEnd s.params w (s.afterEntry rest e) t := by
  obtain rfl | ⟨w, ha, rfl, -⟩ := exec_command_cases s t c h
  · exact .inl rfl
  · cases hf : s.fifo with
    | nil => exact .inl (next_inj ((exec_command_waiting s w ha hf).symm.trans h))
    | cons e rest =>
      obtain rfl := next_inj ((exec_takes_entry s w e rest ha hf).symm.trans h)
      exact .inr ⟨w, e, rest, ha, rfl, processes_engineEnd s.params w _ e⟩

/-- Only FRM_ENC's success latches a REQ_CODE (41_frame.md R174). -/
theorem Work.answers_req {p : Params} {w w' : Work} {q : Byte} (h : w.answers p (.done w' (some q))) :
    w.command = .frmEnc := by
  obtain h | ⟨b, h⟩ := h
  · exact workEnd_req p w w' q h.symm
  · exact absurd h.symm (workByte_req p w w' b q)

/-- A success that changes REQ_CODE is FRM_ENC's. -/
theorem Work.answers_reqCode {p : Params} {w w' : Work} {q : Option Byte} {req : Byte}
    (h : w.answers p (.done w' q)) (hne : q.getD req ≠ req) : w.command = .frmEnc := by
  cases q with
  | none => exact absurd rfl hne
  | some q => exact Work.answers_req h

/-- The bytes a success copies lie below OUT[OUT_LEN]. -/
theorem succeed_read_outside (s : State) (w : Work) (a : Nat) (hlen : w.out.length < 2 ^ 32)
    (ha : ¬ (outBase ≤ a ∧ a < outBase + (s.succeed w).outLen.toNat)) :
    Memory.read (s.succeed w).out a = Memory.read s.out a := by
  rw [State.succeed_outLen, BitVec.toNat_ofNat, Nat.mod_eq_of_lt hlen] at ha
  exact Memory.read_writeBytes_outside s.out outBase a w.out (by omega)

/-- Under the invariant the output of a success is far shorter than OUT_LEN can count. -/
theorem Inv.answers_length {s : State} {w w' : Work} {q : Option Byte} (hinv : Inv s)
    (ha : s.opst = .active w) (h : w.answers s.params (.done w' q)) : w'.out.length < 2 ^ 32 := by
  obtain ⟨hfits, -⟩ := Work.answers_ok h (hinv.workOk w ha)
  obtain ⟨-, hcap⟩ := Params.outCap_le _ hinv.paramsLegal
  omega

/-- Settles O28: nothing changes, or the entry is taken and each of its three ends has its frame. -/
theorem engineFrame : Obligations.EngineFrame := by
  intro c s t hinv h
  obtain rfl | ⟨w, e, rest, ha, rfl, hend⟩ := exec_command_ends s t c h
  · exact ⟨rfl, rfl, rfl, rfl, rfl, rfl, rfl, fun hne => absurd rfl hne,
      fun _ => ⟨rfl, rfl, rfl, rfl, rfl, rfl, rfl, rfl⟩, fun _ _ => rfl⟩
  · cases hend with
    | goesOn w' _ =>
      exact ⟨rfl, rfl, rfl, rfl, rfl, rfl, rfl, fun hne => absurd rfl hne,
        fun _ => ⟨rfl, rfl, rfl, rfl, rfl, rfl, rfl, rfl⟩, fun _ _ => rfl⟩
    | succeeds w' q hans =>
      refine ⟨rfl, rfl, rfl, rfl, rfl, rfl, rfl, fun hne => ⟨Work.answers_reqCode hans hne, rfl⟩,
        nofun, fun a hout => ?_⟩
      exact succeed_read_outside _ w' a (hinv.answers_length ha hans)
        fun hin => hout ⟨⟨w, ha⟩, rfl, hin⟩
    | fails err code =>
      exact ⟨rfl, rfl, rfl, rfl, rfl, rfl, rfl, fun hne => absurd rfl hne, nofun, fun _ _ => rfl⟩

/-! A push and an engine step in either order -/

theorem settle_active {u : State} {v : Verdict} {w : Work} (h : (u.settle v).opst = .active w) :
    v = .go w := by
  cases v with
  | go w' => rw [OpSt.active.inj h]
  | done w' q => cases q <;> cases h
  | bad e => cases h

/-- Where the command goes on, its rule does not look at the queued entries. -/
theorem processes_active {p : Params} {w w' : Work} {u : State} {e : Entry}
    (h : (w.processes p u e).opst = .active w') (l : List Entry) :
    w.processes p { u with fifo := l } e = { u with fifo := l, opst := .active w' } := by
  cases e with
  | data b => rw [Work.processes, settle_active h, State.settle_go]
  | endMark => rw [Work.processes, settle_active h, State.settle_go]
  | abort c => cases h

/-- Settles O60: the step removes the head and the push appends at the tail, so neither sees the
other's entry. -/
theorem pushCommutesWithEngineStep : Obligations.PushCommutesWithEngineStep := by
  intro s t w i e ha hne hroom hpush hstep ⟨w', hw'⟩
  obtain ⟨head, rest, hf⟩ := List.exists_cons_of_ne_nil hne
  rw [exec_takes_entry s w head rest ha hf] at hstep
  obtain rfl := next_inj hstep
  have hstepped : w.processes s.params (s.afterEntry rest head) head =
      { s.afterEntry rest head with opst := .active w' } := processes_active hw' rest
  have hlt : rest.length < s.params.inDepth := by
    rw [hf, List.length_cons] at hroom
    omega
  have pushThenStep : andThen (exec i s) (exec w.command.instr) =
      .next { s.afterEntry (rest ++ [e]) head with opst := .active w' } := by
    rw [exec_pushed i e s hpush, State.push_active s w e ha (Nat.ne_of_lt hroom), hf]
    refine (exec_takes_entry { s with fifo := head :: rest ++ [e] } w head (rest ++ [e]) ha rfl).trans ?_
    exact congrArg _ (processes_active hw' (rest ++ [e]))
  rw [pushThenStep, hstepped, exec_pushed i e _ hpush,
    State.push_active _ w' e rfl (Nat.ne_of_lt hlt)]
  rfl

end Sys2Proof.Machine
end

section
/-! PROOFS. The frame unit (41_frame.md R172 to R191), one entry at a time: what FRM_ENC, FRM_DEC and ACK_CHK
answer to a byte and to `End`, and the failure of `End` in the record and TLV units. -/

namespace Sys2Proof.Machine

/-! One entry of the active command (40_host_actions.md R150) -/

section oneEntry

variable {s : State} {w : Work} {c : Command} {rest : List Entry}

/-- A byte the command checks: one that fails the check fails the command. -/
theorem exec_byte_check {b : Byte} {good : Prop} [Decidable good] {v : Verdict} {e : ErrCode}
    (ha : s.opst = .active w) (hc : w.command = c) (hf : s.fifo = .data b :: rest)
    (hv : workByte s.params w b = if good then v else .bad e) :
    (¬ good → exec c.instr s = .next ((s.afterByte rest).fail e 0)) ∧
    (good → exec c.instr s = .next ((s.afterByte rest).settle v)) := by
  rw [exec_takes_byte s w c b rest ha hc hf, hv]
  exact ⟨fun hbad => by rw [if_neg hbad, State.settle_bad], fun hgood => by rw [if_pos hgood]⟩

/-- `End` where the command answers it with an error. -/
theorem exec_end_fails {e : ErrCode} (ha : s.opst = .active w) (hc : w.command = c)
    (hf : s.fifo = .endMark :: rest) (hv : workEnd s.params w = .bad e) :
    exec c.instr s = .next (s.fail e 0) := by
  rw [exec_takes_end s w c rest ha hc hf, hv]
  rfl

end oneEntry

theorem settle_doneOk {u : State} {v : Verdict} (h : (u.settle v).opst = .doneOk) :
    ∃ w q, v = .done w q := by
  cases v with
  | go w => cases h
  | done w q => exact ⟨w, q, rfl⟩
  | bad e => cases h

/-- A success that an instruction leaves behind comes of an entry of its active command. -/
theorem exec_command_doneOk {s t : State} {w : Work} {c : Command} (ha : s.opst = .active w)
    (hc : w.command = c) (h : exec c.instr s = .next t) (hok : t.opst = .doneOk) :
    (∃ b rest w' q, s.fifo = .data b :: rest ∧ workByte s.params w b = .done w' q) ∨
    (∃ rest w' q, s.fifo = .endMark :: rest ∧ workEnd s.params w = .done w' q) := by
  subst hc
  cases hf : s.fifo with
  | nil =>
    obtain rfl := next_inj ((exec_command_waiting s w ha hf).symm.trans h)
    rw [ha] at hok
    cases hok
  | cons entry rest =>
    obtain rfl := next_inj ((exec_takes_entry s w entry rest ha hf).symm.trans h)
    cases entry with
    | data b =>
      obtain ⟨w', q, hv⟩ := settle_doneOk hok
      exact .inl ⟨b, rest, w', q, rfl, hv⟩
    | endMark =>
      obtain ⟨w', q, hv⟩ := settle_doneOk hok
      exact .inr ⟨rest, w', q, rfl, hv⟩
    | abort a => cases hok

/-! `End` before completion (41_frame.md R185, R191; 42_ndef.md R231, R238; 44_tlv.md R280) -/

/-- Settles O26: each command's OpEnd is one failure, TLV_PARSE's by its phase. -/
theorem endBeforeCompletionFails : Obligations.EndBeforeCompletionFails := by
  intro s w rest ha hf
  have fails : ∀ {c : Command} {e : ErrCode}, w.command = c → workEnd s.params w = .bad e →
      exec c.instr s = .next (s.fail e 0) := fun hc hv => exec_end_fails ha hc hf hv
  refine ⟨fun x hcmd => ?frmDec, fun i hcmd => ?ackChk, fun r hcmd => ?ndefDec, fun e hcmd => ?ndefEnc,
    fun t r hcmd hph => ?unterminated, fun t r hcmd hph => ?truncated⟩
  case frmDec => exact fails (c := .frmDec) (by rw [Work.command, hcmd]) (by rw [workEnd, hcmd])
  case ackChk => exact fails (c := .ackChk) (by rw [Work.command, hcmd]) (by rw [workEnd, hcmd])
  case ndefDec => exact fails (c := .ndefDec) (by rw [Work.command, hcmd]) (by rw [workEnd, hcmd])
  case ndefEnc => exact fails (c := .ndefEnc) (by rw [Work.command, hcmd]) (by rw [workEnd, hcmd])
  case unterminated =>
    exact fails (c := .tlvParse) (by rw [Work.command, hcmd])
      (by simp only [workEnd, hcmd, tlvEnd, if_pos hph])
  case truncated =>
    exact fails (c := .tlvParse) (by rw [Work.command, hcmd])
      (by simp only [workEnd, hcmd, tlvEnd, if_neg hph])

/-! FRM_ENC (41_frame.md R172 to R175) -/

theorem Work.cmd_of_frmEnc {w : Work} (hc : w.command = .frmEnc) : ∃ x, w.cmd = .frmEnc x := by
  cases hcmd : w.cmd with
  | frmEnc x => exact ⟨x, rfl⟩
  | _ => simp only [Work.command, hcmd, reduceCtorEq] at hc

/-- FRM_ENC takes a byte while fewer than 254 are collected (41_frame.md R172). -/
theorem workByte_frmEnc {p : Params} {w : Work} {x : FrmEncW} {b : Byte} (hcmd : w.cmd = .frmEnc x) :
    workByte p w b = if x.n ≠ 254 then
      .go { w with cmd := .frmEnc { n := x.n + 1, sum := sumStep x.sum b, buf := x.buf ++ [b] } }
    else .bad .encTooLong := by
  simp only [workByte, hcmd, frmEncByte, ite_not]

/-- Settles O31: the byte is collected, or it is the 255th. -/
theorem frmEncByteRule : Obligations.FrmEncByteRule := by
  intro s w x b rest ha hcmd hf
  have hc : w.command = .frmEnc := by rw [Work.command, hcmd]
  obtain ⟨hfull, hroom⟩ := exec_byte_check ha hc hf (workByte_frmEnc hcmd)
  exact ⟨fun h => hfull (not_not.2 h), hroom⟩

/-- Under the invariant FRM_ENC's fields are those of its buffer, and it has no output yet. -/
theorem Inv.frmEnc {s : State} {w : Work} {x : FrmEncW} (hinv : Inv s) (ha : s.opst = .active w)
    (hcmd : w.cmd = .frmEnc x) :
    x.n = x.buf.length ∧ x.n ≤ 254 ∧ x.sum.toNat = sumBytes x.buf % 256 ∧ w.out = [] := by
  obtain ⟨-, -, hfields, -⟩ := hinv.workOk w ha
  rw [hcmd] at hfields
  exact hfields

theorem workEnd_frmEnc_empty {p : Params} {w : Work} {x : FrmEncW} (hcmd : w.cmd = .frmEnc x)
    (hn : x.n = 0) : workEnd p w = .bad .encEmpty := by
  simp only [workEnd, hcmd, frmEncEnd, if_pos hn]

/-- Under the invariant `End` after at least one byte succeeds with the frame of the buffer. -/
theorem Inv.exec_frmEnc_end {s : State} {w : Work} {x : FrmEncW} {rest : List Entry} {b : Byte}
    {bs : List Byte} (hinv : Inv s) (ha : s.opst = .active w) (hcmd : w.cmd = .frmEnc x)
    (hf : s.fifo = .endMark :: rest) (hbuf : x.buf = b :: bs) :
    exec .frmEnc s = .next (({ s with fifo := rest, reqCode := b } : State).succeed
      { w with out := specHostFrame x.buf }) := by
  obtain ⟨hn, hle, hsum, hout⟩ := hinv.frmEnc ha hcmd
  obtain ⟨n, sum, buf⟩ := x
  obtain rfl : buf = b :: bs := hbuf
  obtain rfl : n = (b :: bs).length := hn
  have hv := workEnd_frmEnc s.params w b sum bs hcmd hout (by simpa using hle) hsum
    (Params.outCap_le _ hinv.paramsLegal).1
  have hc : w.command = .frmEnc := by rw [Work.command, hcmd]
  exact (exec_takes_end s w .frmEnc rest ha hc hf).trans (by rw [hv, State.settle_done_req])

theorem succeed_specHostFrame_output (u : State) (w : Work) {payload : List Byte}
    (hl : payload.length ≤ 254) :
    (u.succeed { w with out := specHostFrame payload }).output = (specHostFrame payload).map some :=
  State.succeed_output u _ (by simp only [specHostFrame_length]; omega)

/-- Settles O32: no byte collected, or the frame of the buffer. -/
theorem frmEncEndRule : Obligations.FrmEncEndRule := by
  intro s w x rest hinv ha hcmd hf
  have hc : w.command = .frmEnc := by rw [Work.command, hcmd]
  obtain ⟨hn, hle, -, -⟩ := hinv.frmEnc ha hcmd
  refine ⟨fun h0 => exec_end_fails ha hc hf (workEnd_frmEnc_empty hcmd h0), fun b bs hbuf => ?_⟩
  exact ⟨_, hinv.exec_frmEnc_end ha hcmd hf hbuf, rfl, rfl, by simp,
    succeed_specHostFrame_output _ _ (hn ▸ hle), rfl, rfl⟩

/-- FRM_ENC succeeds only at `End` after at least one byte. -/
theorem frmEnc_doneOk {s t : State} {w : Work} {x : FrmEncW} (ha : s.opst = .active w)
    (hcmd : w.cmd = .frmEnc x) (h : exec .frmEnc s = .next t) (hok : t.opst = .doneOk) :
    x.n ≠ 0 ∧ ∃ rest, s.fifo = .endMark :: rest := by
  have hc : w.command = .frmEnc := by rw [Work.command, hcmd]
  obtain ⟨b, rest, w', q, -, hv⟩ | ⟨rest, w', q, hf, hv⟩ := exec_command_doneOk ha hc h hok
  · rw [workByte_frmEnc hcmd] at hv
    split at hv <;> cases hv
  · refine ⟨fun h0 => ?_, rest, hf⟩
    rw [workEnd_frmEnc_empty hcmd h0] at hv
    cases hv

theorem frame_len_checksum {n : Nat} (hn : n ≤ 256) :
    ((BitVec.ofNat 8 n).toNat + (BitVec.ofNat 8 ((256 - n) % 256)).toNat) % 256 = 0 := by
  simp only [BitVec.toNat_ofNat]
  omega

theorem frame_data_checksum (n : Nat) :
    (n + (BitVec.ofNat 8 ((256 - n % 256) % 256)).toNat) % 256 = 0 := by
  simp only [BitVec.toNat_ofNat]
  omega

/-- Settles O33: the output is the frame of the buffer, whose LCS and DCS complete the two sums. -/
theorem frameChecksumInvariant : Obligations.FrameChecksumInvariant := by
  intro s t w hinv ha hc h hok
  obtain ⟨x, hcmd⟩ := Work.cmd_of_frmEnc hc
  obtain ⟨hn0, rest, hf⟩ := frmEnc_doneOk ha hcmd h hok
  obtain ⟨hn, hle, -, -⟩ := hinv.frmEnc ha hcmd
  obtain ⟨b, bs, hbuf⟩ := List.exists_cons_of_length_pos (l := x.buf) (by omega)
  obtain rfl := next_inj ((hinv.exec_frmEnc_end ha hcmd hf hbuf).symm.trans h)
  exact ⟨_, _, _, x.buf, succeed_specHostFrame_output _ _ (hn ▸ hle),
    frame_len_checksum (by omega), frame_data_checksum _⟩

/-! FRM_DEC's header (41_frame.md R180, R181) -/

section frmDec

variable {p : Params} {w : Work} {x : FrmDecW} {b : Byte}

theorem workByte_frmDec (hcmd : w.cmd = .frmDec x) : workByte p w b = frmDecByte p.outCap w x b := by
  rw [workByte, hcmd]

theorem not_sumsToZero_iff {a c : Byte} :
    (!sumsToZero a c) = true ↔ ¬ (a.toNat + c.toNat) % 256 = 0 := by
  simp only [sumsToZero, Bool.not_eq_true', beq_eq_false_iff_ne, ne_eq]

theorem frmDecHdr_preamble (hi : x.i = 0) :
    frmDecHdr w x b = if b = 0x00 then .go { w with cmd := .frmDec { x with i := 1 } }
      else .bad .frmBadPreamble := by
  simp only [frmDecHdr, hi, frmDecNext, ite_not]

theorem frmDecHdr_start_first (hi : x.i = 1) :
    frmDecHdr w x b = if b = 0x00 then .go { w with cmd := .frmDec { x with i := 2 } }
      else .bad .frmBadStart := by
  simp only [frmDecHdr, hi, frmDecNext, ite_not]

theorem frmDecHdr_start_second (hi : x.i = 2) :
    frmDecHdr w x b = if b = 0xFF then .go { w with cmd := .frmDec { x with i := 3 } }
      else .bad .frmBadStart := by
  simp only [frmDecHdr, hi, frmDecNext, ite_not]

theorem frmDecHdr_len (hi : x.i = 3) :
    frmDecHdr w x b = .go { w with cmd := .frmDec { x with len := b, i := 4 } } := by
  simp only [frmDecHdr, hi, frmDecNext]

/-- LCS is checked before LEN. -/
theorem frmDecHdr_lcs (hi : x.i = 4) :
    frmDecHdr w x b = if (x.len.toNat + b.toNat) % 256 = 0 then
        if 2 ≤ x.len.toNat then .go { w with cmd := .frmDec { x with i := 5 } } else .bad .frmBadLen
      else .bad .frmBadLcs := by
  simp only [frmDecHdr, hi, frmDecNext, not_sumsToZero_iff, ite_not, ← Nat.not_le]

theorem frmDecHdr_tfi (hi : x.i = 5) :
    frmDecHdr w x b = if b = 0xD5 then .go { w with cmd := .frmDec { x with sum := 0xD5, i := 6 } }
      else .bad .frmBadTfi := by
  simp only [frmDecHdr, hi, frmDecNext, ite_not]

theorem frmDecHdr_echo (hi : x.i = 6) :
    frmDecHdr w x b = if b = x.exp then
        .go { w with
          echo := b
          cmd := .frmDec { x with
            sum := sumStep x.sum b
            rem := x.len.toNat - 2
            ph := phaseAfterHeader (x.len.toNat - 2) } }
      else .bad .frmBadEcho := by
  simp only [frmDecHdr, hi, ite_not]

/-! FRM_DEC's data and trailer (41_frame.md R182 to R184) -/

theorem frmDecByte_pay (cap : Nat) (hph : x.ph = .pay) :
    frmDecByte cap w x b = if w.out.length < cap then
        .go { w with
          out := w.out ++ [b]
          cmd := .frmDec { x with
            sum := sumStep x.sum b
            rem := x.rem - 1
            ph := if x.rem - 1 = 0 then .dcs else .pay } }
      else .bad .outOverflow := by
  simp only [frmDecByte, frmDecPay, Work.emit, hph, List.length_singleton, gt_iff_lt, Nat.lt_succ_iff,
    ← Nat.not_lt, ite_not]

theorem frmDecByte_dcs (cap : Nat) (hph : x.ph = .dcs) :
    frmDecByte cap w x b = if (x.sum.toNat + b.toNat) % 256 = 0 then
        .go { w with cmd := .frmDec { x with ph := .post } }
      else .bad .frmBadDcs := by
  simp only [frmDecByte, hph, not_sumsToZero_iff, ite_not]

theorem frmDecByte_post (cap : Nat) (hph : x.ph = .post) :
    frmDecByte cap w x b = if b = 0x00 then .done w none else .bad .frmBadPostamble := by
  simp only [frmDecByte, hph, ite_not]

end frmDec

/-- Settles O35: one check per header index. -/
theorem frmDecHeaderRule : Obligations.FrmDecHeaderRule := by
  intro s w x b rest ha hcmd hph hf
  have hc : w.command = .frmDec := by rw [Work.command, hcmd]
  have hbyte : workByte s.params w b = frmDecHdr w x b := by
    rw [workByte_frmDec hcmd, frmDecByte, hph]
  refine ⟨fun hi => ?preamble, fun hi => ?start1, fun hi => ?start2, fun hi => ?len, fun hi => ?lcs,
    fun hi => ?tfi, fun hi => ?echo⟩
  case preamble => exact exec_byte_check ha hc hf (hbyte.trans (frmDecHdr_preamble hi))
  case start1 => exact exec_byte_check ha hc hf (hbyte.trans (frmDecHdr_start_first hi))
  case start2 => exact exec_byte_check ha hc hf (hbyte.trans (frmDecHdr_start_second hi))
  case len =>
    exact (exec_takes_byte s w .frmDec b rest ha hc hf).trans
      (by rw [hbyte, frmDecHdr_len hi, State.settle_go])
  case lcs =>
    obtain ⟨hbad, hgood⟩ := exec_byte_check ha hc hf (hbyte.trans (frmDecHdr_lcs hi))
    refine ⟨hbad, fun hlcs hlen => ?_, fun hlcs hlen => ?_⟩
    · rw [if_neg (Nat.not_le.2 hlen), State.settle_bad] at hgood
      exact hgood hlcs
    · rw [if_pos hlen, State.settle_go] at hgood
      exact hgood hlcs
  case tfi => exact exec_byte_check ha hc hf (hbyte.trans (frmDecHdr_tfi hi))
  case echo => exact exec_byte_check ha hc hf (hbyte.trans (frmDecHdr_echo hi))

/-- Settles O36: the three phases after the header, each with one check. -/
theorem frmDecTrailerRule : Obligations.FrmDecTrailerRule := by
  intro s w x b rest ha hcmd hf
  have hc : w.command = .frmDec := by rw [Work.command, hcmd]
  have hbyte := workByte_frmDec (p := s.params) (b := b) hcmd
  have pay := fun hph => exec_byte_check ha hc hf (hbyte.trans (frmDecByte_pay _ hph))
  have dcs := fun hph => exec_byte_check ha hc hf (hbyte.trans (frmDecByte_dcs _ hph))
  have post := fun hph => exec_byte_check ha hc hf (hbyte.trans (frmDecByte_post _ hph))
  exact ⟨fun hph => (pay hph).2, fun hph hfull => (pay hph).1 (Nat.not_lt.2 hfull),
    fun hph => (dcs hph).1, fun hph => (dcs hph).2, fun hph => (post hph).1, fun hph => (post hph).2⟩

/-! ACK_CHK (41_frame.md R190) -/

theorem workByte_ackChk {p : Params} {w : Work} {i : Nat} {b : Byte} (hcmd : w.cmd = .ackChk i) :
    workByte p w b = if ackPattern[i]? = some b then
        if i = 5 then .done { w with cmd := .ackChk (i + 1) } none else .go { w with cmd := .ackChk (i + 1) }
      else .bad .ackMismatch := by
  simp only [workByte, hcmd, ackByte, ite_not, Nat.reduceEqDiff]

/-- Settles O39: the byte's place in the literal, and whether it is the last. -/
theorem ackByteRule : Obligations.AckByteRule := by
  intro s w i b rest ha hcmd _ hf
  have hc : w.command = .ackChk := by rw [Work.command, hcmd]
  obtain ⟨hdiffers, hequal⟩ := exec_byte_check ha hc hf (workByte_ackChk hcmd)
  refine ⟨hdiffers, fun hb hlt => ?_, fun hb hlast => ?_⟩
  · rw [if_neg (Nat.ne_of_lt hlt), State.settle_go] at hequal
    exact hequal hb
  · rw [if_pos hlast, State.settle_done] at hequal
    exact hequal hb

end Sys2Proof.Machine
end

section
/-! PROOFS. NDEF_ENC over a whole message (42_ndef.md R236, R237, R240), and the two round trips of R241. -/

namespace Sys2Proof.Machine

/-! A message and its canonized form (30_encoding.md R113, R114) -/

theorem NdefRecord.fits.describes {r : NdefRecord} (hf : r.fits) : r.describes := by
  obtain ⟨htype, hident, hpay, -, -⟩ := hf
  exact ⟨htype, hident, hpay⟩

/-- A record whose SR and IL are already the encoder's has a wire form. -/
theorem NdefRecord.canonical.fits {r : NdefRecord} (hc : r.canonical) (hd : r.describes) : r.fits := by
  have hfits := canonize_fits r hd
  rwa [canonize_canonical r hc] at hfits

theorem map_canonize_canonical {rs : List NdefRecord} (hc : ∀ r ∈ rs, r.canonical) :
    rs.map NdefRecord.canonize = rs :=
  (List.map_congr_left fun r hr => canonize_canonical r (hc r hr)).trans (List.map_id rs)

/-- Setting SR and IL leaves ME alone, so a message stays one. -/
theorem isMessage_map_canonize : ∀ {rs : List NdefRecord}, isMessage rs →
    isMessage (rs.map NdefRecord.canonize)
  | [], hm => hm
  | [r], hm => (canonize_flagME r).trans hm
  | r :: r' :: rs, ⟨hme, hm⟩ => ⟨(canonize_flagME r).trans hme, isMessage_map_canonize (rs := r' :: rs) hm⟩

theorem forall_fits_map_canonize {rs : List NdefRecord} (hd : ∀ r ∈ rs, r.describes) :
    ∀ r ∈ rs.map NdefRecord.canonize, r.fits :=
  List.forall_mem_map.2 fun r hr => canonize_fits r (hd r hr)

theorem length_rdBytes_map_canonize (rs : List NdefRecord) :
    (rdBytes (rs.map NdefRecord.canonize)).length = (rdBytes rs).length := by
  induction rs with
  | nil => rfl
  | cons r rs ih =>
    have hrd : r.canonize.rd.length = r.rd.length := by simp [NdefRecord.rd, NdefRecord.canonize]
    rw [List.map_cons, length_rdBytes_cons, length_rdBytes_cons, hrd, ih]

/-! NDEF_ENC (42_ndef.md R236, R237, R240) -/

/-- NDEF_ENC takes a message's RDs and leaves its wire form, counted. -/
theorem stream_ndefEnc_message (p : Params) (req : Byte) (rs : List NdefRecord) (hm : isMessage rs)
    (hd : ∀ r ∈ rs, r.describes) (hcap : (canonWire rs).length ≤ p.outCap) :
    ∃ e, stream p (rdBytes rs) (initWork req .ndefEnc) =
      some (.done (Work.mk (canonWire rs) 1 (BitVec.ofNat 32 rs.length) 0 0 (.ndefEnc e)) none) := by
  obtain ⟨e, hst⟩ := stream_encMessage p (initWork req .ndefEnc) rs hm hd (by simpa [initWork] using hcap)
  exact ⟨e, by simpa [initWork, initCmd] using hst⟩

/-- Settles O45: the RDs are one run of bytes that ends in success. -/
theorem ndefEncMessage : Obligations.NdefEncMessage := by
  intro s rs hl hs hm hd hcap
  obtain ⟨e, hst⟩ := stream_ndefEnc_message s.params s.reqCode rs hm hd hcap
  have hwin := (Params.outCap_le _ hl).2
  have hlen : (canonWire rs).length < 2 ^ 32 := Nat.lt_of_le_of_lt hcap (by omega)
  exact ⟨_, feed_started_done hl hs hst, rfl, State.succeed_output _ _ hlen, rfl, rfl, rfl, rfl, rfl⟩

/-- Settles O46: each run is a whole message through one command, and the records of a run's output are
those of its input, canonized where the encoder wrote them. -/
theorem ndefRoundTrip : Obligations.NdefRoundTrip := by
  refine ⟨?encodeDecode, ?decodeEncodeDecode⟩
  case encodeDecode =>
    intro s₁ s₂ rs hl₁ hl₂ hs₁ hs₂ hm hr hwire hrd
    have hcanon := map_canonize_canonical fun r h => (hr r h).2
    obtain ⟨t₁, hfeed₁, hok₁, hout₁, -, hrecs₁, -⟩ :=
      ndefEncMessage s₁ rs hl₁ hs₁ hm (fun r h => (hr r h).1) (by rwa [hcanon])
    obtain ⟨t₂, hfeed₂, hok₂, hout₂, -, hmsgs₂, hrecs₂, -⟩ :=
      ndefDecMessage s₂ rs hl₂ hs₂ hm (fun r h => (hr r h).2.fits (hr r h).1) hrd
    rw [hcanon] at hout₁
    exact ⟨t₁, t₂, wireBytes rs, hfeed₁, hok₁, hout₁, hfeed₂, hok₂, hout₂, hrecs₂.trans hrecs₁.symm, hmsgs₂⟩
  case decodeEncodeDecode =>
    intro s₁ s₂ s₃ rs hl₁ hl₂ hl₃ hs₁ hs₂ hs₃ hm hf hrd₁ hwire hrd₃
    have hd := fun r h => (hf r h).describes
    obtain ⟨t₁, hfeed₁, hok₁, hout₁, -, -, hrecs₁, -⟩ := ndefDecMessage s₁ rs hl₁ hs₁ hm hf hrd₁
    obtain ⟨t₂, hfeed₂, hok₂, hout₂, -⟩ := ndefEncMessage s₂ rs hl₂ hs₂ hm hd hwire
    obtain ⟨t₃, hfeed₃, hok₃, hout₃, -, -, hrecs₃, -⟩ :=
      ndefDecMessage s₃ _ hl₃ hs₃ (isMessage_map_canonize hm) (forall_fits_map_canonize hd)
        (by rwa [length_rdBytes_map_canonize])
    rw [List.length_map] at hrecs₃
    exact ⟨t₁, t₂, t₃, rdBytes rs, wireBytes (rs.map NdefRecord.canonize), hfeed₁, hok₁, hout₁, hfeed₂, hok₂,
      hout₂, hfeed₃, hok₃, hout₃, hrecs₃.trans hrecs₁.symm⟩

end Sys2Proof.Machine
end

section
/-! PROOFS. The record unit, one byte at a time (42_ndef.md R212 to R216, R230, R236, R240): what NDEF_DEC and
NDEF_ENC answer to a byte in each phase. -/

namespace Sys2Proof.Machine

/-- A field's length decides whether a run goes on at that field or as the fields after it say. -/
theorem of_eq_ite_length {α : Type} {width : Nat} {len : BitVec width} {answer here after : α} {P Q : Prop}
    (h : answer = if len ≠ 0 then here else after) (hhere : answer = here → P) (hafter : answer = after → Q) :
    (len ≠ 0 → P) ∧ (len = 0 → Q) :=
  ⟨fun hlen => hhere (h.trans (if_pos hlen)), fun hlen => hafter (h.trans (if_neg (not_not.2 hlen)))⟩

/-! The record sub-machine's next field (42_ndef.md R214, R215) -/

section recordFields

variable (w : Work) (r : RecW)

theorem nextField_hdr : nextField w r .hdr =
    if r.tlen ≠ 0 then .more w { r with ph := .type, cnt := r.tlen.setWidth 32 }
    else nextField w r .type := by
  by_cases ht : r.tlen = 0 <;> simp [nextField, ht]

theorem nextField_type : nextField w r .type =
    if r.idlen ≠ 0 then .more w { r with ph := .id, cnt := r.idlen.setWidth 32 }
    else nextField w r .id := by
  by_cases hi : r.idlen = 0 <;> simp [nextField, hi]

theorem nextField_id : nextField w r .id =
    if r.plen ≠ 0 then .more w { r with ph := .pay, cnt := r.plen } else recordDone w r := by
  simp [nextField]

theorem nextField_pay : nextField w r .pay = recordDone w r := by
  simp [nextField]

end recordFields

/-! The record sub-machine's byte (42_ndef.md R212, R213, R216) -/

section recordByte

variable {cap : Nat} {w : Work} {r : RecW} {b : Byte}

theorem recEmit_over {bs : List Byte} (k : Work → RecOut) (h : cap < w.out.length + bs.length) :
    recEmit cap w bs k = .over :=
  if_pos h

theorem recByte_plen (hph : r.ph = .plen) : recByte cap w r b = recPlen cap w r b := by
  rw [recByte, hph]

theorem recPlen_more (hk : r.k + 1 ≠ plenBytes r.flags) :
    recPlen cap w r b = .more w { r with plen := be32Step r.plen b, k := r.k + 1 } :=
  if_neg hk

theorem recPlen_thenId (hk : r.k + 1 = plenBytes r.flags) (hil : flagIL r.flags = true) :
    recPlen cap w r b = .more w { r with plen := be32Step r.plen b, k := r.k + 1, ph := .idlen } :=
  (if_pos hk).trans (if_pos hil)

theorem recPlen_last (hk : r.k + 1 = plenBytes r.flags) (hil : flagIL r.flags = false) :
    recPlen cap w r b = headerDone cap w { r with plen := be32Step r.plen b, k := r.k + 1, idlen := 0 } :=
  (if_pos hk).trans (if_neg (ne_true_of_eq_false hil))

theorem headerDone_over (h : cap < w.out.length + 7) : headerDone cap w r = .over :=
  recEmit_over _ h

theorem headerDone_fits (h : w.out.length + 7 ≤ cap) : headerDone cap w r =
    nextField { w with out := w.out ++ rdHeader r.flags r.tlen r.idlen r.plen } r .hdr :=
  recEmit_fits _ _ _ _ h

theorem fieldByte_over (h : cap ≤ w.out.length) : fieldByte cap w r b = .over :=
  recEmit_over _ (Nat.lt_succ_of_le h)

theorem fieldByte_more (h : w.out.length < cap) (hcnt : r.cnt ≠ 1) :
    fieldByte cap w r b = .more { w with out := w.out ++ [b] } { r with cnt := r.cnt - 1 } := by
  rw [fieldByte, recEmit_fits _ _ _ _ h, if_neg (sub_eq_zero.not.2 hcnt)]

/-- The last byte of a field is copied, and the record goes on after that field. -/
theorem recByte_lastByte {ph : RecPhase} (hph : r.ph = ph) (hfield : ph = .type ∨ ph = .id ∨ ph = .pay)
    (h : w.out.length < cap) (hcnt : r.cnt = 1) :
    recByte cap w r b = nextField { w with out := w.out ++ [b] } { r with cnt := 0 } ph := by
  subst hph
  rw [recByte_field _ _ _ _ hfield, fieldByte, recEmit_fits _ _ _ _ h,
    if_pos (sub_eq_zero.2 hcnt), sub_eq_zero.2 hcnt]

end recordByte

/-- NDEF_DEC's byte is the sub-machine's, carried out (42_ndef.md R230). -/
theorem workByte_ndefDec {p : Params} {w : Work} {r : RecW} {b : Byte} (hcmd : w.cmd = .ndefDec r) :
    workByte p w b = (recByte p.outCap w r b).verdict := by
  simp only [workByte, hcmd, ndefDecByte]
  cases recByte p.outCap w r b <;> rfl

/-- Settles O41: the phases' bytes, and after a finished field the first one left that is not empty. -/
theorem ndefDecByteRule : Obligations.NdefDecByteRule := by
  intro s w r b rest ha hcmd hf go overflow done fromPay fromId fromType rdHead header
  have hc : w.command = .ndefDec := by rw [Work.command, hcmd]
  have hexec : exec .ndefDec s =
      .next ((s.afterByte rest).settle (recByte s.params.outCap w r b).verdict) := by
    rw [← workByte_ndefDec hcmd]
    exact exec_takes_byte s w .ndefDec b rest ha hc hf
  have goOf {w' r'} (hbyte : recByte s.params.outCap w r b = .more w' r') : go w' r' := by
    rwa [hbyte] at hexec
  have overflowOf (hbyte : recByte s.params.outCap w r b = .over) : overflow := by
    rwa [hbyte] at hexec
  have doneOf {out r'} (hflags : r'.flags = r.flags)
      (hbyte : recByte s.params.outCap w r b = recordDone { w with out := out } r') :
      done { w with out := out } := by
    rw [hbyte, recordDone, hflags, flagME] at hexec
    exact ⟨fun hme => by rwa [hme] at hexec, fun hme => by rwa [hme] at hexec⟩
  have fromPayOf {out r'} (hflags : r'.flags = r.flags)
      (hbyte : recByte s.params.outCap w r b = nextField { w with out := out } r' .id) :
      fromPay { w with out := out } r' :=
    of_eq_ite_length (hbyte.trans (nextField_id _ _)) goOf (doneOf hflags)
  have fromIdOf {out r'} (hflags : r'.flags = r.flags)
      (hbyte : recByte s.params.outCap w r b = nextField { w with out := out } r' .type) :
      fromId { w with out := out } r' :=
    of_eq_ite_length (hbyte.trans (nextField_type _ _)) goOf (fromPayOf hflags)
  have headerOf {r'} (hflags : r'.flags = r.flags)
      (hbyte : recByte s.params.outCap w r b = headerDone s.params.outCap w r') : header r' :=
    ⟨fun hover => overflowOf (hbyte.trans (headerDone_over hover)), fun hfits =>
      of_eq_ite_length (hbyte.trans ((headerDone_fits hfits).trans (nextField_hdr _ _))) goOf
        (fromIdOf hflags)⟩
  refine ⟨fun hph => goOf ?hdr, fun hph => goOf ?tlen, fun hph hk => goOf ?plenMore,
    fun hph hk hil => goOf ?plenThenId, fun hph hk hil => headerOf rfl ?plenLast,
    fun hph => headerOf rfl ?idlen, fun hph hfull => overflowOf ?fieldFull,
    fun hph hfits hcnt => goOf ?fieldMore, fun hph hfits hcnt => fromIdOf rfl ?type,
    fun hph hfits hcnt => fromPayOf rfl ?id,
    fun hph hfits hcnt => doneOf (r' := { r with cnt := 0 }) rfl ?pay⟩
  case hdr => rw [recByte, hph]
  case tlen => rw [recByte, hph]
  case plenMore => exact (recByte_plen hph).trans (recPlen_more hk)
  case plenThenId => exact (recByte_plen hph).trans (recPlen_thenId hk hil)
  case plenLast => exact (recByte_plen hph).trans (recPlen_last hk hil)
  case idlen => rw [recByte, hph]
  case fieldFull => rw [recByte_field _ _ _ _ hph, fieldByte_over hfull]
  case fieldMore => rw [recByte_field _ _ _ _ hph, fieldByte_more hfits hcnt]
  case type => exact recByte_lastByte hph (by decide) hfits hcnt
  case id => exact recByte_lastByte hph (by decide) hfits hcnt
  case pay => exact (recByte_lastByte hph (by decide) hfits hcnt).trans (nextField_pay _ _)

/-! NDEF_ENC's next field (42_ndef.md R236, R240) -/

section encFields

variable (w : Work) (e : EncW)

theorem encNext_type : encNext w e .type =
    if e.idlen ≠ 0 then .go { w with cmd := .ndefEnc { e with ph := .id, cnt := e.idlen.setWidth 32 } }
    else encNext w e .id := by
  by_cases hi : e.idlen = 0 <;> simp [encNext, hi]

theorem encNext_id : encNext w e .id =
    if e.plen ≠ 0 then .go { w with cmd := .ndefEnc { e with ph := .pay, cnt := e.plen } }
    else encRecordDone w e := by
  simp [encNext]

theorem encNext_pay : encNext w e .pay = encRecordDone w e := by
  simp [encNext]

end encFields

/-! NDEF_ENC's byte (42_ndef.md R236) -/

section encByte

variable {cap : Nat} {w : Work} {e : EncW} {b : Byte}

theorem ndefEncByte_pl (hph : e.ph = .pl) : ndefEncByte cap w e b = encPlen cap w e b := by
  rw [ndefEncByte, hph]

theorem encPlen_more (hk : e.k + 1 ≠ 4) : encPlen cap w e b =
    .go { w with cmd := .ndefEnc { e with plen := be32Step e.plen b, k := e.k + 1 } } :=
  if_neg hk

theorem encField_over (h : cap ≤ w.out.length) : encField cap w e b = .bad .outOverflow :=
  Work.emit_over _ _ _ _ (Nat.lt_succ_of_le h)

theorem encField_more (h : w.out.length < cap) (hcnt : e.cnt ≠ 1) : encField cap w e b =
    .go { w with out := w.out ++ [b], cmd := .ndefEnc { e with cnt := e.cnt - 1 } } := by
  rw [encField, Work.emit_fits _ _ _ _ h, if_neg (sub_eq_zero.not.2 hcnt)]

/-- The last byte of a field is copied, and the RD goes on after that field. -/
theorem ndefEncByte_lastByte {ph : EncPhase} (hph : e.ph = ph) (hfield : ph = .type ∨ ph = .id ∨ ph = .pay)
    (h : w.out.length < cap) (hcnt : e.cnt = 1) :
    ndefEncByte cap w e b = encNext { w with out := w.out ++ [b] } { e with cnt := 0 } ph := by
  subst hph
  rw [ndefEncByte_field _ _ _ _ hfield, encField, Work.emit_fits _ _ _ _ h,
    if_pos (sub_eq_zero.2 hcnt), sub_eq_zero.2 hcnt]

end encByte

/-- Settles O43: the phases' bytes, and after a finished field the first one left that is not empty. -/
theorem ndefEncByteRule : Obligations.NdefEncByteRule := by
  intro s w e b rest ha hcmd hf go done fromPay fromId
  have hc : w.command = .ndefEnc := by rw [Work.command, hcmd]
  have hexec : exec .ndefEnc s =
      .next ((s.afterByte rest).settle (ndefEncByte s.params.outCap w e b)) := by
    have htake := exec_takes_byte s w .ndefEnc b rest ha hc hf
    rwa [workByte, hcmd] at htake
  have goOf {w' : Work} {e'} (hbyte : ndefEncByte s.params.outCap w e b =
      .go { w' with cmd := .ndefEnc e' }) : go w' e' := by
    rwa [hbyte] at hexec
  have overflowOf (hbyte : ndefEncByte s.params.outCap w e b = .bad .outOverflow) :
      exec .ndefEnc s = .next ((s.afterByte rest).fail .outOverflow 0) := by
    rwa [hbyte] at hexec
  have doneOf {out e'} (hflags : e'.flags = e.flags)
      (hbyte : ndefEncByte s.params.outCap w e b = encRecordDone { w with out := out } e') :
      done { w with out := out } := by
    rw [hbyte, encRecordDone, hflags, flagME] at hexec
    exact ⟨fun hme => by rwa [hme] at hexec, fun hme => by rwa [hme] at hexec⟩
  have fromPayOf {out e'} (hflags : e'.flags = e.flags)
      (hbyte : ndefEncByte s.params.outCap w e b = encNext { w with out := out } e' .id) :
      fromPay { w with out := out } e' :=
    of_eq_ite_length (hbyte.trans (encNext_id _ _)) goOf (doneOf hflags)
  have fromIdOf {out e'} (hflags : e'.flags = e.flags)
      (hbyte : ndefEncByte s.params.outCap w e b = encNext { w with out := out } e' .type) :
      fromId { w with out := out } e' :=
    of_eq_ite_length (hbyte.trans (encNext_type _ _)) goOf (fromPayOf hflags)
  refine ⟨fun hph => goOf ?flg, fun hph => goOf ?tl, fun hph => goOf ?idl, fun hph hk => goOf ?plMore,
    fun hph hfull => overflowOf ?fieldFull, fun hph hfits hcnt => goOf ?fieldMore,
    fun hph hfits hcnt => fromIdOf rfl ?type, fun hph hfits hcnt => fromPayOf rfl ?id,
    fun hph hfits hcnt => doneOf (e' := { e with cnt := 0 }) rfl ?pay⟩
  case flg => rw [ndefEncByte, hph]
  case tl => rw [ndefEncByte, hph]
  case idl => rw [ndefEncByte, hph]
  case plMore => exact (ndefEncByte_pl hph).trans (encPlen_more hk)
  case fieldFull => rw [ndefEncByte_field _ _ _ _ hph, encField_over hfull]
  case fieldMore => rw [ndefEncByte_field _ _ _ _ hph, encField_more hfits hcnt]
  case type => exact ndefEncByte_lastByte hph (by decide) hfits hcnt
  case id => exact ndefEncByte_lastByte hph (by decide) hfits hcnt
  case pay => exact (ndefEncByte_lastByte hph (by decide) hfits hcnt).trans (encNext_pay _ _)

end Sys2Proof.Machine
end

section
/-! PROOFS. The URI unit (43_uri.md R251 to R253, R261 to R263): URI_EXP and URI_CMP, one entry at a time and
over whole streams. -/

namespace Sys2Proof.Machine

/-! URI_TABLE (00_scope.md R8) -/

section uriTable

variable {p : Params} {b : Byte} {pre : List Byte}

theorem prefixOf_known (h : p.uriTable[b.toNat]? = some pre) : prefixOf p b = pre := by
  rw [prefixOf, h, Option.getD_some]

theorem prefixOf_unknown (h : p.uriTable.length ≤ b.toNat) : prefixOf p b = [] := by
  rw [prefixOf, List.getElem?_eq_none h, Option.getD_none]

/-- FLAG is set exactly for the codes below the table's length (10_state.md R39). -/
theorem resultOf_uriKnown (p : Params) (b : Byte) : resultOf (uriKnown p b) b =
    BitVec.ofNat 9 ((if b.toNat < p.uriTable.length then 256 else 0) + b.toNat) := by
  by_cases h : b.toNat < p.uriTable.length
  · rw [uriKnown, decide_eq_true h, resultOf_found, if_pos h]
  · rw [uriKnown, decide_eq_false h, resultOf_unknown, if_neg h, Nat.zero_add]

theorem resultOf_uriKnown_some (h : p.uriTable[b.toNat]? = some pre) :
    resultOf (uriKnown p b) b = BitVec.ofNat 9 (256 + b.toNat) := by
  obtain ⟨hlt, -⟩ := List.getElem?_eq_some_iff.1 h
  rw [resultOf_uriKnown, if_pos hlt]

theorem resultOf_uriKnown_unknown (h : p.uriTable.length ≤ b.toNat) :
    resultOf (uriKnown p b) b = BitVec.ofNat 9 b.toNat := by
  rw [resultOf_uriKnown, if_neg (Nat.not_lt.2 h), Nat.zero_add]

theorem Params.uriTable_length (hl : p.legal = true) : p.uriTable.length = 36 := by
  simp only [Params.legal, Params.uriTableLegal, Bool.and_eq_true, decide_eq_true_eq] at hl
  obtain ⟨-, ⟨hlen, -⟩, -⟩ := hl
  exact hlen

end uriTable

/-! URI_EXP, one entry (43_uri.md R251, R253) -/

section uriExp

variable {p : Params} {w : Work} {b : Byte}

/-- The code's string is appended where it fits, and RESULT set with it. -/
theorem workByte_uriExp_code (hcmd : w.cmd = .uriExp .code) :
    workByte p w b = if w.out.length + (prefixOf p b).length ≤ p.outCap then
        .go { w with res := resultOf (uriKnown p b) b, out := w.out ++ prefixOf p b, cmd := .uriExp .suf }
      else .bad .outOverflow := by
  simp only [workByte, hcmd, uriExpByte]
  split
  next hfits => exact Work.emit_fits _ _ _ _ hfits
  next hover => exact Work.emit_over _ _ _ _ (Nat.not_le.1 hover)

theorem workByte_uriExp_suffix (hcmd : w.cmd = .uriExp .suf) :
    workByte p w b = if w.out.length < p.outCap then .go { w with out := w.out ++ [b] }
      else .bad .outOverflow := by
  have hemit : workByte p w b = w.emit p.outCap [b] .go := by
    simp only [workByte, hcmd, uriExpByte]
  rw [hemit]
  split
  next hroom => exact Work.emit_fits _ _ [b] _ (Nat.succ_le_of_lt hroom)
  next hfull => exact Work.emit_over _ _ [b] _ (Nat.lt_succ_of_le (Nat.not_lt.1 hfull))

theorem workEnd_uriExp {ph : UriPhase} (hcmd : w.cmd = .uriExp ph) : workEnd p w = .done w none := by
  simp only [workEnd, hcmd]

end uriExp

/-- `End` where the command answers it with success: the rest of the FIFO is dropped with it. -/
theorem exec_end_succeeds {s : State} {w w' : Work} {c : Command} {rest : List Entry}
    (ha : s.opst = .active w) (hc : w.command = c) (hf : s.fifo = .endMark :: rest)
    (hv : workEnd s.params w = .done w' none) : exec c.instr s = .next (s.succeed w') := by
  rw [exec_takes_end s w c rest ha hc hf, hv]
  rfl

/-- Settles O50: the code's string is the table's or empty, and every byte's string fits or overflows. -/
theorem uriExpRule : Obligations.UriExpRule := by
  intro s w ph rest ha hcmd
  have hc : w.command = .uriExp := by rw [Work.command, hcmd]
  have code {b} (hf : s.fifo = .data b :: rest) (hph : ph = .code) :=
    exec_byte_check ha hc hf (workByte_uriExp_code (hcmd.trans (congrArg _ hph)))
  have suffix {b} (hf : s.fifo = .data b :: rest) (hph : ph = .suf) :=
    exec_byte_check ha hc hf (workByte_uriExp_suffix (hcmd.trans (congrArg _ hph)))
  refine ⟨fun b pre hf hph hpre hfits => ?known, fun b pre hf hph hpre hover => ?knownOver,
    fun b hf hph hpast hfits => ?unknown, fun b hf hph => (suffix hf hph).2,
    fun b hf hph hfull => (suffix hf hph).1 (Nat.not_lt.2 hfull),
    fun hf => exec_end_succeeds ha hc hf (workEnd_uriExp hcmd)⟩
  case known =>
    obtain ⟨-, hgo⟩ := code hf hph
    rw [prefixOf_known hpre, resultOf_uriKnown_some hpre] at hgo
    exact hgo hfits
  case knownOver =>
    obtain ⟨hbad, -⟩ := code hf hph
    rw [prefixOf_known hpre] at hbad
    exact hbad (Nat.not_le.2 hover)
  case unknown =>
    obtain ⟨-, hgo⟩ := code hf hph
    rw [prefixOf_unknown hpast, resultOf_uriKnown_unknown hpast, List.append_nil] at hgo
    exact hgo hfits

/-! URI_EXP over a whole stream (43_uri.md R251 to R253) -/

/-- A started command that takes all of a run of bytes without ending and succeeds at `End`. -/
theorem feed_started_end {c : Command} {bs : List Byte} {s : State} {w w' : Work}
    (hl : s.params.legal = true) (hs : s.started c)
    (hst : stream s.params bs (initWork s.reqCode c) = some (.go w))
    (hend : workEnd s.params w = .done w' none) :
    feed c (bs.map .data ++ [.endMark]) s =
      .next (({ s with inPos := BitVec.ofNat 32 bs.length } : State).succeed w') := by
  obtain ⟨hact, hempty, hpos⟩ := hs
  have hfed := feed_go_end c bs s _ w hact (initWork_command _ c) hempty (Params.inDepth_le _ hl).1 hst
  have htook : (s.took bs.length w).succeed w' =
      ({ s with inPos := s.inPos + BitVec.ofNat 32 bs.length } : State).succeed w' := rfl
  rw [hend, State.settle_done, htook] at hfed
  simpa only [hpos, BitVec.ofNat_eq_ofNat, BitVec.zero_add] using hfed

/-- URI_EXP leaves the code's string and the suffix, with the code's RESULT. -/
theorem stream_uriExp_started (p : Params) (req code : Byte) (suffix : List Byte)
    (hcap : (prefixOf p code ++ suffix).length ≤ p.outCap) :
    stream p (code :: suffix) (initWork req .uriExp) =
      some (.go (Work.mk (prefixOf p code ++ suffix) 0 0 (resultOf (uriKnown p code) code) 0
        (.uriExp .suf))) := by
  rw [List.length_append] at hcap
  have hfits : (initWork req .uriExp).out.length + (prefixOf p code).length ≤ p.outCap := by
    simp only [initWork, List.length_nil]
    omega
  rw [stream_cons, workByte_uriExp_code rfl, if_pos hfits, andStream_go]
  exact stream_uriSuffix p suffix
    (Work.mk (prefixOf p code) 0 0 (resultOf (uriKnown p code) code) 0 (.uriExp .suf)) hcap

/-- Settles O51: the code and the suffix are one run of bytes, and `End` succeeds. -/
theorem uriExpExpands : Obligations.UriExpExpands := by
  intro s code suffix hl hs hcap
  have hst := stream_uriExp_started s.params s.reqCode code suffix hcap
  have hwin := (Params.outCap_le _ hl).2
  have hlen : (prefixOf s.params code ++ suffix).length < 2 ^ 32 := Nat.lt_of_le_of_lt hcap (by omega)
  refine ⟨_, feed_started_end hl hs hst (workEnd_uriExp rfl), rfl, State.succeed_output _ _ hlen, ?_,
    rfl, rfl, rfl, rfl⟩
  exact (resultOf_uriKnown _ _).trans (by rw [Params.uriTable_length hl])

/-! URI_CMP, one entry (43_uri.md R261) -/

section uriCmp

variable {p : Params} {w : Work} {c : CmpW}

theorem workByte_uriCmp (hcmd : w.cmd = .uriCmp c) (b : Byte) : workByte p w b =
    if c.buf.length < uriMaxP p then .go { w with cmd := .uriCmp { c with buf := c.buf ++ [b] } }
    else .go { w with cmd := .uriCmp { c with long := true } } := by
  simp only [workByte, hcmd, uriCmpByte]

theorem workEnd_uriCmp (hcmd : w.cmd = .uriCmp c) :
    workEnd p w = .done { w with res := uriCmpResult p c } none := by
  simp only [workEnd, hcmd]

/-- RESULT of a string in the table: its least code, with FLAG. A code past a byte is no code. -/
theorem uriCmpResult_found {c0 : Nat} (hshort : c.long = false) (hc0 : c0 < 256)
    (hfound : p.uriTable[c0]? = some c.buf) (hleast : ∀ d : Nat, d < c0 → p.uriTable[d]? ≠ some c.buf) :
    uriCmpResult p c = BitVec.ofNat 9 (256 + c0) := by
  have hbyte : (BitVec.ofNat 8 c0).toNat = c0 := (BitVec.toNat_ofNat c0 8).trans (Nat.mod_eq_of_lt hc0)
  simp only [uriCmpResult, hshort, codeOf_least p c.buf c0 hfound hleast, resultOf_found, hbyte,
    Bool.false_eq_true, if_false]

theorem uriCmpResult_none (h : c.long = true ∨ ∀ d : Nat, p.uriTable[d]? ≠ some c.buf) :
    uriCmpResult p c = 0 := by
  obtain hlong | habsent := h
  · exact if_pos hlong
  · simp only [uriCmpResult, codeOf_absent p c.buf habsent, ite_self]

end uriCmp

/-- Settles O52: the byte is kept or noted as one too many, and `End` looks the kept string up. -/
theorem uriCmpRule : Obligations.UriCmpRule := by
  intro s w c rest ha hcmd
  have hc : w.command = .uriCmp := by rw [Work.command, hcmd]
  have hbyte {b} (hf : s.fifo = .data b :: rest) := exec_takes_byte s w .uriCmp b rest ha hc hf
  have hend (hf : s.fifo = .endMark :: rest) := exec_end_succeeds ha hc hf (workEnd_uriCmp hcmd)
  refine ⟨fun b hf hroom => ?kept, fun b hf hfull => ?long,
    fun c0 hf hshort hc0 hfound hleast => ?found, fun hf hnone => ?absent⟩
  case kept => exact (hbyte hf).trans (by rw [workByte_uriCmp hcmd, if_pos hroom, State.settle_go])
  case long =>
    exact (hbyte hf).trans (by rw [workByte_uriCmp hcmd, if_neg (Nat.not_lt.2 hfull), State.settle_go])
  case found => exact (hend hf).trans (by rw [uriCmpResult_found hshort hc0 hfound hleast])
  case absent => exact (hend hf).trans (by rw [uriCmpResult_none hnone])

/-! URI_CMP over a whole stream (43_uri.md R261 to R263) -/

/-- An input longer than URI_MAXP is no string of the table. -/
theorem uriTable_ne_of_long {p : Params} {bs : List Byte} (h : uriMaxP p < bs.length) (d : Nat) :
    p.uriTable[d]? ≠ some bs := fun hd =>
  absurd (length_le_uriMaxP p bs (List.mem_of_getElem? hd)) (Nat.not_le.2 h)

/-- URI_CMP answers as if it had kept its whole input: what it drops makes the input too long to match. -/
theorem stream_uriCmp_started (p : Params) (req : Byte) (bs : List Byte) :
    ∃ c : CmpW, stream p bs (initWork req .uriCmp) =
        some (.go { initWork req .uriCmp with cmd := .uriCmp c }) ∧
      uriCmpResult p c = uriCmpResult p { buf := bs, long := false } := by
  obtain ⟨c, hst, hfits, hlong, -⟩ :=
    stream_uriCmp p bs (initWork req .uriCmp) { buf := [], long := false } (Nat.zero_le _)
  simp only [List.length_nil, Nat.zero_add, List.nil_append] at hfits hlong
  refine ⟨c, hst, ?_⟩
  obtain hlt | hle := Nat.lt_or_ge (uriMaxP p) bs.length
  · rw [uriCmpResult_none (.inl (hlong hlt)), uriCmpResult_none (.inr (uriTable_ne_of_long hlt))]
  · rw [hfits hle]

/-- Settles O53: the input is one run of bytes, and `End` looks it up. -/
theorem uriCmpFindsLeastCode : Obligations.UriCmpFindsLeastCode := by
  intro s bs hl hs
  obtain ⟨c, hst, hres⟩ := stream_uriCmp_started s.params s.reqCode bs
  refine ⟨_, feed_started_end hl hs hst (workEnd_uriCmp rfl), rfl, rfl, rfl, rfl, rfl, rfl,
    fun c0 hfound hleast => ?found, fun habsent => ?absent⟩
  case found =>
    obtain ⟨hlt, -⟩ := List.getElem?_eq_some_iff.1 hfound
    rw [Params.uriTable_length hl] at hlt
    exact hres.trans (uriCmpResult_found rfl (by omega) hfound hleast)
  case absent => exact hres.trans (uriCmpResult_none (.inr habsent))

end Sys2Proof.Machine
end

section
/-! PROOFS. The TLV unit (44_tlv.md R271 to R278, R284): TLV_PARSE's byte in each phase, and whole streams of
TLVs. -/

namespace Sys2Proof.Machine

/-! TLV_PARSE's parts (44_tlv.md R271) -/

section tlvParts

variable {cap : Nat} {w : Work} {t : TlvW} {r : RecW} {b : Byte}

theorem tlvTag_null : tlvTag w t r 0x00 = tlvGo w { t with ph := .nlen } r := rfl

theorem tlvTag_terminator : tlvTag w t r 0xFE = .done w none := rfl

theorem tlvTag_valued (h : b = 0x03 ∨ b = 0xFD) :
    tlvTag w t r b = tlvGo w { t with tag := b, ph := .l0 } r := by
  obtain rfl | rfl := h <;> rfl

theorem tlvTag_corrupt (hnull : b ≠ 0x00) (hndef : b ≠ 0x03) (hprop : b ≠ 0xFD) (hterm : b ≠ 0xFE) :
    tlvTag w t r b = .bad .tlvBadTag := by
  rw [tlvTag, if_neg hnull, if_neg hterm, if_neg (not_or.2 ⟨hndef, hprop⟩)]

theorem startValue_proprietary {len : BitVec 16} (htag : t.tag = 0xFD) (hlen : len ≠ 0) :
    startValue w t r len = tlvGo w { t with rem := len, ph := .pval } r := by
  rw [startValue, if_pos htag, if_pos hlen]

theorem startValue_proprietary_empty (htag : t.tag = 0xFD) :
    startValue w t r 0 = tlvGo w { t with rem := 0, ph := .tag } r :=
  if_pos htag

theorem startValue_ndef {len : BitVec 16} (htag : t.tag = 0x03) (hlen : len ≠ 0) :
    startValue w t r len = tlvGo w { t with rem := len, ph := .nval } recInit := by
  rw [startValue, if_neg (by rw [htag]; decide), if_neg hlen]

theorem startValue_ndef_empty (htag : t.tag = 0x03) : startValue w t r 0 = .bad .ndefTruncated := by
  rw [startValue, if_neg (by rw [htag]; decide), if_pos rfl]

theorem tlvSkip_last (hrem : t.rem = 1) : tlvSkip w t r = tlvGo w { t with rem := 0, ph := .tag } r := by
  rw [tlvSkip, sub_eq_zero.2 hrem, if_pos rfl]

theorem tlvSkip_more (hrem : t.rem ≠ 1) : tlvSkip w t r = tlvGo w { t with rem := t.rem - 1 } r := by
  rw [tlvSkip, if_neg (sub_eq_zero.not.2 hrem)]

theorem tlvValue_over (h : recByte cap w r b = .over) : tlvValue cap w t r b = .bad .outOverflow := by
  rw [tlvValue, h]

section

variable {w' : Work} {r' : RecW}

theorem tlvValue_msgDone (h : recByte cap w r b = .msgDone w' r') : tlvValue cap w t r b =
    tlvGo w' { t with rem := t.rem - 1, ph := if t.rem = 1 then .tag else .nskip } r' := by
  simp only [tlvValue, h, ite_not, sub_eq_zero]

theorem tlvValue_truncated (h : recByte cap w r b = .more w' r') (hrem : t.rem = 1) :
    tlvValue cap w t r b = .bad .ndefTruncated := by
  simp only [tlvValue, h, if_pos (sub_eq_zero.2 hrem)]

theorem tlvValue_more (h : recByte cap w r b = .more w' r') (hrem : t.rem ≠ 1) :
    tlvValue cap w t r b = tlvGo w' { t with rem := t.rem - 1 } r' := by
  simp only [tlvValue, h, if_neg (sub_eq_zero.not.2 hrem)]

end

/-! TLV_PARSE's byte, by its phase (44_tlv.md R271) -/

theorem tlvByte_l0_short (hph : t.ph = .l0) (hb : b ≠ 0xFF) :
    tlvByte cap w t r b = startValue w t r (b.setWidth 16) := by
  simp only [tlvByte, hph, if_neg hb]

theorem tlvByte_lx2 (hph : t.ph = .lx2) : tlvByte cap w t r b = startValue w t r (be16 t.hi b) := by
  rw [tlvByte, hph]

theorem tlvByte_skip (hph : t.ph = .pval ∨ t.ph = .nskip) : tlvByte cap w t r b = tlvSkip w t r := by
  obtain hph | hph := hph <;> rw [tlvByte, hph]

theorem tlvByte_nval (hph : t.ph = .nval) : tlvByte cap w t r b = tlvValue cap w t r b := by
  rw [tlvByte, hph]

end tlvParts

theorem workByte_tlvParse {p : Params} {w : Work} {t : TlvW} {r : RecW} (hcmd : w.cmd = .tlvParse t r)
    (b : Byte) : workByte p w b = tlvByte p.outCap w t r b := by
  rw [workByte, hcmd]

/-- TLV_PARSE takes a Data entry: its byte is processed in the phase it finds. -/
theorem exec_tlvParse_byte {s : State} {w : Work} {t : TlvW} {r : RecW} {b : Byte} {rest : List Entry}
    (ha : s.opst = .active w) (hcmd : w.cmd = .tlvParse t r) (hf : s.fifo = .data b :: rest) :
    exec .tlvParse s = .next ((s.afterByte rest).settle (tlvByte s.params.outCap w t r b)) := by
  have hc : w.command = .tlvParse := by rw [Work.command, hcmd]
  rw [← workByte_tlvParse hcmd]
  exact exec_takes_byte s w .tlvParse b rest ha hc hf

/-- Settles O47: a TLV, the end of the stream, or a corrupt tag. -/
theorem tlvTagRule : Obligations.TlvTagRule := by
  intro s w t r b rest ha hcmd hph hf
  have hexec := exec_tlvParse_byte ha hcmd hf
  rw [tlvByte, hph] at hexec
  refine ⟨?terminator, ?null, fun hb => ?valued, fun hnull hndef hprop hterm => ?corrupt⟩
  case terminator =>
    rintro rfl
    rwa [tlvTag_terminator] at hexec
  case null =>
    rintro rfl
    rwa [tlvTag_null] at hexec
  case valued => rwa [tlvTag_valued hb] at hexec
  case corrupt => rwa [tlvTag_corrupt hnull hndef hprop hterm] at hexec

/-! Lengths (44_tlv.md R274) -/

theorem setWidth_half_ne_zero {b : Byte} (hb : b ≠ 0x00) : b.setWidth 16 ≠ 0 := by
  intro h
  have hnat : (b.setWidth 16).toNat = b.toNat := BitVec.toNat_setWidth_of_le (by decide)
  rw [h] at hnat
  exact hb (BitVec.eq_of_toNat_eq hnat.symm)

theorem be16_ne_zero {hi lo : Byte} (h : hi.toNat * 256 + lo.toNat ≠ 0) : be16 hi lo ≠ 0 := by
  rw [be16, Ne, half_eq_zero _ (by omega)]
  exact h

/-- Settles O48: one lemma of the byte's phase per clause, and what settling its verdict leaves. -/
theorem tlvLengthAndValueRules : Obligations.TlvLengthAndValueRules := by
  intro s w t r b rest ha hcmd hf go init
  have hexec := exec_tlvParse_byte ha hcmd hf
  have goOf {w' t' r'} (hbyte : tlvByte s.params.outCap w t r b = tlvGo w' t' r') :
      exec .tlvParse s = .next { s.afterByte rest with
        opst := .active { w' with cmd := .tlvParse t' r' } } := by
    rwa [hbyte] at hexec
  have failOf {e} (hbyte : tlvByte s.params.outCap w t r b = .bad e) :
      exec .tlvParse s = .next ((s.afterByte rest).fail e 0) := by
    rwa [hbyte] at hexec
  have shortEmpty (hph : t.ph = .l0) (hb : b = 0x00) :
      tlvByte s.params.outCap w t r b = startValue w t r 0 := by
    subst hb
    exact tlvByte_l0_short hph (by decide)
  have longEmpty (hph : t.ph = .lx2) (hhi : t.hi = 0x00) (hb : b = 0x00) :
      tlvByte s.params.outCap w t r b = startValue w t r 0 := by
    rw [tlvByte_lx2 hph, hhi, hb]
    rfl
  refine ⟨fun hph => goOf ?null, fun hph hb => goOf ?long, fun hph => goOf ?high,
    fun hph htag hlong hlen => goOf ?propShort,
    fun hph htag hb => goOf ((shortEmpty hph hb).trans (startValue_proprietary_empty htag)),
    fun hph htag hlong hlen => goOf ?ndefShort,
    fun hph htag hb => failOf ((shortEmpty hph hb).trans (startValue_ndef_empty htag)),
    fun hph htag hlen => goOf ((tlvByte_lx2 hph).trans (startValue_ndef htag (be16_ne_zero hlen))),
    fun hph htag hhi hb => failOf ((longEmpty hph hhi hb).trans (startValue_ndef_empty htag)),
    fun hph htag hlen => goOf ((tlvByte_lx2 hph).trans (startValue_proprietary htag (be16_ne_zero hlen))),
    fun hph htag hhi hb => goOf ((longEmpty hph hhi hb).trans (startValue_proprietary_empty htag)),
    fun hph hrem => goOf ((tlvByte_skip hph).trans (tlvSkip_last hrem)),
    fun hph hrem => goOf ((tlvByte_skip hph).trans (tlvSkip_more hrem)),
    fun w' r' hph hrem hrec => failOf ((tlvByte_nval hph).trans (tlvValue_truncated hrec hrem)),
    fun w' r' hph hrem hrec => goOf ((tlvByte_nval hph).trans (tlvValue_more hrec hrem)),
    fun w' r' hph hrec => goOf ((tlvByte_nval hph).trans (tlvValue_msgDone hrec)),
    fun hph hrec => failOf ((tlvByte_nval hph).trans (tlvValue_over hrec))⟩
  case null => rw [tlvByte, hph]
  case long => simp only [tlvByte, hph, if_pos hb]
  case high => rw [tlvByte, hph]
  case propShort =>
    exact (tlvByte_l0_short hph hlong).trans (startValue_proprietary htag (setWidth_half_ne_zero hlen))
  case ndefShort =>
    exact (tlvByte_l0_short hph hlong).trans (startValue_ndef htag (setWidth_half_ne_zero hlen))

/-! Whole streams (44_tlv.md R284) -/

/-- A started command that takes all of a run of bytes and fails at its last one. -/
theorem feed_started_fails {c : Command} {bs : List Byte} {s : State} {e : ErrCode}
    (hl : s.params.legal = true) (hs : s.started c)
    (h : stream s.params bs (initWork s.reqCode c) = some (.bad e)) :
    feed c (bs.map .data) s = .next (({ s with inPos := BitVec.ofNat 32 bs.length } : State).fail e 0) := by
  obtain ⟨hact, hempty, hpos⟩ := hs
  have hne : bs ≠ [] := by
    rintro rfl
    cases h
  obtain ⟨w, hfed⟩ :=
    feed_last c bs s _ _ hact (initWork_command _ c) hempty (Params.inDepth_le _ hl).1 h hne
  have htook : (s.took bs.length w).fail e 0 =
      ({ s with inPos := s.inPos + BitVec.ofNat 32 bs.length } : State).fail e 0 := rfl
  rw [State.settle_bad, htook] at hfed
  simpa only [hpos, BitVec.ofNat_eq_ofNat, BitVec.zero_add] using hfed

/-- Valid TLVs leave their records' RDs, counted, and the byte after them is a tag. -/
theorem stream_tlvs_then_tag (p : Params) (req : Byte) (xs : List Tlv) (b : Byte) (hv : ∀ x ∈ xs, x.valid)
    (hcap : (rdBytes (xs.flatMap Tlv.records)).length ≤ p.outCap) :
    ∃ t r, stream p (xs.flatMap Tlv.wire ++ [b]) (initWork req .tlvParse) =
      some (tlvTag (Work.mk (rdBytes (xs.flatMap Tlv.records)) (BitVec.ofNat 32 (xs.map Tlv.messages).sum)
        (BitVec.ofNat 32 (xs.flatMap Tlv.records).length) 0 0 (.tlvParse t r)) t r b) := by
  obtain ⟨t, r, hph, hst⟩ := stream_tlvs p xs (initWork req .tlvParse)
    { ph := .tag, tag := 0, hi := 0, rem := 0 } recInit rfl hv
    (by simpa only [initWork, List.length_nil, Nat.zero_add] using hcap)
  refine ⟨t, r, (stream_append p _ [b] _ _ hst).trans ?_⟩
  rw [stream_cons, andStream_nil, workByte_tlvParse rfl, tlvByte, hph]
  simp only [initWork, List.nil_append, BitVec.ofNat_eq_ofNat, BitVec.zero_add]

/-- Settles O49: the TLVs are one run of bytes, and the tag after them ends it with success or a failure. -/
theorem tlvStreams : Obligations.TlvStreams := by
  intro s xs hl hs hv hcap
  have hwin := (Params.outCap_le _ hl).2
  have hlen : (rdBytes (xs.flatMap Tlv.records)).length < 2 ^ 32 := Nat.lt_of_le_of_lt hcap (by omega)
  have hpos (b : Byte) : BitVec.ofNat 32 (xs.flatMap Tlv.wire ++ [b]).length =
      BitVec.ofNat 32 ((xs.flatMap Tlv.wire).length + 1) := by
    rw [List.length_append, List.length_singleton]
  refine ⟨?terminator, ?corrupt⟩
  case terminator =>
    obtain ⟨t, r, hst⟩ := stream_tlvs_then_tag s.params s.reqCode xs 0xFE hv hcap
    rw [tlvTag_terminator] at hst
    exact ⟨_, feed_started_done hl hs hst, rfl, State.succeed_output _ _ hlen, rfl, rfl,
      hpos 0xFE, rfl, rfl⟩
  case corrupt =>
    obtain ⟨t, r, hst⟩ := stream_tlvs_then_tag s.params s.reqCode xs 0x01 hv hcap
    rw [tlvTag_corrupt (by decide) (by decide) (by decide) (by decide)] at hst
    exact ⟨_, feed_started_fails hl hs hst, rfl, rfl, rfl, rfl, hpos 0x01⟩

end Sys2Proof.Machine
end

section
/-! PROOFS. The error completion (60_exceptions.md R300, R310): the exact state `Fail` leaves, and the
number of each error. -/

namespace Sys2Proof.Machine

/-- Settles O23: `Fail` is the record update of R310 once its host code is read off `hostCodeOf`, and R300's
table is `ErrCode.code` at each error. -/
theorem failRule : Obligations.FailRule := by
  refine ⟨?exactState, ?numbers⟩
  case exactState =>
    intro s e c
    rw [State.fail, hostCodeOf]
  case numbers => decide

end Sys2Proof.Machine
end

section
/-! PROOFS. The state after hardware reset (70_reset_and_hazards.md R340, R341): it is one that a soft
reset leaves alone, and so it has the invariant. -/

namespace Sys2Proof.Machine

/-- This spec's own parameter values are in the ranges of 00_scope.md R8. -/
theorem defaultParams_legal : defaultParams.legal = true := by
  decide

/-- Hardware reset leaves what a soft reset leaves (70_reset_and_hazards.md R340). -/
theorem State.softReset_resetWith (p : Params) : (State.resetWith p).softReset = State.resetWith p :=
  rfl

/-- After reset OUT lists no byte, so only the parameters have to be legal. -/
theorem Base.resetWith {p : Params} (hl : p.legal = true) : Base (State.resetWith p) where
  paramsLegal := hl
  outWf := State.reset_out_wf
  outWindow := by simp [State.resetWith]

theorem Inv.resetWith {p : Params} (hl : p.legal = true) : Inv (State.resetWith p) := by
  have hsoft : Inv (State.resetWith p).softReset := softReset_inv _ (Base.resetWith hl)
  rwa [State.softReset_resetWith] at hsoft

/-- Settles O55: a soft reset gives the invariant to any state with legal parameters and a well-formed OUT,
and the reset state is its own soft reset. -/
theorem invariantAtReset : Obligations.InvariantAtReset :=
  ⟨Inv.resetWith defaultParams_legal, fun _ => Inv.resetWith⟩

end Sys2Proof.Machine
end
